-- ==== Sys2Proof/Word.lean ====
section
/-! DEFINITION. The word types of the machine and the register numbers (spec 10_state.md, 00_scope.md rule R7). -/

namespace Sys2Proof

/-- A byte, 8 bits (rule R1). -/
abbrev Byte := BitVec 8

/-- A 64-bit address; also the width of the instruction pointer and of a general register (rules R19, R20, R30). -/
abbrev Addr := BitVec 64

/-- The contents of one vector register, `MAXVL = 512` bits (rules R7, R15). -/
abbrev Vec := BitVec 512

/-- The contents of one opmask register, 64 bits (rule R18). -/
abbrev KMask := BitVec 64

/-- The number of a vector register, `NVREG = 32` (rules R7, R15). -/
abbrev VReg := Fin 32

/-- The number of a general register, `NGPR = 16` (rules R7, R19). -/
abbrev GReg := Fin 16

/-- The number of an opmask register, `NKREG = 8` (rules R7, R18). -/
abbrev KReg := Fin 8

end Sys2Proof
end

