-- ==== Sys2Proof/Config.lean ====
section
/-! DEFINITION. The configuration of the machine: the parameters rule R7 leaves to the caller, as plain data.
The spec has no undefined value (93_implementation_defined.md, end of part 1), so there is no free value here. -/

namespace Sys2Proof

/-- The six Booleans of rule R7: the extension is present AND enabled by the operating system (rules R23, R123). -/
structure Features where
  sse41 : Bool
  avx : Bool
  avx2 : Bool
  avx512f : Bool
  avx512bw : Bool
  avx512vl : Bool
deriving DecidableEq, Repr

/-- `size` byte addresses from `base` upward at which a data read succeeds. -/
structure Region where
  base : Addr
  size : Nat
deriving DecidableEq, Repr

/-- The parameters of a run (rule R7). `accessible` lists the regions whose union is the predicate `Accessible`
(every predicate on the 2^64 addresses is such a union); `text` and `base` are `TEXT` and `BASE`, and
`END = BASE + length(TEXT)` is computed from them (decision D25). -/
structure Config where
  features : Features
  faultSuppression : Bool
  accessible : List Region
  text : List Byte
  base : Addr
deriving DecidableEq, Repr

end Sys2Proof
end

