-- ==== Sys2Proof/Syntax.lean ====
section
/-! DEFINITION. The syntax of the 36 instruction forms, one constructor for each row of spec/opcode_table.json
(rules R2, R51), with the operands rule R62 gives a decoded instruction. -/

namespace Sys2Proof

/-- The six conversions of rules R1 and R51. -/
inductive Conversion where
  | bw | bd | bq | wd | wq | dq
deriving DecidableEq, Repr

/-- The vector lengths of rule R60. -/
inductive VLen where
  | v128 | v256 | v512
deriving DecidableEq, Repr

/-- The scale `1 << ss` of a SIB byte (rule R53). -/
inductive Scale where
  | x1 | x2 | x4 | x8
deriving DecidableEq, Repr

/-- The displacement that follows ModRM or SIB, as encoded: an 8-bit one is not yet scaled (rules R52, R55). -/
inductive Disp where
  | none
  | disp8 (d : BitVec 8)
  | disp32 (d : BitVec 32)
deriving DecidableEq, Repr

/-- The index register of a SIB byte with its scale (rule R53). -/
structure Index where
  reg : GReg
  scale : Scale
deriving DecidableEq, Repr

/-- The memory address recipe of rules R52 and R53. -/
inductive MemOp where
  /-- mod 00, rm 101: relative to the address of the next instruction. -/
  | ripRel (disp : BitVec 32)
  /-- a base register named by ModRM.rm, no SIB byte. -/
  | base (b : GReg) (disp : Disp)
  /-- a SIB byte with a base register; `none` is the encoding's "no index". -/
  | sib (b : GReg) (index : Option Index) (disp : Disp)
  /-- a SIB byte whose base is 101 under mod 00: no base, a 32-bit displacement. -/
  | sibNoBase (index : Option Index) (disp : BitVec 32)
deriving DecidableEq, Repr

/-- The source operand: a vector register or a memory operand (rules R31, R54). -/
inductive Src where
  | reg (s : VReg)
  | mem (m : MemOp)
deriving DecidableEq, Repr

/-- The writemask of an EVEX form: `aaa = 000`, or `k[aaa]` merging (`z = 0`) or zeroing (`z = 1`) (rules R18, R96). -/
inductive Masking where
  | none
  | merging (k : KReg)
  | zeroing (k : KReg)
deriving DecidableEq, Repr

/-- The 36 forms. `rex` says that a legacy form's optional REX byte is there (rule R47); `d` is the destination. -/
inductive Instr where
  | pmovzxbw (rex : Bool) (d : VReg) (src : Src)
  | pmovzxbd (rex : Bool) (d : VReg) (src : Src)
  | pmovzxbq (rex : Bool) (d : VReg) (src : Src)
  | pmovzxwd (rex : Bool) (d : VReg) (src : Src)
  | pmovzxwq (rex : Bool) (d : VReg) (src : Src)
  | pmovzxdq (rex : Bool) (d : VReg) (src : Src)
  | vpmovzxbwVex128 (d : VReg) (src : Src)
  | vpmovzxbdVex128 (d : VReg) (src : Src)
  | vpmovzxbqVex128 (d : VReg) (src : Src)
  | vpmovzxwdVex128 (d : VReg) (src : Src)
  | vpmovzxwqVex128 (d : VReg) (src : Src)
  | vpmovzxdqVex128 (d : VReg) (src : Src)
  | vpmovzxbwVex256 (d : VReg) (src : Src)
  | vpmovzxbdVex256 (d : VReg) (src : Src)
  | vpmovzxbqVex256 (d : VReg) (src : Src)
  | vpmovzxwdVex256 (d : VReg) (src : Src)
  | vpmovzxwqVex256 (d : VReg) (src : Src)
  | vpmovzxdqVex256 (d : VReg) (src : Src)
  | vpmovzxbwEvex128 (m : Masking) (d : VReg) (src : Src)
  | vpmovzxbdEvex128 (m : Masking) (d : VReg) (src : Src)
  | vpmovzxbqEvex128 (m : Masking) (d : VReg) (src : Src)
  | vpmovzxwdEvex128 (m : Masking) (d : VReg) (src : Src)
  | vpmovzxwqEvex128 (m : Masking) (d : VReg) (src : Src)
  | vpmovzxdqEvex128 (m : Masking) (d : VReg) (src : Src)
  | vpmovzxbwEvex256 (m : Masking) (d : VReg) (src : Src)
  | vpmovzxbdEvex256 (m : Masking) (d : VReg) (src : Src)
  | vpmovzxbqEvex256 (m : Masking) (d : VReg) (src : Src)
  | vpmovzxwdEvex256 (m : Masking) (d : VReg) (src : Src)
  | vpmovzxwqEvex256 (m : Masking) (d : VReg) (src : Src)
  | vpmovzxdqEvex256 (m : Masking) (d : VReg) (src : Src)
  | vpmovzxbwEvex512 (m : Masking) (d : VReg) (src : Src)
  | vpmovzxbdEvex512 (m : Masking) (d : VReg) (src : Src)
  | vpmovzxbqEvex512 (m : Masking) (d : VReg) (src : Src)
  | vpmovzxwdEvex512 (m : Masking) (d : VReg) (src : Src)
  | vpmovzxwqEvex512 (m : Masking) (d : VReg) (src : Src)
  | vpmovzxdqEvex512 (m : Masking) (d : VReg) (src : Src)
deriving DecidableEq, Repr

/-- The same 36 forms seen as rule R51 counts them: one of the three formats, with its length and its conversion.
`wide` is the VEX length bit L (rule R48). -/
inductive Shape where
  | legacy (c : Conversion) (rex : Bool) (d : VReg) (src : Src)
  | vex (c : Conversion) (wide : Bool) (d : VReg) (src : Src)
  | evex (c : Conversion) (vl : VLen) (m : Masking) (d : VReg) (src : Src)
deriving DecidableEq, Repr

/-- The format, conversion and operands of an instruction (the six rows of rule R51 times its six encodings). -/
def Instr.shape : Instr → Shape
  | .pmovzxbw r d s => .legacy .bw r d s
  | .pmovzxbd r d s => .legacy .bd r d s
  | .pmovzxbq r d s => .legacy .bq r d s
  | .pmovzxwd r d s => .legacy .wd r d s
  | .pmovzxwq r d s => .legacy .wq r d s
  | .pmovzxdq r d s => .legacy .dq r d s
  | .vpmovzxbwVex128 d s => .vex .bw false d s
  | .vpmovzxbdVex128 d s => .vex .bd false d s
  | .vpmovzxbqVex128 d s => .vex .bq false d s
  | .vpmovzxwdVex128 d s => .vex .wd false d s
  | .vpmovzxwqVex128 d s => .vex .wq false d s
  | .vpmovzxdqVex128 d s => .vex .dq false d s
  | .vpmovzxbwVex256 d s => .vex .bw true d s
  | .vpmovzxbdVex256 d s => .vex .bd true d s
  | .vpmovzxbqVex256 d s => .vex .bq true d s
  | .vpmovzxwdVex256 d s => .vex .wd true d s
  | .vpmovzxwqVex256 d s => .vex .wq true d s
  | .vpmovzxdqVex256 d s => .vex .dq true d s
  | .vpmovzxbwEvex128 m d s => .evex .bw .v128 m d s
  | .vpmovzxbdEvex128 m d s => .evex .bd .v128 m d s
  | .vpmovzxbqEvex128 m d s => .evex .bq .v128 m d s
  | .vpmovzxwdEvex128 m d s => .evex .wd .v128 m d s
  | .vpmovzxwqEvex128 m d s => .evex .wq .v128 m d s
  | .vpmovzxdqEvex128 m d s => .evex .dq .v128 m d s
  | .vpmovzxbwEvex256 m d s => .evex .bw .v256 m d s
  | .vpmovzxbdEvex256 m d s => .evex .bd .v256 m d s
  | .vpmovzxbqEvex256 m d s => .evex .bq .v256 m d s
  | .vpmovzxwdEvex256 m d s => .evex .wd .v256 m d s
  | .vpmovzxwqEvex256 m d s => .evex .wq .v256 m d s
  | .vpmovzxdqEvex256 m d s => .evex .dq .v256 m d s
  | .vpmovzxbwEvex512 m d s => .evex .bw .v512 m d s
  | .vpmovzxbdEvex512 m d s => .evex .bd .v512 m d s
  | .vpmovzxbqEvex512 m d s => .evex .bq .v512 m d s
  | .vpmovzxwdEvex512 m d s => .evex .wd .v512 m d s
  | .vpmovzxwqEvex512 m d s => .evex .wq .v512 m d s
  | .vpmovzxdqEvex512 m d s => .evex .dq .v512 m d s

/-- The destination register. -/
def Shape.dest : Shape → VReg
  | .legacy _ _ d _ => d
  | .vex _ _ d _ => d
  | .evex _ _ _ d _ => d

/-- The source operand. -/
def Shape.src : Shape → Src
  | .legacy _ _ _ s => s
  | .vex _ _ _ s => s
  | .evex _ _ _ _ s => s

end Sys2Proof
end

