-- ==== Sys2Proof/WellFormed.lean ====
section
/-! DEFINITION. Which terms of `Instr` an encoding exists for: the register reach of each format (rule R17) and the
addressing forms ModRM and SIB can name (rules R52, R53). Every check is a Bool. -/

namespace Sys2Proof

/-- A general register with number 4 or 12 cannot be a base without a SIB byte: `rm = 100b` means SIB (rule R52). -/
def plainBaseOk (b : GReg) : Bool := b.val % 8 != 4

/-- A base with low bits 101 under `mod = 00b` means RIP-relative, or "no base" in a SIB (rules R52, R53). -/
def baseDispOk (b : GReg) : Disp → Bool
  | .none => b.val % 8 != 5
  | .disp8 _ => true
  | .disp32 _ => true

/-- `X:index = 0100b` (RSP) means "no index", so RSP is no index register (rule R53). -/
def indexOk : Option Index → Bool
  | none => true
  | some i => i.reg.val != 4

/-- The memory operand can be written in ModRM, SIB and displacement bytes. -/
def MemOp.wf : MemOp → Bool
  | .ripRel _ => true
  | .base b d => plainBaseOk b && baseDispOk b d
  | .sib b i d => baseDispOk b d && indexOk i
  | .sibNoBase i _ => indexOk i

/-- Every vector register of a source is below `n`. -/
def Src.vregBelow (n : Nat) : Src → Bool
  | .reg s => s.val < n
  | .mem _ => true

/-- The source operand can be encoded. -/
def Src.wf : Src → Bool
  | .reg _ => true
  | .mem m => m.wf

/-- The index register's number is below 8. -/
def indexLow : Option Index → Bool
  | none => true
  | some i => i.reg.val < 8

/-- No register of the operand needs an extension bit, so it can be written without a REX byte (rule R47). -/
def Src.low : Src → Bool
  | .reg s => s.val < 8
  | .mem (.ripRel _) => true
  | .mem (.base b _) => b.val < 8
  | .mem (.sib b i _) => b.val < 8 && indexLow i
  | .mem (.sibNoBase i _) => indexLow i

/-- `aaa = 000b` is not a writemask: only `k[1]` to `k[7]` can be one (rule R18). -/
def Masking.wf : Masking → Bool
  | .none => true
  | .merging k => k.val != 0
  | .zeroing k => k.val != 0

/-- The form can be encoded: legacy and VEX forms reach vector registers 0 to 15 (rule R17), a legacy form without REX
only numbers below 8 (rule R47), and the operand and the mask are well formed. -/
def Shape.wf : Shape → Bool
  | .legacy _ rex d s => d.val < 16 && s.vregBelow 16 && s.wf && (rex || (d.val < 8 && s.low))
  | .vex _ _ d s => d.val < 16 && s.vregBelow 16 && s.wf
  | .evex _ _ m _ s => m.wf && s.wf

/-- An instruction an encoding exists for. -/
def Instr.wf (i : Instr) : Bool := i.shape.wf

end Sys2Proof
end

