-- ==== Sys2Proof/Decode.lean ====
section
/-! DEFINITION. The decoder of 30_encoding.md (rules R46 to R63), total on every byte string, and after it the encoder
of well-formed instructions, written from the same tables. A byte string is in ascending address order (rule R46). -/

namespace Sys2Proof

/-- Why the decoder refuses a byte string: the spec gives it no meaning (rule R62). Never to be read as a fault. -/
inductive RefuseReason where
  /-- `pc < BASE` or `pc >= END` (rule R62, step 1). -/
  | outsideText
  /-- a byte at or beyond `END` is needed (rule R62, step 2). -/
  | runsOffText
  /-- a form of the family under a combination of legacy prefixes and REX that rule R61 refuses. -/
  | unsupportedPrefixes
  /-- EVEX P0 bits 3:2 not 00b, or P1 bit 2 equal to 0, in an otherwise EVEX form of the family (rule R58). -/
  | evexExtension
  /-- anything else: another instruction of the architecture (rules R6, R61). -/
  | notInFamily
deriving DecidableEq, Repr

/-- The decoder's answer (rule R62). `rest` is what follows the instruction, so its length `len` is the number of bytes
before `rest`. -/
inductive Verdict where
  | instr (i : Instr) (rest : List Byte)
  | ud
  | refused (r : RefuseReason)
deriving DecidableEq, Repr

/-! ## Fields -/

/-- Bits `lo + w - 1 : lo` of a byte (rule R8). -/
def bits (b : Byte) (lo w : Nat) : BitVec w := b.extractLsb' lo w

/-- A single bit of a byte. -/
def bit (b : Byte) (i : Nat) : Bool := b.getLsbD i

/-- A 5-bit vector register number `h4 ++ h3 ++ lo` (rule R54). -/
def vregOf (h4 h3 : Bool) (lo : BitVec 3) : VReg := (BitVec.ofBool h4 ++ BitVec.ofBool h3 ++ lo).toFin

/-- A 4-bit general register number `h3 ++ lo` (rule R54). -/
def gregOf (h3 : Bool) (lo : BitVec 3) : GReg := (BitVec.ofBool h3 ++ lo).toFin

/-- The true (un-inverted) extension bits of rule R54. `s4` is the fifth bit of a source vector register: the X bit in
EVEX format, 0 in the other two. -/
structure Ext where
  r4 : Bool
  r : Bool
  x : Bool
  b : Bool
  s4 : Bool
deriving DecidableEq, Repr

/-- The opcode map of rule R51, the same in the three formats. -/
def conversionOf (op : Byte) : Option Conversion :=
  if op = 0x30#8 then some .bw
  else if op = 0x31#8 then some .bd
  else if op = 0x32#8 then some .bq
  else if op = 0x33#8 then some .wd
  else if op = 0x34#8 then some .wq
  else if op = 0x35#8 then some .dq
  else none

/-- The scale of rule R53. -/
def scaleOf (ss : BitVec 2) : Scale :=
  if ss = 0#2 then .x1 else if ss = 1#2 then .x2 else if ss = 2#2 then .x4 else .x8

/-- The three lengths of rule R60; `L'L = 11b` names none. -/
def vlenOf (ll : BitVec 2) : Option VLen :=
  if ll = 0#2 then some .v128 else if ll = 1#2 then some .v256 else if ll = 2#2 then some .v512 else none

/-- `aaa` and `z` (rules R18, R49, R96). `z = 1` with `aaa = 000b` is ruled out before this is asked (rule R58). -/
def maskingOf (z : Bool) (aaa : BitVec 3) : Masking :=
  if aaa = 0#3 then .none else if z then .zeroing aaa.toFin else .merging aaa.toFin

/-! ## ModRM, SIB and displacement (rules R52, R53, R55) -/

/-- One displacement byte; `none` when the text ends. -/
def readDisp8 : List Byte → Option (BitVec 8 × List Byte)
  | d :: rest => some (d, rest)
  | [] => none

/-- Four displacement bytes, little-endian: the first is bits 7:0 (rule R55). -/
def readDisp32 : List Byte → Option (BitVec 32 × List Byte)
  | d0 :: d1 :: d2 :: d3 :: rest => some (d3 ++ d2 ++ d1 ++ d0, rest)
  | _ => none

/-- The displacement `mod` announces: none, one byte or four (rule R52). -/
def readDisp (mod : BitVec 2) (bs : List Byte) : Option (Disp × List Byte) :=
  if mod = 1#2 then (readDisp8 bs).map fun p => (.disp8 p.1, p.2)
  else if mod = 2#2 then (readDisp32 bs).map fun p => (.disp32 p.1, p.2)
  else some (.none, bs)

/-- The index register of a SIB byte, `none` for the number 0100b (rule R53). -/
def sibIndex (x : Bool) (sib : Byte) : Option Index :=
  if gregOf x (bits sib 3 3) = 4 then none
  else some ⟨gregOf x (bits sib 3 3), scaleOf (bits sib 6 2)⟩

/-- The operand a SIB byte and what follows it name (rule R53). -/
def readSib (mod : BitVec 2) (e : Ext) (sib : Byte) (bs : List Byte) : Option (MemOp × List Byte) :=
  if mod = 0#2 ∧ bits sib 0 3 = 5#3 then
    (readDisp32 bs).map fun p => (.sibNoBase (sibIndex e.x sib) p.1, p.2)
  else
    (readDisp mod bs).map fun p => (.sib (gregOf e.b (bits sib 0 3)) (sibIndex e.x sib) p.1, p.2)

/-- The memory operand of `mod` other than 11b (rule R52). -/
def readMem (mod : BitVec 2) (rm : BitVec 3) (e : Ext) (bs : List Byte) : Option (MemOp × List Byte) :=
  if rm = 4#3 then
    match bs with
    | sib :: rest => readSib mod e sib rest
    | [] => none
  else if mod = 0#2 ∧ rm = 5#3 then
    (readDisp32 bs).map fun p => (.ripRel p.1, p.2)
  else
    (readDisp mod bs).map fun p => (.base (gregOf e.b rm) p.1, p.2)

/-- The two operands that ModRM and the bytes after it name: destination and source (rules R52, R54). `none` when the
text ends first. -/
def readOperands (e : Ext) : List Byte → Option (VReg × Src × List Byte)
  | [] => none
  | modrm :: rest =>
    if bits modrm 6 2 = 3#2 then
      some (vregOf e.r4 e.r (bits modrm 3 3), .reg (vregOf e.s4 e.b (bits modrm 0 3)), rest)
    else
      (readMem (bits modrm 6 2) (bits modrm 0 3) e rest).map fun p =>
        (vregOf e.r4 e.r (bits modrm 3 3), .mem p.1, p.2)

/-! ## The instruction a form and its operands make -/

/-- The legacy form of a conversion (rows R90 to R95). -/
def mkLegacy (c : Conversion) (rex : Bool) (d : VReg) (s : Src) : Instr :=
  match c with
  | .bw => .pmovzxbw rex d s
  | .bd => .pmovzxbd rex d s
  | .bq => .pmovzxbq rex d s
  | .wd => .pmovzxwd rex d s
  | .wq => .pmovzxwq rex d s
  | .dq => .pmovzxdq rex d s

/-- The VEX form of a conversion: L = 0 is VEX.128, L = 1 is VEX.256 (rule R48). -/
def mkVex (c : Conversion) (wide : Bool) (d : VReg) (s : Src) : Instr :=
  match wide, c with
  | false, .bw => .vpmovzxbwVex128 d s
  | false, .bd => .vpmovzxbdVex128 d s
  | false, .bq => .vpmovzxbqVex128 d s
  | false, .wd => .vpmovzxwdVex128 d s
  | false, .wq => .vpmovzxwqVex128 d s
  | false, .dq => .vpmovzxdqVex128 d s
  | true, .bw => .vpmovzxbwVex256 d s
  | true, .bd => .vpmovzxbdVex256 d s
  | true, .bq => .vpmovzxbqVex256 d s
  | true, .wd => .vpmovzxwdVex256 d s
  | true, .wq => .vpmovzxwqVex256 d s
  | true, .dq => .vpmovzxdqVex256 d s

/-- The EVEX form of a conversion at a length (rule R49). -/
def mkEvex (c : Conversion) (vl : VLen) (m : Masking) (d : VReg) (s : Src) : Instr :=
  match vl, c with
  | .v128, .bw => .vpmovzxbwEvex128 m d s
  | .v128, .bd => .vpmovzxbdEvex128 m d s
  | .v128, .bq => .vpmovzxbqEvex128 m d s
  | .v128, .wd => .vpmovzxwdEvex128 m d s
  | .v128, .wq => .vpmovzxwqEvex128 m d s
  | .v128, .dq => .vpmovzxdqEvex128 m d s
  | .v256, .bw => .vpmovzxbwEvex256 m d s
  | .v256, .bd => .vpmovzxbdEvex256 m d s
  | .v256, .bq => .vpmovzxbqEvex256 m d s
  | .v256, .wd => .vpmovzxwdEvex256 m d s
  | .v256, .wq => .vpmovzxwqEvex256 m d s
  | .v256, .dq => .vpmovzxdqEvex256 m d s
  | .v512, .bw => .vpmovzxbwEvex512 m d s
  | .v512, .bd => .vpmovzxbdEvex512 m d s
  | .v512, .bq => .vpmovzxbqEvex512 m d s
  | .v512, .wd => .vpmovzxwdEvex512 m d s
  | .v512, .wq => .vpmovzxwqEvex512 m d s
  | .v512, .dq => .vpmovzxdqEvex512 m d s

/-! ## The three formats -/

/-- The extension bits of a legacy form: the REX bits, or 0 without REX (rules R47, R54). -/
def legacyExt : Option Byte → Ext
  | none => ⟨false, false, false, false, false⟩
  | some rex => ⟨false, bit rex 2, bit rex 1, bit rex 0, false⟩

/-- A legacy form from its ModRM byte on (rule R47). REX.W is ignored (rule R59). -/
def legacyForm (c : Conversion) (rex : Option Byte) (bs : List Byte) : Verdict :=
  match readOperands (legacyExt rex) bs with
  | none => .refused .runsOffText
  | some (d, s, rest) => .instr (mkLegacy c rex.isSome d s) rest

/-- The extension bits of a VEX3 form, un-inverted (rules R48, R54). -/
def vexExt (v1 : Byte) : Ext := ⟨false, !bit v1 7, !bit v1 6, !bit v1 5, false⟩

/-- A VEX3 form from its ModRM byte on; `vvvv` not 1111b is `#UD` (rules R48, R57). VEX.W is ignored (rule R59). -/
def vexForm (c : Conversion) (v1 v2 : Byte) (bs : List Byte) : Verdict :=
  match readOperands (vexExt v1) bs with
  | none => .refused .runsOffText
  | some (d, s, rest) => if bits v2 3 4 = 15#4 then .instr (mkVex c (bit v2 2) d s) rest else .ud

/-- The extension bits of an EVEX form, un-inverted; X also extends a source vector register (rules R49, R54). -/
def evexExt (p0 : Byte) : Ext := ⟨!bit p0 4, !bit p0 7, !bit p0 6, !bit p0 5, !bit p0 6⟩

/-- The reserved fields of an EVEX form of the family have the values that do not raise `#UD`, but for `L'L`:
`vvvv` (rule R57), W for opcode 35h (rule R59), `V'`, `b`, and `z` with `aaa` (rule R58). -/
def evexFieldsOk (c : Conversion) (p1 p2 : Byte) : Bool :=
  bits p1 3 4 == 15#4 && !(c == .dq && bit p1 7) && bit p2 3 && !bit p2 4 && !(bit p2 7 && bits p2 0 3 == 0#3)

/-- An EVEX form from its ModRM byte on (rule R49); the checks are those of rule R62, step 4. -/
def evexForm (c : Conversion) (p0 p1 p2 : Byte) (bs : List Byte) : Verdict :=
  match readOperands (evexExt p0) bs with
  | none => .refused .runsOffText
  | some (d, s, rest) =>
    match vlenOf (bits p2 5 2) with
    | none => .ud
    | some vl =>
      if evexFieldsOk c p1 p2 then .instr (mkEvex c vl (maskingOf (bit p2 7) (bits p2 0 3)) d s) rest else .ud

/-! ## Prefixes (rule R61) -/

/-- The prefix bytes that make up a prefix run (rule R61). -/
def isLegacyPrefix (b : Byte) : Bool :=
  b ∈ [0x66#8, 0xF2#8, 0xF3#8, 0xF0#8, 0x2E#8, 0x36#8, 0x3E#8, 0x26#8, 0x64#8, 0x65#8, 0x67#8]

/-- LOCK, F2h or F3h: in a prefix run before any form of the family it makes `#UD` (rule R61). -/
def isLockOrRep (b : Byte) : Bool := b == 0xF0#8 || b == 0xF2#8 || b == 0xF3#8

/-- A REX byte, 40h to 4Fh (rule R47). -/
def isRex (b : Byte) : Bool := bits b 4 4 == 4#4

/-- The optional REX byte after the prefix run, and the rest (rule R61). -/
def splitRex : List Byte → Option Byte × List Byte
  | b :: rest => if isRex b then (some b, rest) else (none, b :: rest)
  | [] => (none, [])

/-- The verdict of rule R61's rows for VEX and EVEX when the prefix run or REX is not empty. -/
def prefixedVector (run : List Byte) (rex : Option Byte) : Verdict :=
  if rex.isSome || run.any (fun b => b == 0x66#8 || isLockOrRep b) then .ud else .refused .unsupportedPrefixes

/-- What follows `0F` (rule R61, rows 1 to 3). -/
def decodeLegacy (run : List Byte) (rex : Option Byte) : List Byte → Verdict
  | esc :: op :: rest =>
    if esc = 0x38#8 then
      match conversionOf op with
      | none => .refused .notInFamily
      | some c =>
        if run = [0x66#8] then legacyForm c rex rest
        else if run.any isLockOrRep then .ud
        else .refused .unsupportedPrefixes
    else .refused .notInFamily
  | _ => .refused .runsOffText

/-- What follows `C4` (rule R61, rows 4 to 6). -/
def decodeVex (run : List Byte) (rex : Option Byte) : List Byte → Verdict
  | v1 :: v2 :: op :: rest =>
    match conversionOf op with
    | none => .refused .notInFamily
    | some c =>
      if bits v1 0 5 = 2#5 ∧ bits v2 0 2 = 1#2 then
        if run = [] ∧ rex = none then vexForm c v1 v2 rest else prefixedVector run rex
      else .refused .notInFamily
  | _ => .refused .runsOffText

/-- What follows `62` (rule R61, rows 7 to 9; rule R58 for the two fields later extensions use). -/
def decodeEvex (run : List Byte) (rex : Option Byte) : List Byte → Verdict
  | p0 :: p1 :: p2 :: op :: rest =>
    match conversionOf op with
    | none => .refused .notInFamily
    | some c =>
      if bits p0 0 2 = 2#2 ∧ bits p1 0 2 = 1#2 then
        if bits p0 2 2 = 0#2 ∧ bit p1 2 = true then
          if run = [] ∧ rex = none then evexForm c p0 p1 p2 rest else prefixedVector run rex
        else .refused .evexExtension
      else .refused .notInFamily
  | _ => .refused .runsOffText

/-- Rule R62 on the bytes from `pc` to `END`: prefix run, REX, rest, then the table of rule R61. -/
def decode (bs : List Byte) : Verdict :=
  match splitRex (bs.dropWhile isLegacyPrefix) with
  | (_, []) => .refused .runsOffText
  | (rex, b :: rest) =>
    if b = 0x0F#8 then decodeLegacy (bs.takeWhile isLegacyPrefix) rex rest
    else if b = 0xC4#8 then decodeVex (bs.takeWhile isLegacyPrefix) rex rest
    else if b = 0x62#8 then decodeEvex (bs.takeWhile isLegacyPrefix) rex rest
    else .refused .notInFamily

/-! ## Length (rule R63) -/

/-- Displacement bytes `D` (rule R52). -/
def Disp.length : Disp → Nat
  | .none => 0
  | .disp8 _ => 1
  | .disp32 _ => 4

/-- `S + D`: the SIB and displacement bytes of a source operand (rule R63). -/
def Src.tailLength : Src → Nat
  | .reg _ => 0
  | .mem (.ripRel _) => 4
  | .mem (.base _ d) => d.length
  | .mem (.sib _ _ d) => 1 + d.length
  | .mem (.sibNoBase _ _) => 1 + 4

/-- `len` of a legacy form: `P` is 3 without REX, 4 with REX (rule R63). -/
def legacyLength (rex : Bool) (s : Src) : Nat := (if rex then 4 else 3) + 1 + 1 + s.tailLength

/-- `len` of a VEX3 form: `P` is 3. -/
def vexLength (s : Src) : Nat := 3 + 1 + 1 + s.tailLength

/-- `len` of an EVEX form: `P` is 4. -/
def evexLength (s : Src) : Nat := 4 + 1 + 1 + s.tailLength

/-- The encoded length of an instruction in bytes (rule R63). -/
def Instr.length (i : Instr) : Nat :=
  match i.shape with
  | .legacy _ rex _ s => legacyLength rex s
  | .vex _ _ _ s => vexLength s
  | .evex _ _ _ _ s => evexLength s

/-! ## The encoder -/

/-- The opcode byte of a conversion (rule R51). -/
def opcodeOf : Conversion → Byte
  | .bw => 0x30#8
  | .bd => 0x31#8
  | .bq => 0x32#8
  | .wd => 0x33#8
  | .wq => 0x34#8
  | .dq => 0x35#8

/-- The `ss` field of a scale (rule R53). -/
def ssOf : Scale → BitVec 2
  | .x1 => 0#2
  | .x2 => 1#2
  | .x4 => 2#2
  | .x8 => 3#2

/-- Bit `i` of a register number. -/
def numBit (n i : Nat) : Bool := n.testBit i

/-- The low three bits of a register number. -/
def low3 (n : Nat) : BitVec 3 := BitVec.ofNat 3 n

/-- The `mod` field a displacement asks for (rule R52). -/
def Disp.modBits : Disp → BitVec 2
  | .none => 0#2
  | .disp8 _ => 1#2
  | .disp32 _ => 2#2

/-- A 32-bit displacement's four bytes, the least significant first (rule R55). -/
def disp32Bytes (d : BitVec 32) : List Byte :=
  [d.extractLsb' 0 8, d.extractLsb' 8 8, d.extractLsb' 16 8, d.extractLsb' 24 8]

/-- The bytes of a displacement. -/
def Disp.bytes : Disp → List Byte
  | .none => []
  | .disp8 d => [d]
  | .disp32 d => disp32Bytes d

/-- The X extension bit an index register needs. -/
def indexX : Option Index → Bool
  | none => false
  | some i => numBit i.reg.val 3

/-- A SIB byte; "no index" is the number 0100b with scale bits 00b (rule R53). -/
def sibByte (i : Option Index) (base : BitVec 3) : Byte :=
  match i with
  | none => 0#2 ++ 4#3 ++ base
  | some i => ssOf i.scale ++ low3 i.reg.val ++ base

/-- What a source operand contributes to an encoding: the extension bits X and B, the `mod` and `rm` fields, and the SIB
and displacement bytes (rules R52 to R55). -/
structure RmFields where
  x : Bool
  b : Bool
  mod : BitVec 2
  rm : BitVec 3
  tail : List Byte
deriving DecidableEq, Repr

/-- The fields of a source operand. For a vector register X is bit 4 of its number, 0 below 16 (rule R54). -/
def Src.fields : Src → RmFields
  | .reg s => ⟨numBit s.val 4, numBit s.val 3, 3#2, low3 s.val, []⟩
  | .mem (.ripRel d) => ⟨false, false, 0#2, 5#3, disp32Bytes d⟩
  | .mem (.base b d) => ⟨false, numBit b.val 3, d.modBits, low3 b.val, d.bytes⟩
  | .mem (.sib b i d) => ⟨indexX i, numBit b.val 3, d.modBits, 4#3, sibByte i (low3 b.val) :: d.bytes⟩
  | .mem (.sibNoBase i d) => ⟨indexX i, false, 0#2, 4#3, sibByte i 5#3 :: disp32Bytes d⟩

/-- The ModRM byte and what follows it (rule R52). -/
def operandBytes (d : VReg) (f : RmFields) : List Byte := (f.mod ++ low3 d.val ++ f.rm) :: f.tail

/-- The bits `z` and `aaa` of a writemask (rules R18, R49). -/
def Masking.zBit : Masking → Bool
  | .zeroing _ => true
  | _ => false

/-- The field `aaa` of a writemask. -/
def Masking.aaa : Masking → BitVec 3
  | .none => 0#3
  | .merging k => low3 k.val
  | .zeroing k => low3 k.val

/-- The field `L'L` of a length (rule R60). -/
def llOf : VLen → BitVec 2
  | .v128 => 0#2
  | .v256 => 1#2
  | .v512 => 2#2

/-- The REX byte of a legacy form, W = 0 (rule R47). -/
def rexByte (d : VReg) (f : RmFields) : Byte :=
  4#4 ++ 0#1 ++ BitVec.ofBool (numBit d.val 3) ++ BitVec.ofBool f.x ++ BitVec.ofBool f.b

/-- VEX byte V1 (rule R48). -/
def vexByte1 (d : VReg) (f : RmFields) : Byte :=
  BitVec.ofBool (!numBit d.val 3) ++ BitVec.ofBool (!f.x) ++ BitVec.ofBool (!f.b) ++ 2#5

/-- VEX byte V2, W = 0 (rule R48). -/
def vexByte2 (wide : Bool) : Byte := 0#1 ++ 15#4 ++ BitVec.ofBool wide ++ 1#2

/-- EVEX byte P0 (rule R49). -/
def evexByte0 (d : VReg) (f : RmFields) : Byte :=
  BitVec.ofBool (!numBit d.val 3) ++ BitVec.ofBool (!f.x) ++ BitVec.ofBool (!f.b) ++
    BitVec.ofBool (!numBit d.val 4) ++ 2#4

/-- EVEX byte P1, W = 0 (rule R49). -/
def evexByte1 : Byte := 0#1 ++ 15#4 ++ 1#1 ++ 1#2

/-- EVEX byte P2 (rule R49). -/
def evexByte2 (vl : VLen) (m : Masking) : Byte := BitVec.ofBool m.zBit ++ llOf vl ++ 0#1 ++ 1#1 ++ m.aaa

/-- The bytes of a form: the ignored bits (W, and X and B where nothing uses them) are written as 0, and as stored 1
where the field is inverted. -/
def Shape.encode : Shape → List Byte
  | .legacy c rex d s =>
    0x66#8 :: ((if rex then [rexByte d s.fields] else []) ++
      0x0F#8 :: 0x38#8 :: opcodeOf c :: operandBytes d s.fields)
  | .vex c wide d s =>
    0xC4#8 :: vexByte1 d s.fields :: vexByte2 wide :: opcodeOf c :: operandBytes d s.fields
  | .evex c vl m d s =>
    0x62#8 :: evexByte0 d s.fields :: evexByte1 :: evexByte2 vl m :: opcodeOf c :: operandBytes d s.fields

/-- The bytes of an instruction (meant for well-formed ones). -/
def encode (i : Instr) : List Byte := i.shape.encode

/-! ## The mnemonic (rules R2, R65) and the host's table words -/

/-- The suffix of a conversion. -/
def Conversion.suffix : Conversion → String
  | .bw => "BW"
  | .bd => "BD"
  | .bq => "BQ"
  | .wd => "WD"
  | .wq => "WQ"
  | .dq => "DQ"

/-- The mnemonic: VEX and EVEX forms begin with V, legacy forms do not (rule R2). -/
def Instr.mnemonic (i : Instr) : String :=
  match i.shape with
  | .legacy c _ _ _ => "PMOVZX" ++ c.suffix
  | .vex c _ _ _ => "VPMOVZX" ++ c.suffix
  | .evex c _ _ _ _ => "VPMOVZX" ++ c.suffix

/-- The `n` low bytes of `w`, the least significant first. -/
def lowBytes : Nat → Nat → List Byte
  | 0, _ => []
  | n + 1, w => BitVec.ofNat 8 w :: lowBytes n (w / 256)

/-- The longest accepted instruction has 11 bytes (rule R63). -/
def maxLength : Nat := 11

/-- The bytes of an instruction whose bits are `w`, bit 0 the least significant bit of the first byte, followed by zero
bytes up to the longest instruction. -/
def tableBytes (nbits w : Nat) : List Byte :=
  lowBytes ((nbits + 7) / 8) w ++ List.replicate (maxLength - (nbits + 7) / 8) 0#8

/-- The instruction the decoder reads from the table word `w`. -/
def decodeTableWord (nbits w : Nat) : Option Instr :=
  match decode (tableBytes nbits w) with
  | .instr i _ => some i
  | .ud => none
  | .refused _ => none

end Sys2Proof
end

