-- ==== Sys2Proof/Machine/State.lean ====
section
/-! DEFINITION. The state of the machine (10_state.md), the ways a step can stop, and the state after reset.
The spec models no reset (rules R28, R137); which choices `State.reset` makes is said in notes/assumptions. -/

namespace Sys2Proof.Machine

/-- The exceptions of rule R120. -/
inductive Exception where
  /-- invalid opcode, vector 6: rules R121, R122, R123. -/
  | ud
  /-- stack-segment fault with error code 0, vector 12: rule R126. -/
  | ss
  /-- general protection with error code 0, vector 13: rule R126. -/
  | gp
  /-- page fault, vector 14, with the faulting byte address: rule R126. -/
  | pf (addr : Addr)
deriving DecidableEq, Repr

/-- The fault record of rules R29 and R120: the exception and the `pc` of the instruction that raised it. -/
structure FaultRecord where
  exc : Exception
  pc : Addr
deriving DecidableEq, Repr

/-- Data memory (rules R24, R30): the bytes that differ from what an unlisted address reads as, as (address, byte)
pairs with addresses strictly rising. `Memory.read` in Machine/Ops.lean gives every address its byte. -/
abbrev Memory := List Host.Cell

/-- The machine of 10_state.md, with the configuration of rule R7 (`cfg`), which no step changes. -/
structure State where
  /-- the vector registers (rule R15). -/
  v : Vector Vec 32
  /-- the opmask registers (rule R18). -/
  k : Vector KMask 8
  /-- the general registers, read only (rule R19). -/
  x : Vector Addr 16
  /-- the instruction pointer (rule R20). -/
  pc : Addr
  /-- data memory (rule R24). -/
  mem : Memory
  /-- the terminal fault record (rule R29). -/
  fault : Option FaultRecord
  /-- the parameters of the run (rules R7, R137). -/
  cfg : Config
deriving DecidableEq, Repr

/-- Why the machine has no next state although it understands its instruction. Both are the spec's own terminal states,
raised by `step` alone; stopping is what the spec says, so it is safe. -/
inductive Fault where
  /-- an earlier instruction raised an exception and its record stands in `fault`: no later step exists (rules R29,
  R130). Safe. -/
  | exceptionRecorded (r : FaultRecord)
  /-- `pc = END` with no fault: the run has ended normally (rule R139). Safe. -/
  | runEnded
deriving DecidableEq, Repr

/-- Why the model gives no meaning. Safe in every case: nothing is claimed about such a state (rule R62). -/
inductive Refusal where
  /-- raised by `exec` for an instruction without a meaning; no arm raises it. Safe. -/
  | notModelled (mnemonic : String)
  /-- raised by `step` when the decoder refuses the bytes at `pc` (rule R62). Safe. -/
  | undecoded (r : RefuseReason)
deriving DecidableEq, Repr

/-- Every extension present and enabled. -/
def allFeatures : Features := ⟨true, true, true, true, true, true⟩

/-- One region that covers the whole address space. -/
def wholeSpace : Region := ⟨0, 2 ^ 64⟩

/-- The configuration `State.reset` carries: no program, every feature enabled, every address accessible, the
conservative `FaultSuppression = false` (D14). DESIGN CHOICE, notes/assumptions/1.md and 2.md. -/
def Config.initial : Config := ⟨allFeatures, false, [wholeSpace], [], 0⟩

/-- The state right after reset: the spec gives no reset value (rules R28, R137). Every register is 0, memory lists
nothing, no fault, no program. DESIGN CHOICE, notes/assumptions/1.md. -/
def State.reset : State where
  v := Vector.replicate 32 0
  k := Vector.replicate 8 0
  x := Vector.replicate 16 0
  pc := 0
  mem := []
  fault := none
  cfg := Config.initial

end Sys2Proof.Machine
end

