-- ==== Sys2Proof/Machine/Ops.lean ====
section
/-! DEFINITION. The named operations over registers, memory and the program text, and raising an exception. No form
writes memory, a mask or a general register (rules R18, R19, R36), so there is no such write here but `Memory.write`,
by which a start state's memory is built (rule R137). -/

namespace Sys2Proof.Machine

/-! ## Registers -/

/-- `v[i]` (rule R11). -/
def State.vreg (s : State) (i : VReg) : Vec := s.v[i]

/-- `k[i]` (rule R11). -/
def State.kreg (s : State) (i : KReg) : KMask := s.k[i]

/-- `x[i]` (rule R11). -/
def State.greg (s : State) (i : GReg) : Addr := s.x[i]

/-- `v[i] <- val`, all `MAXVL` bits (rule R11). -/
def State.setVreg (s : State) (i : VReg) (val : Vec) : State := { s with v := s.v.set i val }

/-- `pc <- target` (rule R11). -/
def State.setPc (s : State) (target : Addr) : State := { s with pc := target }

/-- `XMMi = v[i][127:0]` (rule R16). -/
def State.xmm (s : State) (i : VReg) : BitVec 128 := (s.vreg i).extractLsb' 0 128

/-- `YMMi = v[i][255:0]` (rule R16). -/
def State.ymm (s : State) (i : VReg) : BitVec 256 := (s.vreg i).extractLsb' 0 256

/-- `ZMMi = v[i][511:0]` (rule R16). -/
def State.zmm (s : State) (i : VReg) : Vec := s.vreg i

/-! ## Exceptions -/

/-- The vector number of rule R120. -/
def Exception.vector : Exception → Nat
  | .ud => 6
  | .ss => 12
  | .gp => 13
  | .pf _ => 14

/-- The error code of rule R120: 0 for `#SS` and `#GP`; `#UD` has none, and that of `#PF` is not modelled. -/
def Exception.errorCode : Exception → Option Nat
  | .ud => none
  | .ss => some 0
  | .gp => some 0
  | .pf _ => none

/-- Taking an exception (rule R130): the record holds the exception and the `pc` of the instruction, and nothing else
changes. There is no handler, hence no return from one (rule R131). -/
def State.raise (s : State) (e : Exception) : State := { s with fault := some ⟨e, s.pc⟩ }

/-! ## Memory -/

/-- What an address that memory does not list reads as. DESIGN CHOICE, notes/assumptions/3.md. -/
def unlistedByte : Byte := 0

/-- The byte `mem(a)` (rule R24). -/
def Memory.read (m : Memory) (a : Nat) : Byte :=
  match m with
  | [] => unlistedByte
  | c :: rest => if c.1 = a then c.2 else Memory.read rest a

/-- The cell for `b` at `a` in front of `rest`, or no cell when `b` is what an unlisted address reads as. -/
def Memory.cons (a : Nat) (b : Byte) (rest : Memory) : Memory := if b = unlistedByte then rest else (a, b) :: rest

/-- The memory with the byte at `a` replaced. No instruction uses it (rule R36). -/
def Memory.write (m : Memory) (a : Nat) (b : Byte) : Memory :=
  match m with
  | [] => Memory.cons a b []
  | c :: rest =>
    if a < c.1 then Memory.cons a b (c :: rest)
    else if a = c.1 then Memory.cons a b rest
    else c :: Memory.write rest a b

/-- The bytes `bs` laid out from address `a` upward. -/
def Memory.load (m : Memory) (a : Nat) : List Byte → Memory
  | [] => m
  | b :: bs => Memory.load (m.write a b) (a + 1) bs

/-- Every address listed is at least `lo` and below 2^64, addresses rise strictly, and no cell holds the unlisted byte. -/
def Memory.wfFrom (lo : Nat) (m : Memory) : Bool :=
  match m with
  | [] => true
  | c :: rest => lo ≤ c.1 && c.1 < 2 ^ 64 && c.2 != unlistedByte && Memory.wfFrom (c.1 + 1) rest

/-- The canonical form of memory. -/
def Memory.wf (m : Memory) : Bool := m.wfFrom 0

/-! ## The address check (rule R40) -/

/-- `a` lies in the region. -/
def Region.holds (r : Region) (a : Addr) : Bool := r.base.toNat ≤ a.toNat && a.toNat < r.base.toNat + r.size

/-- The predicate `Accessible` (rules R7, R40). -/
def State.accessible (s : State) (a : Addr) : Bool := s.cfg.accessible.any fun r => Region.holds r a

/-- Bits 63:47 are all equal (rule R40). -/
def canonical (a : Addr) : Bool := a.extractLsb' 47 17 == 0#17 || a.extractLsb' 47 17 == BitVec.allOnes 17

/-! ## The program text (rules R7, R44) -/

/-- `END = BASE + length(TEXT)` (decision D25). -/
def State.textEnd (s : State) : Nat := s.cfg.base.toNat + s.cfg.text.length

/-- `BASE <= pc < END`. -/
def State.pcInText (s : State) : Bool := s.cfg.base.toNat ≤ s.pc.toNat && s.pc.toNat < s.textEnd

/-- The bytes from `pc` to `END`: the byte at address `a` is `TEXT[a - BASE]` (rule R44). -/
def State.fetch (s : State) : List Byte := s.cfg.text.drop (s.pc.toNat - s.cfg.base.toNat)

/-- The decoder's verdict on the state (rule R62). -/
def State.verdict (s : State) : Verdict :=
  if s.pcInText then decode s.fetch else .refused .outsideText

/-- The state with the program text `bs` at `pc` and no fault recorded: the start of a run there (rule R137). -/
def State.loadText (s : State) (bs : List Byte) : State :=
  { s with cfg := { s.cfg with text := bs, base := s.pc }, fault := none }

end Sys2Proof.Machine
end

