-- ==== Sys2Proof/Machine/Convert.lean ====
section
/-! DEFINITION. The function ZX of rule R72 with the form parameters of rule R12, the six helpers of rules R66 to R71, and
what each encoding group does with the result (rules R76, R89, R96, R97). A value of VL bits is held in a 512-bit one
whose bits above VL are 0. -/

namespace Sys2Proof

/-- Source element width `srcw` in bits (rules R12, R51). -/
def Conversion.srcw : Conversion → Nat
  | .bw => 8
  | .bd => 8
  | .bq => 8
  | .wd => 16
  | .wq => 16
  | .dq => 32

/-- Destination element width `dstw` in bits (rules R12, R51). -/
def Conversion.dstw : Conversion → Nat
  | .bw => 16
  | .bd => 32
  | .bq => 64
  | .wd => 32
  | .wq => 64
  | .dq => 64

/-- `VL` in bits (rule R60). -/
def VLen.bits : VLen → Nat
  | .v128 => 128
  | .v256 => 256
  | .v512 => 512

/-- `KL = VL / dstw`, the number of elements and of mask bits read (rule R12). -/
def elements (c : Conversion) (vl : VLen) : Nat := vl.bits / c.dstw

/-- `NB = KL * srcw / 8`, the bytes of source read (rules R12, R34). -/
def sourceBytes (c : Conversion) (vl : VLen) : Nat := elements c vl * c.srcw / 8

namespace Machine

/-- Element `j` of width `w`: bits `j*w + w - 1 : j*w`. -/
def elem (w : Nat) (x : Vec) (j : Nat) : BitVec w := x.extractLsb' (j * w) w

/-- The value whose first `n` elements of width `w` are `f 0` to `f (n-1)`, all other bits 0. -/
def pack (w : Nat) (f : Nat → BitVec w) : Nat → Vec
  | 0 => 0
  | n + 1 => pack w f n ||| ((f n).setWidth 512 <<< (n * w))

/-- `ZX(srcw, dstw, VL, S)` (rule R72). -/
def zx (c : Conversion) (vl : VLen) (src : Vec) : Vec :=
  pack c.dstw (fun j => (elem c.srcw src j).setWidth c.dstw) (elements c vl)

/-! ## The six helpers, as the Operation sections write them -/

/-- `Packed_Zero_Extend_BYTE_to_WORD` (rule R66). -/
def bytesToWords (src : BitVec 64) : BitVec 128 :=
  (src.extractLsb' 56 8).setWidth 16 ++ (src.extractLsb' 48 8).setWidth 16 ++
  (src.extractLsb' 40 8).setWidth 16 ++ (src.extractLsb' 32 8).setWidth 16 ++
  (src.extractLsb' 24 8).setWidth 16 ++ (src.extractLsb' 16 8).setWidth 16 ++
  (src.extractLsb' 8 8).setWidth 16 ++ (src.extractLsb' 0 8).setWidth 16

/-- `Packed_Zero_Extend_BYTE_to_DWORD` (rule R67). -/
def bytesToDwords (src : BitVec 32) : BitVec 128 :=
  (src.extractLsb' 24 8).setWidth 32 ++ (src.extractLsb' 16 8).setWidth 32 ++
  (src.extractLsb' 8 8).setWidth 32 ++ (src.extractLsb' 0 8).setWidth 32

/-- `Packed_Zero_Extend_BYTE_to_QWORD` (rule R68). -/
def bytesToQwords (src : BitVec 16) : BitVec 128 :=
  (src.extractLsb' 8 8).setWidth 64 ++ (src.extractLsb' 0 8).setWidth 64

/-- `Packed_Zero_Extend_WORD_to_DWORD` (rule R69). -/
def wordsToDwords (src : BitVec 64) : BitVec 128 :=
  (src.extractLsb' 48 16).setWidth 32 ++ (src.extractLsb' 32 16).setWidth 32 ++
  (src.extractLsb' 16 16).setWidth 32 ++ (src.extractLsb' 0 16).setWidth 32

/-- `Packed_Zero_Extend_WORD_to_QWORD` (rule R70). -/
def wordsToQwords (src : BitVec 32) : BitVec 128 :=
  (src.extractLsb' 16 16).setWidth 64 ++ (src.extractLsb' 0 16).setWidth 64

/-- `Packed_Zero_Extend_DWORD_to_QWORD` (rule R71). -/
def dwordsToQwords (src : BitVec 64) : BitVec 128 :=
  (src.extractLsb' 32 32).setWidth 64 ++ (src.extractLsb' 0 32).setWidth 64

/-- The helper an Operation section of the conversion calls, on the source bits from `lo` upward. -/
def helper (c : Conversion) (src : Vec) (lo : Nat) : BitVec 128 :=
  match c with
  | .bw => bytesToWords (src.extractLsb' lo 64)
  | .bd => bytesToDwords (src.extractLsb' lo 32)
  | .bq => bytesToQwords (src.extractLsb' lo 16)
  | .wd => wordsToDwords (src.extractLsb' lo 64)
  | .wq => wordsToQwords (src.extractLsb' lo 32)
  | .dq => dwordsToQwords (src.extractLsb' lo 64)

/-- `a`, the source bits a helper call consumes: `128 * srcw / dstw` (rule R72). -/
def helperBits (c : Conversion) : Nat := 128 * c.srcw / c.dstw

/-- The chain of helper calls of an Operation section: one per 128 bits of vector length (rules R77 to R103). -/
def helperChain (c : Conversion) (vl : VLen) (src : Vec) : Vec :=
  match vl with
  | .v128 => (helper c src 0).setWidth 512
  | .v256 => (helper c src (helperBits c) ++ helper c src 0).setWidth 512
  | .v512 =>
    helper c src (3 * helperBits c) ++ helper c src (2 * helperBits c) ++ helper c src (helperBits c) ++ helper c src 0

/-! ## What each encoding group writes -/

/-- Legacy: bits 127:0 receive the result, bits 511:128 keep their value (rule R89). -/
def legacyMerge (old t : Vec) : Vec := old.extractLsb' 128 384 ++ t.extractLsb' 0 128

/-- VEX: the low VL bits receive the result, the bits above are zeroed (rule R76). -/
def vexMerge (vl : VLen) (t : Vec) : Vec := (t.setWidth vl.bits).setWidth 512

/-- EVEX: each element under the writemask, the bits above VL zeroed (rules R96, R97). `active j` is
`k1[j] OR *no writemask*`. -/
def evexMerge (c : Conversion) (vl : VLen) (active : Nat → Bool) (zeroing : Bool) (old t : Vec) : Vec :=
  pack c.dstw
    (fun j => if active j then elem c.dstw t j else if zeroing then 0 else elem c.dstw old j) (elements c vl)

end Machine

end Sys2Proof
end

