-- ==== Sys2Proof/Machine/Operands.lean ====
section
/-! DEFINITION. The source operand: writemask bits, effective address, the address check and the read (rules R32 to R40,
R55, R56, R74, R126). -/

namespace Sys2Proof.Machine

/-! ## The writemask -/

/-- `k1[j] OR *no writemask*` (rule R96). -/
def State.maskBit (s : State) (m : Masking) (j : Nat) : Bool :=
  match m with
  | .none => true
  | .merging k => (s.kreg k).getLsbD j
  | .zeroing k => (s.kreg k).getLsbD j

/-- `*zeroing-masking*` (rule R96). -/
def isZeroing : Masking → Bool
  | .zeroing _ => true
  | .merging _ => false
  | .none => false

/-- The encoding names a mask register. -/
def isMasked : Masking → Bool
  | .none => false
  | .merging _ => true
  | .zeroing _ => true

/-! ## The effective address (rules R55, R56) -/

/-- `1 << ss` (rule R53). -/
def scaleFactor : Scale → Addr
  | .x1 => 1
  | .x2 => 2
  | .x4 => 4
  | .x8 => 8

/-- The displacement: an 8-bit one is sign-extended and multiplied by `n`, a 32-bit one is sign-extended. -/
def dispValue (n : Nat) : Disp → Addr
  | .none => 0
  | .disp8 d => d.signExtend 64 * BitVec.ofNat 64 n
  | .disp32 d => d.signExtend 64

/-- `index * scale`, 0 for "no index". -/
def State.indexValue (s : State) : Option Index → Addr
  | none => 0
  | some i => s.greg i.reg * scaleFactor i.scale

/-- The effective address: `next` is the address of the next instruction, `n` the scale of an 8-bit displacement. All
sums are modulo 2^64. -/
def State.effectiveAddress (s : State) (n : Nat) (next : Addr) : MemOp → Addr
  | .ripRel d => next + d.signExtend 64
  | .base b d => s.greg b + dispValue n d
  | .sib b i d => s.greg b + s.indexValue i + dispValue n d
  | .sibNoBase i d => s.indexValue i + d.signExtend 64

/-- The address is formed with base register RSP or RBP (rule R126). -/
def stackBase : MemOp → Bool
  | .ripRel _ => false
  | .base b _ => b == 4 || b == 5
  | .sib b _ _ => b == 4 || b == 5
  | .sibNoBase _ _ => false

/-! ## The read (rules R33, R38, R126) -/

/-- The offsets from the effective address of the bytes that are checked and read, in rising order: all `NB`, or, with
`FaultSuppression` and a writemask, those of unmasked elements (rule R38). -/
def State.checkedOffsets (s : State) (c : Conversion) (vl : VLen) (m : Masking) : List Nat :=
  if s.cfg.faultSuppression && isMasked m then
    (List.range (sourceBytes c vl)).filter fun i => s.maskBit m (i / (c.srcw / 8))
  else List.range (sourceBytes c vl)

/-- The memory fault of rule R126 for the bytes `ea + i`, `i` in `offs`, of an operand of `nb` bytes. -/
def State.memoryFault (s : State) (onStack : Bool) (ea : Addr) (nb : Nat) (offs : List Nat) : Option Exception :=
  if offs.isEmpty then none
  else if 2 ^ 64 < ea.toNat + nb || offs.any (fun i => !canonical (ea + BitVec.ofNat 64 i)) then
    some (if onStack then .ss else .gp)
  else
    match offs.find? (fun i => !s.accessible (ea + BitVec.ofNat 64 i)) with
    | some i => some (.pf (ea + BitVec.ofNat 64 i))
    | none => none

/-- The little-endian value of the bytes at `ea + i`, `i` in `offs` and below `nb` (rules R32, R33); a byte that is not
read is 0 here, and no result depends on it (rule R38). -/
def State.readBytes (s : State) (ea : Addr) (nb : Nat) (offs : List Nat) : Vec :=
  pack 8 (fun i => if i ∈ offs then s.mem.read (ea + BitVec.ofNat 64 i).toNat else 0) nb

/-- `SRCVAL` (rule R74), in the low `NSRC` bits, or the memory fault its read raises. `n` scales an 8-bit displacement,
`len` is the instruction's length. -/
def State.sourceValue (s : State) (c : Conversion) (vl : VLen) (m : Masking) (n len : Nat) (src : Src) :
    Except Exception Vec :=
  match src with
  | .reg r => .ok (s.vreg r)
  | .mem op =>
    let ea := s.effectiveAddress n (s.pc + BitVec.ofNat 64 len) op
    match s.memoryFault (stackBase op) ea (sourceBytes c vl) (s.checkedOffsets c vl m) with
    | some e => .error e
    | none => .ok (s.readBytes ea (sourceBytes c vl) (s.checkedOffsets c vl m))

end Sys2Proof.Machine
end

