-- ==== Sys2Proof/Machine/Forms.lean ====
section
/-! DEFINITION. The skeleton of a step (rule R75) from the feature check on, and its three instances, one per encoding
format. -/

namespace Sys2Proof.Machine

/-- Rule R75, steps 5 and 6: `v[d]` and `pc` are written together. -/
def State.complete (s : State) (d : VReg) (val : Vec) (len : Nat) : State :=
  (s.setVreg d val).setPc (s.pc + BitVec.ofNat 64 len)

/-- Rule R75, steps 2, 3, 5 and 6: `#UD` when the feature is missing, the memory fault of the source operand, or the
result written. `result old src` is what `v[d]` receives. -/
def State.run (s : State) (enabled : Bool) (d : VReg) (len : Nat) (src : Except Exception Vec)
    (result : Vec → Vec → Vec) : Host.Outcome State Fault Refusal :=
  if enabled then
    match src with
    | .error e => .next (s.raise e)
    | .ok val => .next (s.complete d (result (s.vreg d) val) len)
  else .next (s.raise .ud)

/-- A legacy SSE form (rules R75, R89): VL = 128, an 8-bit displacement is not scaled. -/
def State.runLegacy (s : State) (enabled : Bool) (c : Conversion) (rex : Bool) (d : VReg) (src : Src) :
    Host.Outcome State Fault Refusal :=
  s.run enabled d (legacyLength rex src) (s.sourceValue c .v128 .none 1 (legacyLength rex src) src)
    fun old val => legacyMerge old (zx c .v128 val)

/-- A VEX form (rules R75, R76): an 8-bit displacement is not scaled. -/
def State.runVex (s : State) (enabled : Bool) (c : Conversion) (vl : VLen) (d : VReg) (src : Src) :
    Host.Outcome State Fault Refusal :=
  s.run enabled d (vexLength src) (s.sourceValue c vl .none 1 (vexLength src) src)
    fun _ val => vexMerge vl (zx c vl val)

/-- An EVEX form (rules R75, R96, R97): an 8-bit displacement is scaled by NB (rule R56). -/
def State.runEvex (s : State) (enabled : Bool) (c : Conversion) (vl : VLen) (m : Masking) (d : VReg) (src : Src) :
    Host.Outcome State Fault Refusal :=
  s.run enabled d (evexLength src) (s.sourceValue c vl m (sourceBytes c vl) (evexLength src) src)
    fun old val => evexMerge c vl (s.maskBit m) (isZeroing m) old (zx c vl val)

end Sys2Proof.Machine
end

