-- ==== Sys2Proof/Machine/Evex.lean ====
section
/-! DEFINITION. The eighteen EVEX forms (43_vpmovzx_evex.md, rules R98 to R103). The byte to word forms need `AVX512BW`, the
others `AVX512F`, and at lengths 128 and 256 every form needs `AVX512VL` as well (rule R123). -/

namespace Sys2Proof.Machine

/-- `VPMOVZXBW xmm1 (k1)(z), xmm2/m64` (EVEX.128), byte to word (rule R98). -/
def execVpmovzxbwEvex128 (m : Masking) (d : VReg) (src : Src) (s : State) : Host.Outcome State Fault Refusal :=
  s.runEvex (s.cfg.features.avx512bw && s.cfg.features.avx512vl) .bw .v128 m d src

/-- `VPMOVZXBD xmm1 (k1)(z), xmm2/m32` (EVEX.128), byte to dword (rule R99). -/
def execVpmovzxbdEvex128 (m : Masking) (d : VReg) (src : Src) (s : State) : Host.Outcome State Fault Refusal :=
  s.runEvex (s.cfg.features.avx512f && s.cfg.features.avx512vl) .bd .v128 m d src

/-- `VPMOVZXBQ xmm1 (k1)(z), xmm2/m16` (EVEX.128), byte to qword (rule R100). -/
def execVpmovzxbqEvex128 (m : Masking) (d : VReg) (src : Src) (s : State) : Host.Outcome State Fault Refusal :=
  s.runEvex (s.cfg.features.avx512f && s.cfg.features.avx512vl) .bq .v128 m d src

/-- `VPMOVZXWD xmm1 (k1)(z), xmm2/m64` (EVEX.128), word to dword (rule R101). -/
def execVpmovzxwdEvex128 (m : Masking) (d : VReg) (src : Src) (s : State) : Host.Outcome State Fault Refusal :=
  s.runEvex (s.cfg.features.avx512f && s.cfg.features.avx512vl) .wd .v128 m d src

/-- `VPMOVZXWQ xmm1 (k1)(z), xmm2/m32` (EVEX.128), word to qword (rule R102). -/
def execVpmovzxwqEvex128 (m : Masking) (d : VReg) (src : Src) (s : State) : Host.Outcome State Fault Refusal :=
  s.runEvex (s.cfg.features.avx512f && s.cfg.features.avx512vl) .wq .v128 m d src

/-- `VPMOVZXDQ xmm1 (k1)(z), xmm2/m64` (EVEX.128), dword to qword (rule R103). -/
def execVpmovzxdqEvex128 (m : Masking) (d : VReg) (src : Src) (s : State) : Host.Outcome State Fault Refusal :=
  s.runEvex (s.cfg.features.avx512f && s.cfg.features.avx512vl) .dq .v128 m d src

/-- `VPMOVZXBW ymm1 (k1)(z), xmm2/m128` (EVEX.256), byte to word (rule R98). -/
def execVpmovzxbwEvex256 (m : Masking) (d : VReg) (src : Src) (s : State) : Host.Outcome State Fault Refusal :=
  s.runEvex (s.cfg.features.avx512bw && s.cfg.features.avx512vl) .bw .v256 m d src

/-- `VPMOVZXBD ymm1 (k1)(z), xmm2/m64` (EVEX.256), byte to dword (rule R99). -/
def execVpmovzxbdEvex256 (m : Masking) (d : VReg) (src : Src) (s : State) : Host.Outcome State Fault Refusal :=
  s.runEvex (s.cfg.features.avx512f && s.cfg.features.avx512vl) .bd .v256 m d src

/-- `VPMOVZXBQ ymm1 (k1)(z), xmm2/m32` (EVEX.256), byte to qword (rule R100). -/
def execVpmovzxbqEvex256 (m : Masking) (d : VReg) (src : Src) (s : State) : Host.Outcome State Fault Refusal :=
  s.runEvex (s.cfg.features.avx512f && s.cfg.features.avx512vl) .bq .v256 m d src

/-- `VPMOVZXWD ymm1 (k1)(z), xmm2/m128` (EVEX.256), word to dword (rule R101). -/
def execVpmovzxwdEvex256 (m : Masking) (d : VReg) (src : Src) (s : State) : Host.Outcome State Fault Refusal :=
  s.runEvex (s.cfg.features.avx512f && s.cfg.features.avx512vl) .wd .v256 m d src

/-- `VPMOVZXWQ ymm1 (k1)(z), xmm2/m64` (EVEX.256), word to qword (rule R102). -/
def execVpmovzxwqEvex256 (m : Masking) (d : VReg) (src : Src) (s : State) : Host.Outcome State Fault Refusal :=
  s.runEvex (s.cfg.features.avx512f && s.cfg.features.avx512vl) .wq .v256 m d src

/-- `VPMOVZXDQ ymm1 (k1)(z), xmm2/m128` (EVEX.256), dword to qword (rule R103). -/
def execVpmovzxdqEvex256 (m : Masking) (d : VReg) (src : Src) (s : State) : Host.Outcome State Fault Refusal :=
  s.runEvex (s.cfg.features.avx512f && s.cfg.features.avx512vl) .dq .v256 m d src

/-- `VPMOVZXBW zmm1 (k1)(z), ymm2/m256` (EVEX.512), byte to word (rule R98). -/
def execVpmovzxbwEvex512 (m : Masking) (d : VReg) (src : Src) (s : State) : Host.Outcome State Fault Refusal :=
  s.runEvex s.cfg.features.avx512bw .bw .v512 m d src

/-- `VPMOVZXBD zmm1 (k1)(z), xmm2/m128` (EVEX.512), byte to dword (rule R99). -/
def execVpmovzxbdEvex512 (m : Masking) (d : VReg) (src : Src) (s : State) : Host.Outcome State Fault Refusal :=
  s.runEvex s.cfg.features.avx512f .bd .v512 m d src

/-- `VPMOVZXBQ zmm1 (k1)(z), xmm2/m64` (EVEX.512), byte to qword (rule R100). -/
def execVpmovzxbqEvex512 (m : Masking) (d : VReg) (src : Src) (s : State) : Host.Outcome State Fault Refusal :=
  s.runEvex s.cfg.features.avx512f .bq .v512 m d src

/-- `VPMOVZXWD zmm1 (k1)(z), ymm2/m256` (EVEX.512), word to dword (rule R101). -/
def execVpmovzxwdEvex512 (m : Masking) (d : VReg) (src : Src) (s : State) : Host.Outcome State Fault Refusal :=
  s.runEvex s.cfg.features.avx512f .wd .v512 m d src

/-- `VPMOVZXWQ zmm1 (k1)(z), xmm2/m128` (EVEX.512), word to qword (rule R102). -/
def execVpmovzxwqEvex512 (m : Masking) (d : VReg) (src : Src) (s : State) : Host.Outcome State Fault Refusal :=
  s.runEvex s.cfg.features.avx512f .wq .v512 m d src

/-- `VPMOVZXDQ zmm1 (k1)(z), ymm2/m256` (EVEX.512), dword to qword (rule R103). -/
def execVpmovzxdqEvex512 (m : Masking) (d : VReg) (src : Src) (s : State) : Host.Outcome State Fault Refusal :=
  s.runEvex s.cfg.features.avx512f .dq .v512 m d src

end Sys2Proof.Machine
end

