-- ==== Sys2Proof/Machine/Legacy.lean ====
section
/-! DEFINITION. The six legacy SSE forms (42_pmovzx_legacy_sse.md, rules R90 to R95). Each needs the feature `SSE4_1`
(rule R123). -/

namespace Sys2Proof.Machine

/-- `PMOVZXBW xmm1, xmm2/m64`, byte to word (rule R90). -/
def execPmovzxbw (rex : Bool) (d : VReg) (src : Src) (s : State) : Host.Outcome State Fault Refusal :=
  s.runLegacy s.cfg.features.sse41 .bw rex d src

/-- `PMOVZXBD xmm1, xmm2/m32`, byte to dword (rule R91). -/
def execPmovzxbd (rex : Bool) (d : VReg) (src : Src) (s : State) : Host.Outcome State Fault Refusal :=
  s.runLegacy s.cfg.features.sse41 .bd rex d src

/-- `PMOVZXBQ xmm1, xmm2/m16`, byte to qword (rule R92). -/
def execPmovzxbq (rex : Bool) (d : VReg) (src : Src) (s : State) : Host.Outcome State Fault Refusal :=
  s.runLegacy s.cfg.features.sse41 .bq rex d src

/-- `PMOVZXWD xmm1, xmm2/m64`, word to dword (rule R93). -/
def execPmovzxwd (rex : Bool) (d : VReg) (src : Src) (s : State) : Host.Outcome State Fault Refusal :=
  s.runLegacy s.cfg.features.sse41 .wd rex d src

/-- `PMOVZXWQ xmm1, xmm2/m32`, word to qword (rule R94). -/
def execPmovzxwq (rex : Bool) (d : VReg) (src : Src) (s : State) : Host.Outcome State Fault Refusal :=
  s.runLegacy s.cfg.features.sse41 .wq rex d src

/-- `PMOVZXDQ xmm1, xmm2/m64`, dword to qword (rule R95). -/
def execPmovzxdq (rex : Bool) (d : VReg) (src : Src) (s : State) : Host.Outcome State Fault Refusal :=
  s.runLegacy s.cfg.features.sse41 .dq rex d src

end Sys2Proof.Machine
end

