-- ==== Sys2Proof/Machine/Vex.lean ====
section
/-! DEFINITION. The twelve VEX forms (41_vpmovzx_vex.md, rules R77 to R88). The VEX.128 forms need the feature `AVX`, the
VEX.256 forms `AVX2` (rule R123). -/

namespace Sys2Proof.Machine

/-- `VPMOVZXBW xmm1, xmm2/m64` (VEX.128), byte to word (rule R83). -/
def execVpmovzxbwVex128 (d : VReg) (src : Src) (s : State) : Host.Outcome State Fault Refusal :=
  s.runVex s.cfg.features.avx .bw .v128 d src

/-- `VPMOVZXBD xmm1, xmm2/m32` (VEX.128), byte to dword (rule R84). -/
def execVpmovzxbdVex128 (d : VReg) (src : Src) (s : State) : Host.Outcome State Fault Refusal :=
  s.runVex s.cfg.features.avx .bd .v128 d src

/-- `VPMOVZXBQ xmm1, xmm2/m16` (VEX.128), byte to qword (rule R85). -/
def execVpmovzxbqVex128 (d : VReg) (src : Src) (s : State) : Host.Outcome State Fault Refusal :=
  s.runVex s.cfg.features.avx .bq .v128 d src

/-- `VPMOVZXWD xmm1, xmm2/m64` (VEX.128), word to dword (rule R86). -/
def execVpmovzxwdVex128 (d : VReg) (src : Src) (s : State) : Host.Outcome State Fault Refusal :=
  s.runVex s.cfg.features.avx .wd .v128 d src

/-- `VPMOVZXWQ xmm1, xmm2/m32` (VEX.128), word to qword (rule R87). -/
def execVpmovzxwqVex128 (d : VReg) (src : Src) (s : State) : Host.Outcome State Fault Refusal :=
  s.runVex s.cfg.features.avx .wq .v128 d src

/-- `VPMOVZXDQ xmm1, xmm2/m64` (VEX.128), dword to qword (rule R88). -/
def execVpmovzxdqVex128 (d : VReg) (src : Src) (s : State) : Host.Outcome State Fault Refusal :=
  s.runVex s.cfg.features.avx .dq .v128 d src

/-- `VPMOVZXBW ymm1, xmm2/m128` (VEX.256), byte to word (rule R77). -/
def execVpmovzxbwVex256 (d : VReg) (src : Src) (s : State) : Host.Outcome State Fault Refusal :=
  s.runVex s.cfg.features.avx2 .bw .v256 d src

/-- `VPMOVZXBD ymm1, xmm2/m64` (VEX.256), byte to dword (rule R78). -/
def execVpmovzxbdVex256 (d : VReg) (src : Src) (s : State) : Host.Outcome State Fault Refusal :=
  s.runVex s.cfg.features.avx2 .bd .v256 d src

/-- `VPMOVZXBQ ymm1, xmm2/m32` (VEX.256), byte to qword (rule R79). -/
def execVpmovzxbqVex256 (d : VReg) (src : Src) (s : State) : Host.Outcome State Fault Refusal :=
  s.runVex s.cfg.features.avx2 .bq .v256 d src

/-- `VPMOVZXWD ymm1, xmm2/m128` (VEX.256), word to dword (rule R80). -/
def execVpmovzxwdVex256 (d : VReg) (src : Src) (s : State) : Host.Outcome State Fault Refusal :=
  s.runVex s.cfg.features.avx2 .wd .v256 d src

/-- `VPMOVZXWQ ymm1, xmm2/m64` (VEX.256), word to qword (rule R81). -/
def execVpmovzxwqVex256 (d : VReg) (src : Src) (s : State) : Host.Outcome State Fault Refusal :=
  s.runVex s.cfg.features.avx2 .wq .v256 d src

/-- `VPMOVZXDQ ymm1, xmm2/m128` (VEX.256), dword to qword (rule R82). -/
def execVpmovzxdqVex256 (d : VReg) (src : Src) (s : State) : Host.Outcome State Fault Refusal :=
  s.runVex s.cfg.features.avx2 .dq .v256 d src

end Sys2Proof.Machine
end

