-- ==== Sys2Proof/Machine/Dispatch.lean ====
section
/-! DEFINITION. The dispatch: one arm per constructor of Instr, each one call of the instruction's own meaning. -/

namespace Sys2Proof.Machine

def exec (i : Instr) (s : State) : Host.Outcome State Fault Refusal :=
  match i with
  | .pmovzxbw rex d src => Sys2Proof.Machine.execPmovzxbw rex d src s
  | .pmovzxbd rex d src => Sys2Proof.Machine.execPmovzxbd rex d src s
  | .pmovzxbq rex d src => Sys2Proof.Machine.execPmovzxbq rex d src s
  | .pmovzxwd rex d src => Sys2Proof.Machine.execPmovzxwd rex d src s
  | .pmovzxwq rex d src => Sys2Proof.Machine.execPmovzxwq rex d src s
  | .pmovzxdq rex d src => Sys2Proof.Machine.execPmovzxdq rex d src s
  | .vpmovzxbwVex128 d src => Sys2Proof.Machine.execVpmovzxbwVex128 d src s
  | .vpmovzxbdVex128 d src => Sys2Proof.Machine.execVpmovzxbdVex128 d src s
  | .vpmovzxbqVex128 d src => Sys2Proof.Machine.execVpmovzxbqVex128 d src s
  | .vpmovzxwdVex128 d src => Sys2Proof.Machine.execVpmovzxwdVex128 d src s
  | .vpmovzxwqVex128 d src => Sys2Proof.Machine.execVpmovzxwqVex128 d src s
  | .vpmovzxdqVex128 d src => Sys2Proof.Machine.execVpmovzxdqVex128 d src s
  | .vpmovzxbwVex256 d src => Sys2Proof.Machine.execVpmovzxbwVex256 d src s
  | .vpmovzxbdVex256 d src => Sys2Proof.Machine.execVpmovzxbdVex256 d src s
  | .vpmovzxbqVex256 d src => Sys2Proof.Machine.execVpmovzxbqVex256 d src s
  | .vpmovzxwdVex256 d src => Sys2Proof.Machine.execVpmovzxwdVex256 d src s
  | .vpmovzxwqVex256 d src => Sys2Proof.Machine.execVpmovzxwqVex256 d src s
  | .vpmovzxdqVex256 d src => Sys2Proof.Machine.execVpmovzxdqVex256 d src s
  | .vpmovzxbwEvex128 m d src => Sys2Proof.Machine.execVpmovzxbwEvex128 m d src s
  | .vpmovzxbdEvex128 m d src => Sys2Proof.Machine.execVpmovzxbdEvex128 m d src s
  | .vpmovzxbqEvex128 m d src => Sys2Proof.Machine.execVpmovzxbqEvex128 m d src s
  | .vpmovzxwdEvex128 m d src => Sys2Proof.Machine.execVpmovzxwdEvex128 m d src s
  | .vpmovzxwqEvex128 m d src => Sys2Proof.Machine.execVpmovzxwqEvex128 m d src s
  | .vpmovzxdqEvex128 m d src => Sys2Proof.Machine.execVpmovzxdqEvex128 m d src s
  | .vpmovzxbwEvex256 m d src => Sys2Proof.Machine.execVpmovzxbwEvex256 m d src s
  | .vpmovzxbdEvex256 m d src => Sys2Proof.Machine.execVpmovzxbdEvex256 m d src s
  | .vpmovzxbqEvex256 m d src => Sys2Proof.Machine.execVpmovzxbqEvex256 m d src s
  | .vpmovzxwdEvex256 m d src => Sys2Proof.Machine.execVpmovzxwdEvex256 m d src s
  | .vpmovzxwqEvex256 m d src => Sys2Proof.Machine.execVpmovzxwqEvex256 m d src s
  | .vpmovzxdqEvex256 m d src => Sys2Proof.Machine.execVpmovzxdqEvex256 m d src s
  | .vpmovzxbwEvex512 m d src => Sys2Proof.Machine.execVpmovzxbwEvex512 m d src s
  | .vpmovzxbdEvex512 m d src => Sys2Proof.Machine.execVpmovzxbdEvex512 m d src s
  | .vpmovzxbqEvex512 m d src => Sys2Proof.Machine.execVpmovzxbqEvex512 m d src s
  | .vpmovzxwdEvex512 m d src => Sys2Proof.Machine.execVpmovzxwdEvex512 m d src s
  | .vpmovzxwqEvex512 m d src => Sys2Proof.Machine.execVpmovzxwqEvex512 m d src s
  | .vpmovzxdqEvex512 m d src => Sys2Proof.Machine.execVpmovzxdqEvex512 m d src s

end Sys2Proof.Machine
end

