-- ==== Sys2Proof/Machine/Step.lean ====
section
/-! DEFINITION. One step of the machine (rules R29, R62, R75, R139). -/

namespace Sys2Proof.Machine

/-- One step: none after a recorded exception (rule R29) or at the end of the run (rule R139); otherwise the decoder's
verdict decides (rules R62, R75). -/
def step (s : State) : Host.Outcome State Fault Refusal :=
  match s.fault with
  | some r => .fault (.exceptionRecorded r)
  | none =>
    if s.pc.toNat = s.textEnd then .fault .runEnded
    else
      match s.verdict with
      | .instr i _ => exec i s
      | .ud => .next (s.raise .ud)
      | .refused r => .refused (.undecoded r)

/-- The start state that has the instruction with bits `w` as its program text at `pc` (notes/assumptions/1.md). -/
def State.withFetchWord (s : State) (nbits w : Nat) : State := s.loadText (tableBytes nbits w)

end Sys2Proof.Machine
end

