-- ==== Sys2Proof/Machine/Enable.lean ====
section
/-! DEFINITION. Where the six Booleans of `Features` come from on the hardware: the refinement rule R23 gives to control
registers and CPUID bits, the values after RESET it is read with (rule R28) and the boot steps of rule R138. None of these
registers is state of the machine (rule R23): `Features` is. -/

namespace Sys2Proof.Machine

/-- The registers and CPUID words rule R23 names. Their widths are PRESUMED, the x86 family's in 64-bit mode: 64 bits for CR0,
CR4 and XCR0, 32 for a CPUID word (notes/assumptions/12.md); the spec gives bit numbers only. -/
structure ControlBits where
  cr0 : BitVec 64
  cr4 : BitVec 64
  xcr0 : BitVec 64
  /-- CPUID.01H:ECX -/
  cpuid1Ecx : BitVec 32
  /-- CPUID.(EAX=07H,ECX=0):EBX -/
  cpuid7Ebx : BitVec 32
deriving DecidableEq, Repr

/-- The state the legacy forms use is enabled: CR0.EM = 0 and CR4.OSFXSR = 1. -/
def ControlBits.legacyEnabled (c : ControlBits) : Bool := !c.cr0.getLsbD 2 && c.cr4.getLsbD 9

/-- The state the VEX forms use is enabled: CR4.OSXSAVE and XCR0 bits 1 and 2. -/
def ControlBits.vexEnabled (c : ControlBits) : Bool := c.cr4.getLsbD 18 && c.xcr0.getLsbD 1 && c.xcr0.getLsbD 2

/-- The state the EVEX forms use is enabled: that of the VEX forms and XCR0 bits 5, 6 and 7. -/
def ControlBits.evexEnabled (c : ControlBits) : Bool :=
  c.vexEnabled && c.xcr0.getLsbD 5 && c.xcr0.getLsbD 6 && c.xcr0.getLsbD 7

/-- `Features`: present by CPUID and enabled by the control bits (rule R23). -/
def ControlBits.features (c : ControlBits) : Features where
  sse41 := c.cpuid1Ecx.getLsbD 19 && c.legacyEnabled
  avx := c.cpuid1Ecx.getLsbD 28 && c.vexEnabled
  avx2 := c.cpuid7Ebx.getLsbD 5 && c.vexEnabled
  avx512f := c.cpuid7Ebx.getLsbD 16 && c.evexEnabled
  avx512bw := c.cpuid7Ebx.getLsbD 30 && c.evexEnabled
  avx512vl := c.cpuid7Ebx.getLsbD 31 && c.evexEnabled

/-- The control registers after power-up or RESET, for the record of rule R28, on a processor with these CPUID words. -/
def ControlBits.powerUp (cpuid1Ecx cpuid7Ebx : BitVec 32) : ControlBits :=
  ⟨0x60000010#64, 0#64, 1#64, cpuid1Ecx, cpuid7Ebx⟩

/-- CR0.TS (bit 3) = 0: the premise of every claim, without which every form raises `#NM` (rules R23, R124). -/
def ControlBits.notTaskSwitched (c : ControlBits) : Bool := !c.cr0.getLsbD 3

/-- Boot step (2) of rule R138: clear CR0.EM, set CR0.MP and CR4.OSFXSR. PRESUMED that CR0.MP is bit 1
(notes/assumptions/12.md); no other definition reads it. -/
def ControlBits.enableLegacy (c : ControlBits) : ControlBits :=
  { c with cr0 := (c.cr0 &&& ~~~(1#64 <<< 2)) ||| 1#64 <<< 1, cr4 := c.cr4 ||| 1#64 <<< 9 }

/-- Boot step (3) of rule R138 for the VEX forms: set CR4.OSXSAVE and XCR0 bits 0, 1, 2. -/
def ControlBits.enableVex (c : ControlBits) : ControlBits :=
  { c with cr4 := c.cr4 ||| 1#64 <<< 18, xcr0 := c.xcr0 ||| 0x7#64 }

/-- Boot step (3) of rule R138 for the EVEX forms: XCR0 bits 5, 6, 7 as well. -/
def ControlBits.enableEvex (c : ControlBits) : ControlBits :=
  { c.enableVex with xcr0 := c.enableVex.xcr0 ||| 0xE0#64 }

end Sys2Proof.Machine
end

