-- ==== Sys2Proof/Machine/Intrinsics.lean ====
section
/-! DEFINITION. The compiler intrinsics of 44_intrinsics.md: the 54 lines as printed (rule R107) with their mnemonics and
names, the instruction forms that can implement each, what each shape of prototype computes (rule R106), and the types the
Operation sections call for (rules R107, R108). No step uses them. -/

namespace Sys2Proof.Machine

/-- The three shapes of a prototype (rule R106): `name(src)`, `name_mask(old, k, src)`, `name_maskz(k, src)`. -/
inductive IntrinsicKind where
  | plain
  | merging
  | zeroing
deriving DecidableEq, Repr

/-- The three encodings that column "form" of rule R107 names. -/
inductive Encoding where
  | legacy
  | vex
  | evex
deriving DecidableEq, Repr

/-- One line of rule R107: its number, whether its mnemonic is printed with V, the conversion and result length its name
encodes (rule R105), its shape, and the widths of the source type and of the mask type as printed. -/
structure IntrinsicLine where
  line : Nat
  hasV : Bool
  conv : Conversion
  vl : VLen
  kind : IntrinsicKind
  srcType : Nat
  maskType : Option Nat
deriving DecidableEq, Repr

/-- The lines with a 512-bit result, lines 1 to 18 of rule R107. -/
def intrinsics512 : List IntrinsicLine :=
  [⟨1, true, .bw, .v512, .plain, 256, none⟩,
   ⟨2, true, .bw, .v512, .merging, 256, some 32⟩,
   ⟨3, true, .bw, .v512, .zeroing, 256, some 32⟩,
   ⟨4, true, .bd, .v512, .plain, 128, none⟩,
   ⟨5, true, .bd, .v512, .merging, 128, some 16⟩,
   ⟨6, true, .bd, .v512, .zeroing, 128, some 16⟩,
   ⟨7, true, .bq, .v512, .plain, 128, none⟩,
   ⟨8, true, .bq, .v512, .merging, 128, some 8⟩,
   ⟨9, true, .bq, .v512, .zeroing, 128, some 8⟩,
   ⟨10, true, .dq, .v512, .plain, 256, none⟩,
   ⟨11, true, .dq, .v512, .merging, 256, some 8⟩,
   ⟨12, true, .dq, .v512, .zeroing, 256, some 8⟩,
   ⟨13, true, .wd, .v512, .plain, 128, none⟩,
   ⟨14, true, .wd, .v512, .merging, 128, some 16⟩,
   ⟨15, true, .wd, .v512, .zeroing, 128, some 16⟩,
   ⟨16, true, .wq, .v512, .plain, 256, none⟩,
   ⟨17, true, .wq, .v512, .merging, 256, some 8⟩,
   ⟨18, true, .wq, .v512, .zeroing, 256, some 8⟩]

/-- The lines with a 256-bit result, lines 19 to 36 of rule R107. -/
def intrinsics256 : List IntrinsicLine :=
  [⟨19, true, .bw, .v256, .plain, 256, none⟩,
   ⟨20, true, .bw, .v256, .merging, 128, some 16⟩,
   ⟨21, true, .bw, .v256, .zeroing, 128, some 16⟩,
   ⟨22, true, .bd, .v256, .plain, 128, none⟩,
   ⟨23, true, .bd, .v256, .merging, 128, some 8⟩,
   ⟨24, true, .bd, .v256, .zeroing, 128, some 8⟩,
   ⟨25, true, .bq, .v256, .plain, 128, none⟩,
   ⟨26, true, .bq, .v256, .merging, 128, some 8⟩,
   ⟨27, true, .bq, .v256, .zeroing, 128, some 8⟩,
   ⟨28, true, .dq, .v256, .plain, 128, none⟩,
   ⟨29, true, .dq, .v256, .merging, 128, some 8⟩,
   ⟨30, true, .dq, .v256, .zeroing, 128, some 8⟩,
   ⟨31, true, .wd, .v256, .plain, 128, none⟩,
   ⟨32, true, .wd, .v256, .merging, 128, some 16⟩,
   ⟨33, true, .wd, .v256, .zeroing, 128, some 16⟩,
   ⟨34, true, .wq, .v256, .plain, 128, none⟩,
   ⟨35, true, .wq, .v256, .merging, 128, some 8⟩,
   ⟨36, true, .wq, .v256, .zeroing, 128, some 8⟩]

/-- The lines with a 128-bit result, lines 37 to 54 of rule R107. -/
def intrinsics128 : List IntrinsicLine :=
  [⟨37, true, .bw, .v128, .merging, 128, some 8⟩,
   ⟨38, true, .bw, .v128, .zeroing, 128, some 8⟩,
   ⟨39, true, .bd, .v128, .merging, 128, some 8⟩,
   ⟨40, true, .bd, .v128, .zeroing, 128, some 8⟩,
   ⟨41, true, .bq, .v128, .merging, 128, some 8⟩,
   ⟨42, true, .bq, .v128, .zeroing, 128, some 8⟩,
   ⟨43, true, .dq, .v128, .merging, 128, some 8⟩,
   ⟨44, true, .dq, .v128, .zeroing, 128, some 8⟩,
   ⟨45, true, .wd, .v128, .merging, 128, some 16⟩,
   ⟨46, true, .wd, .v128, .zeroing, 128, some 8⟩,
   ⟨47, true, .wq, .v128, .merging, 128, some 8⟩,
   ⟨48, true, .wq, .v128, .zeroing, 128, some 8⟩,
   ⟨49, false, .bw, .v128, .plain, 128, none⟩,
   ⟨50, false, .bd, .v128, .plain, 128, none⟩,
   ⟨51, false, .bq, .v128, .plain, 128, none⟩,
   ⟨52, false, .wd, .v128, .plain, 128, none⟩,
   ⟨53, false, .wq, .v128, .plain, 128, none⟩,
   ⟨54, false, .dq, .v128, .plain, 128, none⟩]

/-- The 54 lines in the source's order (rule R107). -/
def intrinsicLines : List IntrinsicLine := intrinsics512 ++ intrinsics256 ++ intrinsics128

/-! ## Mnemonic, name and form of a line (rules R105, R107) -/

/-- The mnemonic the line is printed with; lines 49 to 54 have no V (rules R107, R109). -/
def IntrinsicLine.mnemonic (l : IntrinsicLine) : String := (if l.hasV then "VPMOVZX" else "PMOVZX") ++ l.conv.suffix

/-- The part of a name that says the result's length (rule R105). -/
def VLen.namePrefix : VLen → String
  | .v128 => "_mm_"
  | .v256 => "_mm256_"
  | .v512 => "_mm512_"

/-- The part of a name that says the shape (rule R105). -/
def IntrinsicKind.nameInfix : IntrinsicKind → String
  | .plain => ""
  | .merging => "mask_"
  | .zeroing => "maskz_"

/-- The function's name (rule R105), without the stray space of lines 49 to 54 (rule R107). -/
def IntrinsicLine.name (l : IntrinsicLine) : String :=
  VLen.namePrefix l.vl ++ l.kind.nameInfix ++ "cvtepu" ++ toString l.conv.srcw ++ "_epi" ++ toString l.conv.dstw

/-- The shape of prototype a writemask belongs to: none, merging or zeroing (rule R106). -/
def maskingKind : Masking → IntrinsicKind
  | .none => .plain
  | .merging _ => .merging
  | .zeroing _ => .zeroing

/-- The encodings that can implement a line (rule R107, column "form"): EVEX alone for a masked line and at 512 bits; VEX
or EVEX at 256; legacy, VEX or EVEX at 128. That lines 50 to 54, which print "legacy" alone, are short for line 49 is
DEDUCED (notes/assumptions/17.md). -/
def IntrinsicLine.encodings (l : IntrinsicLine) : List Encoding :=
  match l.kind, l.vl with
  | .plain, .v128 => [.legacy, .vex, .evex]
  | .plain, .v256 => [.vex, .evex]
  | .plain, .v512 => [.evex]
  | .merging, _ => [.evex]
  | .zeroing, _ => [.evex]

/-- The instruction is of a form the line belongs to (rule R107, column "form"). -/
def IntrinsicLine.implementedBy (l : IntrinsicLine) (i : Instr) : Bool :=
  match i.shape with
  | .legacy c _ _ _ => l.encodings.contains .legacy && c == l.conv && l.vl == .v128
  | .vex c wide _ _ => l.encodings.contains .vex && c == l.conv && l.vl == if wide then .v256 else .v128
  | .evex c vl m _ _ => l.encodings.contains .evex && c == l.conv && l.vl == vl && l.kind == maskingKind m

/-! ## Types and values (rules R106 to R108) -/

/-- The smallest of 128, 256 that holds `NSRC` bits (rule R107). -/
def sourceTypeFor (c : Conversion) (vl : VLen) : Nat := if 8 * sourceBytes c vl ≤ 128 then 128 else 256

/-- The smallest of 8, 16, 32 that holds `KL` bits (rule R107). -/
def maskTypeFor (c : Conversion) (vl : VLen) : Nat :=
  if elements c vl ≤ 8 then 8 else if elements c vl ≤ 16 then 16 else 32

/-- The column "check" of rule R107: the printed types are those the Operation section calls for. -/
def IntrinsicLine.typesOk (l : IntrinsicLine) : Bool :=
  l.srcType == sourceTypeFor l.conv l.vl &&
    match l.maskType with
    | none => true
    | some m => m == maskTypeFor l.conv l.vl

/-- The C value of an intrinsic in the low VL bits (rule R106): `old` matters to the merging shape only, `k` to the two
masked ones. -/
def intrinsicValue (kind : IntrinsicKind) (c : Conversion) (vl : VLen) (old : Vec) (k : KMask) (src : Vec) : Vec :=
  match kind with
  | .plain => zx c vl src
  | .merging =>
    pack c.dstw (fun j => if k.getLsbD j then elem c.dstw (zx c vl src) j else elem c.dstw old j) (elements c vl)
  | .zeroing => pack c.dstw (fun j => if k.getLsbD j then elem c.dstw (zx c vl src) j else 0) (elements c vl)

end Sys2Proof.Machine
end

