-- ==== Sys2Proof/Safety.lean ====
section
/-! DEFINITION. What counts as a safe run and the terms claims are written in: the ends of a run (rule R139), the invariant
of every step, the tables and formulas of the spec that claims hold the machine against, and the shape of a rule that
says what a form does. -/

namespace Sys2Proof.Machine

/-! ## Runs (rules R137, R139) -/

/-- A start state: no fault, and `BASE <= pc <= END` (rule R137). -/
def State.IsStart (s : State) : Prop :=
  s.fault = none ∧ s.cfg.base.toNat ≤ s.pc.toNat ∧ s.pc.toNat ≤ s.textEnd

/-- The run has ended normally (rule R139). -/
def State.EndedNormally (s : State) : Prop := s.fault = none ∧ s.pc.toNat = s.textEnd

/-- The machine has a next state. -/
def Steps (o : Host.Outcome State Fault Refusal) : Prop := ∃ t, o = .next t

/-- The exception `e` is taken and nothing else happens (rule R130). -/
def Raises (s : State) (e : Exception) (o : Host.Outcome State Fault Refusal) : Prop :=
  o = .next { s with fault := some ⟨e, s.pc⟩ }

/-- Two executions answer next states that differ in `pc` alone: the same effect by instructions of different lengths. -/
def SameButPc (o o' : Host.Outcome State Fault Refusal) : Prop :=
  ∃ t t', o = .next t ∧ o' = .next t' ∧ t' = { t with pc := t'.pc }

/-- The invariant of every step: memory is in canonical form, `BASE <= pc <= END` with `END` a 64-bit address, and a fault
record names the `pc` the machine stands at (rules R20, R24, R130). -/
structure State.Inv (s : State) : Prop where
  mem : s.mem.wf = true
  textFits : s.textEnd < 2 ^ 64
  pcLow : s.cfg.base.toNat ≤ s.pc.toNat
  pcHigh : s.pc.toNat ≤ s.textEnd
  recordedPc : ∀ r, s.fault = some r → r.pc = s.pc

/-- Everything but the destination register, `pc` and the fault record is as before: the frame of rule R26. Memory is
compared byte by byte through its read. -/
structure SameBut (s t : State) (d : VReg) : Prop where
  vregs : ∀ r, r ≠ d → t.vreg r = s.vreg r
  kregs : ∀ r, t.kreg r = s.kreg r
  gregs : ∀ r, t.greg r = s.greg r
  mem : ∀ a, t.mem.read a = s.mem.read a
  cfg : t.cfg = s.cfg

end Sys2Proof.Machine

namespace Sys2Proof

/-! ## Tables of the spec, by format -/

/-- The conversion of a form (rule R51). -/
def Shape.conv : Shape → Conversion
  | .legacy c _ _ _ => c
  | .vex c _ _ _ => c
  | .evex c _ _ _ _ => c

/-- The vector length of a form (rule R60). -/
def Shape.vlen : Shape → VLen
  | .legacy _ _ _ _ => .v128
  | .vex _ wide _ _ => if wide then .v256 else .v128
  | .evex _ vl _ _ _ => vl

/-- The writemask of a form; legacy and VEX forms have none (rules R76, R89). -/
def Shape.masking : Shape → Masking
  | .legacy _ _ _ _ => .none
  | .vex _ _ _ _ => .none
  | .evex _ _ m _ _ => m

/-- The factor N of an 8-bit displacement (rules R55, R56). -/
def Shape.dispScale : Shape → Nat
  | .legacy _ _ _ _ => 1
  | .vex _ _ _ _ => 1
  | .evex c vl _ _ _ => sourceBytes c vl

/-- The table of rule R123: the feature a form needs. -/
def Shape.requires (f : Features) : Shape → Bool
  | .legacy _ _ _ _ => f.sse41
  | .vex _ wide _ _ => if wide then f.avx2 else f.avx
  | .evex .bw .v512 _ _ _ => f.avx512bw
  | .evex .bw _ _ _ _ => f.avx512bw && f.avx512vl
  | .evex _ .v512 _ _ _ => f.avx512f
  | .evex _ _ _ _ _ => f.avx512f && f.avx512vl

/-- The same form with another source operand. -/
def Shape.withSrc (s : Shape) (src : Src) : Shape :=
  match s with
  | .legacy c rex d _ => .legacy c rex d src
  | .vex c wide d _ => .vex c wide d src
  | .evex c vl m d _ => .evex c vl m d src

/-- The address recipe has an 8-bit displacement (rule R52). -/
def MemOp.hasDisp8 : MemOp → Bool
  | .base _ (.disp8 _) => true
  | .sib _ _ (.disp8 _) => true
  | .base _ _ => false
  | .sib _ _ _ => false
  | .ripRel _ => false
  | .sibNoBase _ _ => false

/-- An 8-bit displacement `d` multiplied by `n` (rule R55), as a 32-bit displacement. -/
def scaledDisp32 (n : Nat) (d : BitVec 8) : Disp := .disp32 (d.signExtend 32 * BitVec.ofNat 32 n)

/-- `op'` is `op` with its 8-bit displacement `d` replaced by the 32-bit displacement `d * n`. -/
def WidensDisp8 (n : Nat) (op op' : MemOp) : Prop :=
  (∃ b d, op = .base b (.disp8 d) ∧ op' = .base b (scaledDisp32 n d)) ∨
  ∃ b i d, op = .sib b i (.disp8 d) ∧ op' = .sib b i (scaledDisp32 n d)

/-! ## Byte strings of the family (rules R61, R62) -/

/-- What follows prefix run and REX begins as a form of the family: the first column of rule R61's table. -/
def FamilyTail (bs : List Byte) : Prop :=
  (∃ op rest, bs = 0x0F#8 :: 0x38#8 :: op :: rest ∧ (conversionOf op).isSome) ∨
  (∃ v1 v2 op rest, bs = 0xC4#8 :: v1 :: v2 :: op :: rest ∧ (conversionOf op).isSome ∧
    bits v1 0 5 = 2#5 ∧ bits v2 0 2 = 1#2) ∨
  (∃ p0 p1 p2 op rest, bs = 0x62#8 :: p0 :: p1 :: p2 :: op :: rest ∧ (conversionOf op).isSome ∧
    bits p0 0 4 = 2#4 ∧ bit p1 2 = true ∧ bits p1 0 2 = 1#2)

/-- No byte of `bs` belongs to the prefix run or is the REX byte: what `rest` begins with when there is no REX (rule R61). -/
def StartsRest : List Byte → Prop
  | [] => True
  | b :: _ => isLegacyPrefix b = false ∧ isRex b = false

/-- `S` of rule R63: 1 if a SIB byte is present. -/
def Src.sibCount : Src → Nat
  | .reg _ => 0
  | .mem (.ripRel _) => 0
  | .mem (.base _ _) => 0
  | .mem (.sib _ _ _) => 1
  | .mem (.sibNoBase _ _) => 1

/-- `D` of rule R63: the displacement size of rule R52. -/
def Src.dispCount : Src → Nat
  | .reg _ => 0
  | .mem (.ripRel _) => 4
  | .mem (.base _ d) => d.length
  | .mem (.sib _ _ d) => d.length
  | .mem (.sibNoBase _ _) => 4

/-- `P` of rule R63, the prefix-and-escape length. -/
def Shape.prefixCount : Shape → Nat
  | .legacy _ rex _ _ => if rex then 4 else 3
  | .vex _ _ _ _ => 3
  | .evex _ _ _ _ _ => 4

/-- The ModRM byte asks for a SIB byte (rule R52). -/
def hasSib (modrm : Byte) : Bool := bits modrm 6 2 != 3#2 && bits modrm 0 3 == 4#3

namespace Machine

/-- The state with the parameter `FaultSuppression` set (rule R38). -/
def State.withSuppression (s : State) (b : Bool) : State := { s with cfg := { s.cfg with faultSuppression := b } }

/-- The state with other opmask registers. -/
def State.withMasks (s : State) (k : Vector KMask 8) : State := { s with k := k }

/-- The state with another memory and another set of accessible addresses. -/
def State.withMemory (s : State) (m : Memory) (acc : List Region) : State :=
  { s with mem := m, cfg := { s.cfg with accessible := acc } }

/-! ## The source operand as the rules speak of it -/

/-- The offset `i` from the effective address is one of the bytes `B` that are checked (rules R34, R38, R126): below `NB`,
and, with `FaultSuppression` and a writemask, in an element whose mask bit is 1. -/
def State.Counted (s : State) (srcw nb : Nat) (m : Masking) (i : Nat) : Prop :=
  i < nb ∧ (s.cfg.faultSuppression = true → s.maskBit m (i / (srcw / 8)) = true)

/-- Every checked byte passes the check of rule R40, and the operand does not pass 2^64 (rules R33, R126). -/
def State.Readable (s : State) (srcw nb : Nat) (m : Masking) (ea : Addr) : Prop :=
  ∀ i, s.Counted srcw nb m i →
    ea.toNat + nb ≤ 2 ^ 64 ∧ canonical (ea + BitVec.ofNat 64 i) = true ∧
      s.accessible (ea + BitVec.ofNat 64 i) = true

/-- `S` is a value of the source operand (rule R74): the register's, or one whose byte `i` is the byte at `ea + i` for every
byte that is read (rules R32, R33), all of them readable. `n` scales an 8-bit displacement, `len` is the length. -/
def State.SourceIs (s : State) (srcw nb : Nat) (m : Masking) (n len : Nat) (src : Src) (S : Vec) : Prop :=
  match src with
  | .reg r => S = s.vreg r
  | .mem op =>
    s.Readable srcw nb m (s.effectiveAddress n (s.pc + BitVec.ofNat 64 len) op) ∧
    ∀ i, s.Counted srcw nb m i →
      S.extractLsb' (8 * i) 8 =
        s.mem.read (s.effectiveAddress n (s.pc + BitVec.ofNat 64 len) op + BitVec.ofNat 64 i).toNat

/-- An 8-bit displacement byte, sign-extended and scaled by `n` (rules R55, R56). -/
def rawDisp8 (n : Nat) : List Byte → Option Addr
  | d :: _ => some (d.signExtend 64 * BitVec.ofNat 64 n)
  | [] => none

/-- Four displacement bytes, little-endian and sign-extended (rule R55). -/
def rawDisp32 : List Byte → Option Addr
  | d0 :: d1 :: d2 :: d3 :: _ => some ((d3 ++ d2 ++ d1 ++ d0 : BitVec 32).signExtend 64)
  | _ => none

/-- The displacement of `mod` 00b, 01b or 10b (rule R52). -/
def rawDisp (n : Nat) (mod : BitVec 2) (bs : List Byte) : Option Addr :=
  if mod = 0#2 then some 0 else if mod = 1#2 then rawDisp8 n bs else rawDisp32 bs

/-- The general register whose number has high bit `h` and low bits `lo` (rule R54). -/
def State.rawReg (s : State) (h : Bool) (lo : BitVec 3) : Addr := s.x.toList.getD (8 * h.toNat + lo.toNat) 0

/-- `index * scale` of a SIB byte; no index for X:index = 0100b (rule R53). -/
def State.rawIndex (s : State) (x : Bool) (sib : Byte) : Addr :=
  if x = false ∧ bits sib 3 3 = 4#3 then 0
  else s.rawReg x (bits sib 3 3) * BitVec.ofNat 64 (2 ^ (bits sib 6 2).toNat)

/-- The effective address of rule R55 computed from the raw fields: `mod`, `rm`, the extension bits X and B, and the bytes
after ModRM. `none` when the bytes run out. -/
def State.rawAddress (s : State) (n : Nat) (next : Addr) (mod : BitVec 2) (rm : BitVec 3) (x b : Bool)
    (bs : List Byte) : Option Addr :=
  if rm = 4#3 then
    match bs with
    | [] => none
    | sib :: rest =>
      if mod = 0#2 ∧ bits sib 0 3 = 5#3 then (rawDisp32 rest).map fun d => s.rawIndex x sib + d
      else (rawDisp n mod rest).map fun d => s.rawReg b (bits sib 0 3) + s.rawIndex x sib + d
  else if mod = 0#2 ∧ rm = 5#3 then (rawDisp32 bs).map fun d => next + d
  else (rawDisp n mod bs).map fun d => s.rawReg b rm + d

/-! ## What a rule says of a form -/

/-- Element `j` of the result is source element `j`, zero-extended. -/
def ElementConverted (srcw dstw : Nat) (S out : Vec) (j : Nat) : Prop :=
  out.extractLsb' (j * dstw) dstw = (S.extractLsb' (j * srcw) srcw).setWidth dstw

/-- Rules R89 to R95 for one legacy form with opcode byte `op`: its bytes, and that it completes, with the elements
converted, bits 511:128 of the destination kept, `pc` advanced and nothing else changed. -/
def LegacyRule (form : Bool → VReg → Src → Instr) (op : Byte) (srcw dstw kl nb : Nat) : Prop :=
  (∀ rex d src, ∃ r modrm tail, isRex r = true ∧
    encode (form rex d src) = 0x66#8 :: ((if rex then [r] else []) ++ 0x0F#8 :: 0x38#8 :: op :: modrm :: tail)) ∧
  ∀ rex d src s S, s.cfg.features.sse41 = true → s.SourceIs srcw nb .none 1 (legacyLength rex src) src S →
    ∃ t, exec (form rex d src) s = .next t ∧
      (∀ j, j < kl → ElementConverted srcw dstw S (t.vreg d) j) ∧
      (t.vreg d).extractLsb' 128 384 = (s.vreg d).extractLsb' 128 384 ∧
      t.pc = s.pc + BitVec.ofNat 64 (legacyLength rex src) ∧ t.fault = s.fault ∧ SameBut s t d

/-- Rules R76 to R88 for one VEX form with opcode byte `op` and length bit `wide`: its bytes, and that it completes, with the
elements converted, the bits from `vl` up zeroed, `pc` advanced and nothing else changed. -/
def VexRule (form : VReg → Src → Instr) (op : Byte) (wide : Bool) (enabled : Features → Bool)
    (srcw dstw kl nb vl : Nat) : Prop :=
  (∀ d src, ∃ v1 v2 modrm tail, encode (form d src) = 0xC4#8 :: v1 :: v2 :: op :: modrm :: tail ∧
    bits v1 0 5 = 2#5 ∧ bits v2 3 4 = 15#4 ∧ bit v2 2 = wide ∧ bits v2 0 2 = 1#2) ∧
  ∀ d src s S, enabled s.cfg.features = true → s.SourceIs srcw nb .none 1 (vexLength src) src S →
    ∃ t, exec (form d src) s = .next t ∧
      (∀ j, j < kl → ElementConverted srcw dstw S (t.vreg d) j) ∧
      (∀ i, vl ≤ i → (t.vreg d).getLsbD i = false) ∧
      t.pc = s.pc + BitVec.ofNat 64 (vexLength src) ∧ t.fault = s.fault ∧ SameBut s t d

/-- Element `j` of the destination after an EVEX form (rule R96). -/
def ElementMasked (srcw dstw : Nat) (s : State) (m : Masking) (S old out : Vec) (j : Nat) : Prop :=
  match m with
  | .none => ElementConverted srcw dstw S out j
  | .merging k =>
    if (s.kreg k).getLsbD j then ElementConverted srcw dstw S out j
    else out.extractLsb' (j * dstw) dstw = old.extractLsb' (j * dstw) dstw
  | .zeroing k =>
    if (s.kreg k).getLsbD j then ElementConverted srcw dstw S out j else out.extractLsb' (j * dstw) dstw = 0

/-- The bytes of an instruction with bit 7 of the third byte set: `EVEX.W = 1` (rule R49). -/
def setEvexW (bs : List Byte) : List Byte := bs.modify 2 (· ||| 0x80#8)

/-- Rules R96 to R103 for one EVEX form with opcode byte `op` and length field `ll`: its bytes, what `EVEX.W = 1` makes of
them, and that it completes, with each element converted, kept or zeroed as the writemask says, the bits from `vl` up
zeroed, `pc` advanced and nothing else changed. -/
def EvexRule (form : Masking → VReg → Src → Instr) (op : Byte) (ll : BitVec 2) (wIgnored : Bool)
    (enabled : Features → Bool) (srcw dstw kl nb vl : Nat) : Prop :=
  (∀ m d src, ∃ p0 p1 p2 modrm tail, encode (form m d src) = 0x62#8 :: p0 :: p1 :: p2 :: op :: modrm :: tail ∧
    bits p0 0 4 = 2#4 ∧ bits p1 3 4 = 15#4 ∧ bits p1 0 3 = 5#3 ∧ bits p2 5 2 = ll ∧ bits p2 3 2 = 1#2 ∧
    bit p2 7 = isZeroing m ∧
    bits p2 0 3 = (match m with | .none => 0 | .merging k => BitVec.ofFin k | .zeroing k => BitVec.ofFin k)) ∧
  (∀ m d src rest, (form m d src).wf = true →
    decode (setEvexW (encode (form m d src)) ++ rest) = if wIgnored then .instr (form m d src) rest else .ud) ∧
  ∀ m d src s S, enabled s.cfg.features = true → s.SourceIs srcw nb m nb (evexLength src) src S →
    ∃ t, exec (form m d src) s = .next t ∧
      (∀ j, j < kl → ElementMasked srcw dstw s m S (s.vreg d) (t.vreg d) j) ∧
      (∀ i, vl ≤ i → (t.vreg d).getLsbD i = false) ∧
      t.pc = s.pc + BitVec.ofNat 64 (evexLength src) ∧ t.fault = s.fault ∧ SameBut s t d

end Machine

end Sys2Proof
end

