-- ==== Sys2Proof/Certificates/Slice0/Obligations.lean ====
section
/-! DEFINITION. The statements for the provers. Each docstring names the rule of spec/ it formalises. -/

open Sys2Proof Sys2Proof.Machine

/-! ## Encoding -/

/-- Decoding the bytes of a well-formed instruction, whatever follows them, gives the instruction back. -/
def Obligations.DecodeOfEncodeIsTheInstruction : Prop :=
  ∀ (i : Instr) (rest : List Byte), i.wf = true → decode (encode i ++ rest) = .instr i rest

/-- What the decoder answers is well formed and as long as the bytes it consumed. -/
def Obligations.DecodedInstructionIsWellFormed : Prop :=
  ∀ (bs : List Byte) (i : Instr) (rest : List Byte), decode bs = .instr i rest →
    i.wf = true ∧ ∃ used, bs = used ++ rest ∧ used.length = i.length

/-- Rule R63: `len = P + 1 + 1 + S + D`; register-source lengths; the longest accepted instructions have 11 bytes. -/
def Obligations.EncodedLengthIsTheSumOfItsParts : Prop :=
  (∀ i : Instr,
    (encode i).length = i.shape.prefixCount + 1 + 1 + i.shape.src.sibCount + i.shape.src.dispCount ∧
    i.length = (encode i).length ∧ 5 ≤ i.length ∧ i.length ≤ 11 ∧
    (∀ r, i.shape.src = .reg r →
      match i.shape with
      | .legacy _ rex _ _ => i.length = if rex then 6 else 5
      | .vex _ _ _ _ => i.length = 5
      | .evex _ _ _ _ _ => i.length = 6)) ∧
  (∃ c d s, (Shape.legacy c true d s).wf = true ∧ (Shape.legacy c true d s).encode.length = 11 ∧ s.sibCount = 1 ∧
    s.dispCount = 4) ∧
  (∃ c vl m d s, (Shape.evex c vl m d s).wf = true ∧ (Shape.evex c vl m d s).encode.length = 11 ∧ s.sibCount = 1 ∧
    s.dispCount = 4)

/-- A few encodings of rules R47 to R49, written out bit by bit (the register numbers inverted as those rules say). -/
def Obligations.WordsOfTheThreeFormatsDecode : Prop :=
  -- 66 0F 38 30, mod 11, reg 001, rm 010
  decode [0x66#8, 0x0F#8, 0x38#8, 0x30#8, 0b11001010#8] = .instr (.pmovzxbw false 1 (.reg 2)) [] ∧
  -- C4, R X B = 111 and 00010, W 0 vvvv 1111 L 1 pp 01, opcode 33h
  decode [0xC4#8, 0b11100010#8, 0b01111101#8, 0x33#8, 0b11001010#8] = .instr (.vpmovzxwdVex256 1 (.reg 2)) [] ∧
  -- 62, R X B R' = 1001 and 0010, W 0 1111 1 01, z 1 LL 10 b 0 V' 1 aaa 001, opcode 35h: source 2 + 8 + 16
  decode [0x62#8, 0b10010010#8, 0b01111101#8, 0b11001001#8, 0x35#8, 0b11001010#8] =
    .instr (.vpmovzxdqEvex512 (.zeroing 1) 1 (.reg 26)) []

/-- Rule R51: the opcode byte selects the conversion, identically in the three formats, with its element widths; each
conversion has a form in each of the six encodings. -/
def Obligations.OpcodeSelectsTheConversion : Prop :=
  (conversionOf 0x30 = some .bw ∧ Conversion.bw.srcw = 8 ∧ Conversion.bw.dstw = 16) ∧
  (conversionOf 0x31 = some .bd ∧ Conversion.bd.srcw = 8 ∧ Conversion.bd.dstw = 32) ∧
  (conversionOf 0x32 = some .bq ∧ Conversion.bq.srcw = 8 ∧ Conversion.bq.dstw = 64) ∧
  (conversionOf 0x33 = some .wd ∧ Conversion.wd.srcw = 16 ∧ Conversion.wd.dstw = 32) ∧
  (conversionOf 0x34 = some .wq ∧ Conversion.wq.srcw = 16 ∧ Conversion.wq.dstw = 64) ∧
  (conversionOf 0x35 = some .dq ∧ Conversion.dq.srcw = 32 ∧ Conversion.dq.dstw = 64) ∧
  (∀ op : Byte, op < 0x30 ∨ 0x35 < op → conversionOf op = none) ∧
  (∀ op rest i rest', decode (0x66#8 :: 0x0F#8 :: 0x38#8 :: op :: rest) = .instr i rest' →
    conversionOf op = some i.shape.conv) ∧
  (∀ rex op rest i rest', isRex rex = true →
    decode (0x66#8 :: rex :: 0x0F#8 :: 0x38#8 :: op :: rest) = .instr i rest' → conversionOf op = some i.shape.conv) ∧
  (∀ v1 v2 op rest i rest', decode (0xC4#8 :: v1 :: v2 :: op :: rest) = .instr i rest' →
    conversionOf op = some i.shape.conv) ∧
  (∀ p0 p1 p2 op rest i rest', decode (0x62#8 :: p0 :: p1 :: p2 :: op :: rest) = .instr i rest' →
    conversionOf op = some i.shape.conv) ∧
  (∀ (c : Conversion) (d : VReg) (src : Src),
    (∀ rex, ∃ i : Instr, i.shape = .legacy c rex d src) ∧ (∀ wide, ∃ i : Instr, i.shape = .vex c wide d src) ∧
    ∀ vl m, ∃ i : Instr, i.shape = .evex c vl m d src)

/-- Rules R57 and R121: a VEX or EVEX form whose stored `vvvv` is not 1111b raises `#UD`, whatever its other fields are, and
writes nothing. -/
def Obligations.VvvvNotAllOnesRaisesUd : Prop :=
  (∀ (s : State) (v1 v2 op : Byte) (rest : List Byte), s.fault = none → s.pcInText = true →
    s.fetch = 0xC4#8 :: v1 :: v2 :: op :: rest → (conversionOf op).isSome → bits v1 0 5 = 2#5 → bits v2 0 2 = 1#2 →
    (readOperands (vexExt v1) rest).isSome → bits v2 3 4 ≠ 15#4 → Raises s .ud (step s)) ∧
  (∀ (s : State) (p0 p1 p2 op : Byte) (rest : List Byte), s.fault = none → s.pcInText = true →
    s.fetch = 0x62#8 :: p0 :: p1 :: p2 :: op :: rest → (conversionOf op).isSome → bits p0 0 4 = 2#4 →
    bit p1 2 = true → bits p1 0 2 = 1#2 → (readOperands (evexExt p0) rest).isSome → bits p1 3 4 ≠ 15#4 →
    Raises s .ud (step s))

/-- Rule R58 with the `#UD` cases of rules R57, R59 and R60: an EVEX form of the family is `#UD` exactly when one of its
reserved fields is out of order, and refused when it uses a field of later extensions; a VEX3 form has no reserved
field but `vvvv`. -/
def Obligations.ReservedFieldsDecideTheVerdict : Prop :=
  (∀ (p0 p1 p2 op : Byte) (rest : List Byte), (conversionOf op).isSome → bits p0 0 2 = 2#2 → bits p1 0 2 = 1#2 →
    (bits p0 2 2 ≠ 0#2 ∨ bit p1 2 = false → ∃ r, decode (0x62#8 :: p0 :: p1 :: p2 :: op :: rest) = .refused r) ∧
    (bits p0 2 2 = 0#2 → bit p1 2 = true → (readOperands (evexExt p0) rest).isSome →
      (decode (0x62#8 :: p0 :: p1 :: p2 :: op :: rest) = .ud ↔
        bits p1 3 4 ≠ 15#4 ∨ (op = 0x35#8 ∧ bit p1 7 = true) ∨ bits p2 5 2 = 3#2 ∨ bit p2 3 = false ∨
          bit p2 4 = true ∨ (bit p2 7 = true ∧ bits p2 0 3 = 0#3)) ∧
      ∀ r, decode (0x62#8 :: p0 :: p1 :: p2 :: op :: rest) ≠ .refused r)) ∧
  (∀ (v1 v2 op : Byte) (rest : List Byte), (conversionOf op).isSome → bits v1 0 5 = 2#5 → bits v2 0 2 = 1#2 →
    (readOperands (vexExt v1) rest).isSome →
      (decode (0xC4#8 :: v1 :: v2 :: op :: rest) = .ud ↔ bits v2 3 4 ≠ 15#4) ∧
      ∀ r, decode (0xC4#8 :: v1 :: v2 :: op :: rest) ≠ .refused r)

/-- Rule R59: either value of an ignored bit encodes the same instruction; `EVEX.W = 1` on opcode 35h is `#UD`. -/
def Obligations.IgnoredBitsEncodeTheSameInstruction : Prop :=
  (∀ rex op rest, isRex rex = true →
    decode (0x66#8 :: (rex ^^^ 8#8) :: 0x0F#8 :: 0x38#8 :: op :: rest) =
      decode (0x66#8 :: rex :: 0x0F#8 :: 0x38#8 :: op :: rest)) ∧
  (∀ v1 v2 op rest, decode (0xC4#8 :: v1 :: (v2 ^^^ 0x80#8) :: op :: rest) = decode (0xC4#8 :: v1 :: v2 :: op :: rest)) ∧
  (∀ p0 p1 p2 op rest, op ≠ 0x35#8 →
    decode (0x62#8 :: p0 :: (p1 ^^^ 0x80#8) :: p2 :: op :: rest) = decode (0x62#8 :: p0 :: p1 :: p2 :: op :: rest)) ∧
  (∀ p0 p1 p2 rest, bits p0 0 4 = 2#4 → bits p1 0 3 = 5#3 → (readOperands (evexExt p0) rest).isSome →
    bit p1 7 = true → decode (0x62#8 :: p0 :: p1 :: p2 :: 0x35#8 :: rest) = .ud) ∧
  (∀ rex op modrm rest, isRex rex = true → hasSib modrm = false →
    decode (0x66#8 :: (rex ^^^ 2#8) :: 0x0F#8 :: 0x38#8 :: op :: modrm :: rest) =
      decode (0x66#8 :: rex :: 0x0F#8 :: 0x38#8 :: op :: modrm :: rest)) ∧
  (∀ v1 v2 op modrm rest, hasSib modrm = false →
    decode (0xC4#8 :: (v1 ^^^ 0x40#8) :: v2 :: op :: modrm :: rest) =
      decode (0xC4#8 :: v1 :: v2 :: op :: modrm :: rest)) ∧
  (∀ p0 p1 p2 op modrm rest, hasSib modrm = false → bits modrm 6 2 ≠ 3#2 →
    decode (0x62#8 :: (p0 ^^^ 0x40#8) :: p1 :: p2 :: op :: modrm :: rest) =
      decode (0x62#8 :: p0 :: p1 :: p2 :: op :: modrm :: rest))

/-- Rule R60: the vector length each encoding selects, `L'L = 11b`, and the tuples `KL = VL / dstw`. -/
def Obligations.VectorLengthIsSelectedByTheEncoding : Prop :=
  (∀ bs i rest, decode (0x66#8 :: bs) = .instr i rest → i.shape.vlen.bits = 128) ∧
  (∀ v1 v2 bs i rest, decode (0xC4#8 :: v1 :: v2 :: bs) = .instr i rest →
    i.shape.vlen.bits = if bit v2 2 then 256 else 128) ∧
  (∀ p0 p1 p2 bs i rest, decode (0x62#8 :: p0 :: p1 :: p2 :: bs) = .instr i rest →
    bits p2 5 2 ≠ 3#2 ∧ i.shape.vlen.bits = 128 * 2 ^ (bits p2 5 2).toNat) ∧
  (∀ p0 p1 p2 op rest, (conversionOf op).isSome → bits p0 0 4 = 2#4 → bits p1 0 3 = 5#3 →
    (readOperands (evexExt p0) rest).isSome → bits p2 5 2 = 3#2 →
    decode (0x62#8 :: p0 :: p1 :: p2 :: op :: rest) = .ud) ∧
  (elements .bw .v128 = 8 ∧ elements .bw .v256 = 16 ∧ elements .bw .v512 = 32) ∧
  (∀ c, c = .bd ∨ c = .wd → elements c .v128 = 4 ∧ elements c .v256 = 8 ∧ elements c .v512 = 16) ∧
  (∀ c, c = .bq ∨ c = .wq ∨ c = .dq → elements c .v128 = 2 ∧ elements c .v256 = 4 ∧ elements c .v512 = 8)

/-- Rule R61, the rows whose rest begins with `0F 38 op`: only the run `66`, with or without REX, is the legacy form, its
operands read by rules R52 to R54 and R62; LOCK, F2h or F3h in the run is `#UD`; anything else is refused. That `#UD` needs
no byte after the opcode is the model's reading (DEDUCED, notes/assumptions/8.md), and so is that the run may have any
length (DEDUCED, notes/assumptions/7.md). -/
def Obligations.PrefixesOfALegacyForm : Prop :=
  ∀ (run : List Byte) (rex : Option Byte) (op : Byte) (c : Conversion) (rest : List Byte),
    (∀ b ∈ run, isLegacyPrefix b = true) → (∀ r, rex = some r → isRex r = true) → conversionOf op = some c →
    (run = [0x66#8] →
      match readOperands (legacyExt rex) rest with
      | none => decode (run ++ rex.toList ++ 0x0F#8 :: 0x38#8 :: op :: rest) = .refused .runsOffText
      | some (d, src, rest') => ∃ i, decode (run ++ rex.toList ++ 0x0F#8 :: 0x38#8 :: op :: rest) = .instr i rest' ∧
          i.shape = .legacy c rex.isSome d src) ∧
    ((0xF0#8 ∈ run ∨ 0xF2#8 ∈ run ∨ 0xF3#8 ∈ run) →
      decode (run ++ rex.toList ++ 0x0F#8 :: 0x38#8 :: op :: rest) = .ud) ∧
    (run ≠ [0x66#8] → ¬(0xF0#8 ∈ run ∨ 0xF2#8 ∈ run ∨ 0xF3#8 ∈ run) →
      ∃ r, decode (run ++ rex.toList ++ 0x0F#8 :: 0x38#8 :: op :: rest) = .refused r)

/-- Rule R61, the rows of VEX3 and EVEX: 66h, F2h, F3h, F0h or REX before the form is `#UD`, segment overrides and 67h
alone are refused; its last row: anything that is not a form of the family is refused, whatever stands before it. That this
`#UD` needs no byte after the opcode is the model's reading (DEDUCED, notes/assumptions/8.md), and so is that the run may
have any length (DEDUCED, notes/assumptions/7.md). -/
def Obligations.PrefixesOfAVectorFormAndOtherBytes : Prop :=
  ∀ (run : List Byte) (rex : Option Byte) (bs : List Byte),
    (∀ b ∈ run, isLegacyPrefix b = true) → (∀ r, rex = some r → isRex r = true) →
    (rex = none → StartsRest bs) →
    (FamilyTail bs → bs.head? = some 0xC4#8 ∨ bs.head? = some 0x62#8 →
      ((rex ≠ none ∨ 0x66#8 ∈ run ∨ 0xF2#8 ∈ run ∨ 0xF3#8 ∈ run ∨ 0xF0#8 ∈ run) →
        decode (run ++ rex.toList ++ bs) = .ud) ∧
      (run ≠ [] → ¬(rex ≠ none ∨ 0x66#8 ∈ run ∨ 0xF2#8 ∈ run ∨ 0xF3#8 ∈ run ∨ 0xF0#8 ∈ run) →
        ∃ r, decode (run ++ rex.toList ++ bs) = .refused r)) ∧
    (¬FamilyTail bs → ∃ r, decode (run ++ rex.toList ++ bs) = .refused r)

/-- Rule R54: the register numbers of a decoded instruction, assembled from the extension bits (un-inverted) and the low
three bits, in the three formats; and the writemask an EVEX form names. -/
def Obligations.RegisterNumbersAreAssembledFromTheirBits : Prop :=
  (∀ (e : Ext) (modrm : Byte) (bs rest : List Byte) (d : VReg) (src : Src),
    readOperands e (modrm :: bs) = some (d, src, rest) →
    d.val = 16 * e.r4.toNat + 8 * e.r.toNat + (bits modrm 3 3).toNat ∧
    (bits modrm 6 2 = 3#2 → ∃ s, src = .reg s ∧ s.val = 16 * e.s4.toNat + 8 * e.b.toNat + (bits modrm 0 3).toNat) ∧
    (∀ b disp, src = .mem (.base b disp) → b.val = 8 * e.b.toNat + (bits modrm 0 3).toNat) ∧
    (∀ b ix disp, src = .mem (.sib b ix disp) → ∃ sib tail, bs = sib :: tail ∧
      b.val = 8 * e.b.toNat + (bits sib 0 3).toNat ∧
      ∀ x, ix = some x → x.reg.val = 8 * e.x.toNat + (bits sib 3 3).toNat) ∧
    (∀ ix disp, src = .mem (.sibNoBase ix disp) → ∃ sib tail, bs = sib :: tail ∧
      ∀ x, ix = some x → x.reg.val = 8 * e.x.toNat + (bits sib 3 3).toNat)) ∧
  (∀ (op : Byte) (bs : List Byte) (i : Instr) (rest : List Byte),
    decode (0x66#8 :: 0x0F#8 :: 0x38#8 :: op :: bs) = .instr i rest →
    readOperands ⟨false, false, false, false, false⟩ bs = some (i.shape.dest, i.shape.src, rest)) ∧
  (∀ (rex op : Byte) (bs : List Byte) (i : Instr) (rest : List Byte), isRex rex = true →
    decode (0x66#8 :: rex :: 0x0F#8 :: 0x38#8 :: op :: bs) = .instr i rest →
    readOperands ⟨false, bit rex 2, bit rex 1, bit rex 0, false⟩ bs = some (i.shape.dest, i.shape.src, rest)) ∧
  (∀ (v1 v2 op : Byte) (bs : List Byte) (i : Instr) (rest : List Byte),
    decode (0xC4#8 :: v1 :: v2 :: op :: bs) = .instr i rest →
    readOperands ⟨false, !bit v1 7, !bit v1 6, !bit v1 5, false⟩ bs = some (i.shape.dest, i.shape.src, rest)) ∧
  (∀ (p0 p1 p2 op : Byte) (bs : List Byte) (i : Instr) (rest : List Byte),
    decode (0x62#8 :: p0 :: p1 :: p2 :: op :: bs) = .instr i rest →
    readOperands ⟨!bit p0 4, !bit p0 7, !bit p0 6, !bit p0 5, !bit p0 6⟩ bs =
      some (i.shape.dest, i.shape.src, rest) ∧
    (i.shape.masking = .none ↔ bits p2 0 3 = 0#3) ∧
    (∀ k, i.shape.masking = .merging k → k.val = (bits p2 0 3).toNat ∧ bit p2 7 = false) ∧
    (∀ k, i.shape.masking = .zeroing k → k.val = (bits p2 0 3).toNat ∧ bit p2 7 = true))

/-- Rules R52, R53 and R55: the effective address of a decoded memory operand is the one computed from the raw ModRM, SIB
and displacement bytes. -/
def Obligations.EffectiveAddressFollowsTheBytes : Prop :=
  ∀ (s : State) (n : Nat) (next : Addr) (e : Ext) (modrm : Byte) (bs rest : List Byte) (d : VReg) (op : MemOp),
    readOperands e (modrm :: bs) = some (d, .mem op, rest) →
    s.rawAddress n next (bits modrm 6 2) (bits modrm 0 3) e.x e.b bs = some (s.effectiveAddress n next op)

/-- Rule R56. Executing an EVEX form with an 8-bit displacement `d` does what the same form with the 32-bit displacement
`d * N` does, `N = NB`; in legacy and VEX3 format it does what the 32-bit displacement `d` does; the values of NB; a 32-bit
displacement is never scaled, so that in every format only the sum of base, index and displacement matters; the rule's
example. -/
def Obligations.Disp8IsCompressedInEvexOnly : Prop :=
  (∀ (i j : Instr) (c : Conversion) (vl : VLen) (m : Masking) (d : VReg) (op op' : MemOp) (s : State),
    i.shape = .evex c vl m d (.mem op) → j.shape = i.shape.withSrc (.mem op') →
    WidensDisp8 (sourceBytes c vl) op op' → SameButPc (exec i s) (exec j s)) ∧
  (∀ (i j : Instr) (op op' : MemOp) (s : State), (∀ c vl m d src, i.shape ≠ .evex c vl m d src) →
    i.shape.src = .mem op → j.shape = i.shape.withSrc (.mem op') → WidensDisp8 1 op op' →
    SameButPc (exec i s) (exec j s)) ∧
  (∀ c, c = .bw ∨ c = .wd ∨ c = .dq → sourceBytes c .v128 = 8 ∧ sourceBytes c .v256 = 16 ∧ sourceBytes c .v512 = 32) ∧
  (∀ c, c = .bd ∨ c = .wq → sourceBytes c .v128 = 4 ∧ sourceBytes c .v256 = 8 ∧ sourceBytes c .v512 = 16) ∧
  (sourceBytes .bq .v128 = 2 ∧ sourceBytes .bq .v256 = 4 ∧ sourceBytes .bq .v512 = 8) ∧
  (∀ (i j : Instr) (op op' : MemOp) (s : State), i.shape.src = .mem op → j.shape = i.shape.withSrc (.mem op') →
    op.hasDisp8 = false → op'.hasDisp8 = false → stackBase op = stackBase op' →
    s.effectiveAddress 1 (s.pc + BitVec.ofNat 64 i.length) op =
      s.effectiveAddress 1 (s.pc + BitVec.ofNat 64 j.length) op' →
    SameButPc (exec i s) (exec j s)) ∧
  (∀ (s : State) (n n' : Nat) (next : Addr) (op : MemOp), op.hasDisp8 = false →
    s.effectiveAddress n next op = s.effectiveAddress n' next op) ∧
  (∀ (s : State) (n : Nat) (next : Addr) (b : GReg) (i : Option Index) (d : BitVec 8) (e : BitVec 32),
    s.effectiveAddress n next (.base b (.disp8 d)) = s.greg b + d.signExtend 64 * BitVec.ofNat 64 n ∧
    s.effectiveAddress n next (.sib b i (.disp8 d)) =
      s.greg b + s.indexValue i + d.signExtend 64 * BitVec.ofNat 64 n ∧
    s.effectiveAddress n next (.base b (.disp32 e)) = s.greg b + e.signExtend 64 ∧
    s.effectiveAddress n next (.sib b i (.disp32 e)) = s.greg b + s.indexValue i + e.signExtend 64) ∧
  ((∀ c vl m d src, (Shape.evex c vl m d src).dispScale = sourceBytes c vl) ∧
    (∀ c rex d src, (Shape.legacy c rex d src).dispScale = 1) ∧
    ∀ c wide d src, (Shape.vex c wide d src).dispScale = 1) ∧
  (∃ i, decode [0x62#8, 0xF2#8, 0x7D#8, 0x48#8, 0x30#8, 0x48#8, 0x08#8] = .instr i [] ∧
    ∀ s : State, SameButPc (exec i s) (exec (.vpmovzxbwEvex512 .none 1 (.mem (.base 0 (.disp32 0x100)))) s))

/-- The table of rule R34: `KL` and `NB` of every conversion at every length. -/
def Obligations.OperandSizesAreTheTable : Prop :=
  (∀ vl, elements .bw vl = sourceBytes .bw vl ∧ elements .bd vl = sourceBytes .bd vl ∧
    elements .bq vl = sourceBytes .bq vl) ∧
  (∀ vl, sourceBytes .wd vl = 2 * elements .wd vl ∧ sourceBytes .wq vl = 2 * elements .wq vl ∧
    sourceBytes .dq vl = 4 * elements .dq vl) ∧
  (elements .bw .v128 = 8 ∧ elements .bw .v256 = 16 ∧ elements .bw .v512 = 32) ∧
  (elements .bd .v128 = 4 ∧ elements .bd .v256 = 8 ∧ elements .bd .v512 = 16) ∧
  (elements .bq .v128 = 2 ∧ elements .bq .v256 = 4 ∧ elements .bq .v512 = 8) ∧
  (elements .wd .v128 = 4 ∧ elements .wd .v256 = 8 ∧ elements .wd .v512 = 16) ∧
  (elements .wq .v128 = 2 ∧ elements .wq .v256 = 4 ∧ elements .wq .v512 = 8) ∧
  (elements .dq .v128 = 2 ∧ elements .dq .v256 = 4 ∧ elements .dq .v512 = 8)

/-! ## The step -/

/-- A step runs the instruction the decoder reads at `pc` (rules R62, R75). -/
def Obligations.StepRunsTheDecodedInstruction : Prop :=
  ∀ (s : State) (i : Instr) (rest : List Byte), s.fault = none → s.pcInText = true →
    decode s.fetch = .instr i rest → step s = exec i s

/-- Rule R44: the byte fetched at `pc + n` is `TEXT[pc + n - BASE]`, independent of `mem`. -/
def Obligations.FetchReadsTheTextAndNotMemory : Prop :=
  (∀ (s : State) (n : Nat), s.pcInText = true → s.fetch[n]? = s.cfg.text[s.pc.toNat + n - s.cfg.base.toNat]?) ∧
  ∀ (s : State) (m : Memory), ({ s with mem := m } : State).fetch = s.fetch

/-- Rule R62: outside the text, and where the decoder refuses, no step is taken; its verdict `UD` raises `#UD`. -/
def Obligations.VerdictsOtherThanAnInstruction : Prop :=
  ∀ s : State, s.fault = none → s.pc.toNat ≠ s.textEnd →
    (s.pc.toNat < s.cfg.base.toNat ∨ s.textEnd < s.pc.toNat → step s = .refused (.undecoded .outsideText)) ∧
    (∀ r, s.pcInText = true → decode s.fetch = .refused r → step s = .refused (.undecoded r)) ∧
    (s.pcInText = true → decode s.fetch = .ud → Raises s .ud (step s))

/-- Rules R29 and R139: a state with a fault recorded has no successor, nor has the state in which the run ends
normally. -/
def Obligations.NoStepAfterAFaultOrTheEnd : Prop :=
  (∀ (s : State) (r : FaultRecord), s.fault = some r → ¬Steps (step s)) ∧
  (∀ s : State, s.EndedNormally → ¬Steps (step s))

/-- Rule R130: an instruction that raises an exception writes nothing but the fault record, with `pc` still at the
instruction, and the run ends there. -/
def Obligations.ExceptionsArePreciseAndTerminal : Prop :=
  ∀ s t : State, step s = .next t → t.fault ≠ none →
    (∃ e, t = { s with fault := some ⟨e, s.pc⟩ }) ∧ ¬Steps (step t) ∧ ¬t.EndedNormally

/-- The frame of every instruction (rule R26): it changes the fault record alone, or the destination register and `pc`
alone. -/
def Obligations.ExecChangesDestinationAndPcOnly : Prop :=
  ∀ (i : Instr) (s t : State), exec i s = .next t →
    (∃ e, t = { s with fault := some ⟨e, s.pc⟩ }) ∨
    (SameBut s t i.shape.dest ∧ t.pc = s.pc + BitVec.ofNat 64 i.length ∧ t.fault = s.fault)

/-! ## Exceptions -/

/-- Rule R120: the vector numbers of the four exceptions and the error code 0 of `#SS` and `#GP`. That `#UD` carries no error
code is the model's reading (DEDUCED, notes/assumptions/13.md); nothing is said of the code of `#PF`, which the rule leaves
unmodelled. -/
def Obligations.ExceptionVectorsAndErrorCodes : Prop :=
  Exception.ud.vector = 6 ∧ Exception.ss.vector = 12 ∧ Exception.gp.vector = 13 ∧ (∀ a, (Exception.pf a).vector = 14) ∧
  Exception.ss.errorCode = some 0 ∧ Exception.gp.errorCode = some 0 ∧ Exception.ud.errorCode = none

/-- Rule R123: a form raises `#UD` when the feature it needs is false (whatever its operand is), and not when it is true. -/
def Obligations.MissingFeatureRaisesUd : Prop :=
  (∀ (i : Instr) (s : State), i.shape.requires s.cfg.features = false → Raises s .ud (exec i s)) ∧
  (∀ (i : Instr) (s t : State), i.shape.requires s.cfg.features = true → s.fault = none → exec i s = .next t →
    ∀ a, t.fault ≠ some ⟨.ud, a⟩)

/-- Rule R126: which memory fault the read of a memory operand raises, in its order; a register source raises none. That an
operand passing 2^64 faults as soon as any one byte is checked is the model's reading (DEDUCED, notes/assumptions/6.md), and
the lowest failing byte as the address of `#PF` is a decision of the spec that the model takes (DEDUCED,
notes/assumptions/15.md). -/
def Obligations.MemoryFaultsInTheirOrder : Prop :=
  (∀ (i : Instr) (s : State) (op : MemOp) (ea : Addr) (nb : Nat), i.shape.src = .mem op →
    i.shape.requires s.cfg.features = true → nb = sourceBytes i.shape.conv i.shape.vlen →
    ea = s.effectiveAddress i.shape.dispScale (s.pc + BitVec.ofNat 64 i.length) op →
    ((∃ j, s.Counted i.shape.conv.srcw nb i.shape.masking j) →
      (2 ^ 64 < ea.toNat + nb ∨ ∃ j, s.Counted i.shape.conv.srcw nb i.shape.masking j ∧
        canonical (ea + BitVec.ofNat 64 j) = false) →
      Raises s (if stackBase op then .ss else .gp) (exec i s)) ∧
    (ea.toNat + nb ≤ 2 ^ 64 →
      (∀ j, s.Counted i.shape.conv.srcw nb i.shape.masking j → canonical (ea + BitVec.ofNat 64 j) = true) →
      ∀ j, s.Counted i.shape.conv.srcw nb i.shape.masking j → s.accessible (ea + BitVec.ofNat 64 j) = false →
        (∀ j', j' < j → s.Counted i.shape.conv.srcw nb i.shape.masking j' →
          s.accessible (ea + BitVec.ofNat 64 j') = true) →
        Raises s (.pf (ea + BitVec.ofNat 64 j)) (exec i s)) ∧
    ((∀ j, s.Counted i.shape.conv.srcw nb i.shape.masking j →
        ea.toNat + nb ≤ 2 ^ 64 ∧ canonical (ea + BitVec.ofNat 64 j) = true ∧
          s.accessible (ea + BitVec.ofNat 64 j) = true) →
      ∃ t, exec i s = .next t ∧ t.fault = s.fault)) ∧
  (∀ (i : Instr) (s : State) (r : VReg), i.shape.src = .reg r → i.shape.requires s.cfg.features = true →
    ∃ t, exec i s = .next t ∧ t.fault = s.fault)

/-- Rule R126: an address is formed with base RSP or RBP exactly when its base register is number 4 or 5. -/
def Obligations.StackFaultNeedsBaseRspOrRbp : Prop :=
  ∀ op : MemOp, stackBase op = true ↔
    (∃ d, op = .base 4 d ∨ op = .base 5 d) ∨ ∃ i d, op = .sib 4 i d ∨ op = .sib 5 i d

/-- Rule R40, part (1): an address is canonical exactly when bits 63:47 are all equal; as numbers, the lowest and the
highest 2^47 addresses. -/
def Obligations.CanonicalMeansBits63To47AreEqual : Prop :=
  ∀ a : Addr,
    (canonical a = true ↔ ∀ i j, 47 ≤ i → i ≤ 63 → 47 ≤ j → j ≤ 63 → a.getLsbD i = a.getLsbD j) ∧
    (canonical a = true ↔ a.toNat < 2 ^ 47 ∨ 2 ^ 64 - 2 ^ 47 ≤ a.toNat)

/-- Rule R38: where a form completes with `FaultSuppression = false` it completes with `true` as well, with the same
result. -/
def Obligations.FaultSuppressionKeepsTheResult : Prop :=
  ∀ (i : Instr) (s t : State), s.fault = none → exec i (s.withSuppression false) = .next t → t.fault = none →
    exec i (s.withSuppression true) = .next (t.withSuppression true)

/-! ## What the forms do -/

/-- Rules R89 to R95 (their helper arguments are the spec's recovery, 90_conflicts.md C6): PMOVZXBW, BD, BQ, WD, WQ, DQ. -/
def Obligations.LegacyFormsConvert : Prop :=
  LegacyRule .pmovzxbw 0x30 8 16 8 8 ∧ LegacyRule .pmovzxbd 0x31 8 32 4 4 ∧ LegacyRule .pmovzxbq 0x32 8 64 2 2 ∧
  LegacyRule .pmovzxwd 0x33 16 32 4 8 ∧ LegacyRule .pmovzxwq 0x34 16 64 2 4 ∧ LegacyRule .pmovzxdq 0x35 32 64 2 8

/-- Rules R83 to R88 (their helper arguments are the spec's recovery, 90_conflicts.md C6): the VEX.128 forms. -/
def Obligations.Vex128FormsConvert : Prop :=
  VexRule .vpmovzxbwVex128 0x30 false (·.avx) 8 16 8 8 128 ∧
  VexRule .vpmovzxbdVex128 0x31 false (·.avx) 8 32 4 4 128 ∧
  VexRule .vpmovzxbqVex128 0x32 false (·.avx) 8 64 2 2 128 ∧
  VexRule .vpmovzxwdVex128 0x33 false (·.avx) 16 32 4 8 128 ∧
  VexRule .vpmovzxwqVex128 0x34 false (·.avx) 16 64 2 4 128 ∧
  VexRule .vpmovzxdqVex128 0x35 false (·.avx) 32 64 2 8 128

/-- Rules R77 to R82: the VEX.256 forms. -/
def Obligations.Vex256FormsConvert : Prop :=
  VexRule .vpmovzxbwVex256 0x30 true (·.avx2) 8 16 16 16 256 ∧
  VexRule .vpmovzxbdVex256 0x31 true (·.avx2) 8 32 8 8 256 ∧
  VexRule .vpmovzxbqVex256 0x32 true (·.avx2) 8 64 4 4 256 ∧
  VexRule .vpmovzxwdVex256 0x33 true (·.avx2) 16 32 8 16 256 ∧
  VexRule .vpmovzxwqVex256 0x34 true (·.avx2) 16 64 4 8 256 ∧
  VexRule .vpmovzxdqVex256 0x35 true (·.avx2) 32 64 4 16 256

/-- Rules R96 to R103: the EVEX forms, each mnemonic at its three lengths, under the writemask. -/
def Obligations.EvexFormsConvertUnderMask : Prop :=
  (EvexRule .vpmovzxbwEvex128 0x30 0 true (fun f => f.avx512bw && f.avx512vl) 8 16 8 8 128 ∧
    EvexRule .vpmovzxbwEvex256 0x30 1 true (fun f => f.avx512bw && f.avx512vl) 8 16 16 16 256 ∧
    EvexRule .vpmovzxbwEvex512 0x30 2 true (fun f => f.avx512bw) 8 16 32 32 512) ∧
  (EvexRule .vpmovzxbdEvex128 0x31 0 true (fun f => f.avx512f && f.avx512vl) 8 32 4 4 128 ∧
    EvexRule .vpmovzxbdEvex256 0x31 1 true (fun f => f.avx512f && f.avx512vl) 8 32 8 8 256 ∧
    EvexRule .vpmovzxbdEvex512 0x31 2 true (fun f => f.avx512f) 8 32 16 16 512) ∧
  (EvexRule .vpmovzxbqEvex128 0x32 0 true (fun f => f.avx512f && f.avx512vl) 8 64 2 2 128 ∧
    EvexRule .vpmovzxbqEvex256 0x32 1 true (fun f => f.avx512f && f.avx512vl) 8 64 4 4 256 ∧
    EvexRule .vpmovzxbqEvex512 0x32 2 true (fun f => f.avx512f) 8 64 8 8 512) ∧
  (EvexRule .vpmovzxwdEvex128 0x33 0 true (fun f => f.avx512f && f.avx512vl) 16 32 4 8 128 ∧
    EvexRule .vpmovzxwdEvex256 0x33 1 true (fun f => f.avx512f && f.avx512vl) 16 32 8 16 256 ∧
    EvexRule .vpmovzxwdEvex512 0x33 2 true (fun f => f.avx512f) 16 32 16 32 512) ∧
  (EvexRule .vpmovzxwqEvex128 0x34 0 true (fun f => f.avx512f && f.avx512vl) 16 64 2 4 128 ∧
    EvexRule .vpmovzxwqEvex256 0x34 1 true (fun f => f.avx512f && f.avx512vl) 16 64 4 8 256 ∧
    EvexRule .vpmovzxwqEvex512 0x34 2 true (fun f => f.avx512f) 16 64 8 16 512) ∧
  (EvexRule .vpmovzxdqEvex128 0x35 0 false (fun f => f.avx512f && f.avx512vl) 32 64 2 8 128 ∧
    EvexRule .vpmovzxdqEvex256 0x35 1 false (fun f => f.avx512f && f.avx512vl) 32 64 4 16 256 ∧
    EvexRule .vpmovzxdqEvex512 0x35 2 false (fun f => f.avx512f) 32 64 8 32 512)

/-- Rules R66 to R71: every field of the six helpers. -/
def Obligations.HelpersZeroExtendEachField : Prop :=
  (∀ (src : BitVec 64) (j : Nat), j < 8 →
    (bytesToWords src).extractLsb' (16 * j) 16 = (src.extractLsb' (8 * j) 8).setWidth 16) ∧
  (∀ (src : BitVec 32) (j : Nat), j < 4 →
    (bytesToDwords src).extractLsb' (32 * j) 32 = (src.extractLsb' (8 * j) 8).setWidth 32) ∧
  (∀ (src : BitVec 16) (j : Nat), j < 2 →
    (bytesToQwords src).extractLsb' (64 * j) 64 = (src.extractLsb' (8 * j) 8).setWidth 64) ∧
  (∀ (src : BitVec 64) (j : Nat), j < 4 →
    (wordsToDwords src).extractLsb' (32 * j) 32 = (src.extractLsb' (16 * j) 16).setWidth 32) ∧
  (∀ (src : BitVec 32) (j : Nat), j < 2 →
    (wordsToQwords src).extractLsb' (64 * j) 64 = (src.extractLsb' (16 * j) 16).setWidth 64) ∧
  (∀ (src : BitVec 64) (j : Nat), j < 2 →
    (dwordsToQwords src).extractLsb' (64 * j) 64 = (src.extractLsb' (32 * j) 32).setWidth 64)

/-- Rule R72 (the spec's own derivation): the chain of helper calls of every Operation section is ZX, and so is a single
helper. -/
def Obligations.HelperChainIsZx : Prop :=
  (∀ (c : Conversion) (vl : VLen) (src : Vec), helperChain c vl src = zx c vl src) ∧
  (∀ (c : Conversion) (src : Vec), (helper c src 0).setWidth 512 = zx c .v128 src)

/-- Rule R73 (the spec's own derivation): as unsigned numbers every destination element equals its source element. -/
def Obligations.ZeroExtensionIsExact : Prop :=
  ∀ (c : Conversion) (vl : VLen) (src : Vec) (j : Nat), j < elements c vl →
    (elem c.dstw (zx c vl src) j).toNat = (elem c.srcw src j).toNat ∧
    (elem c.dstw (zx c vl src) j).toNat < 2 ^ c.srcw

/-- Rule R104 (the spec's own derivation): an EVEX form without writemask at 128 or 256 bits and the VEX form of the same
conversion and length, on one register source or on memory operands at the same address, write the same value. -/
def Obligations.UnmaskedEvexWritesWhatVexWrites : Prop :=
  ∀ (i j : Instr) (c : Conversion) (wide : Bool) (d : VReg) (src src' : Src) (s : State),
    i.shape = .vex c wide d src → j.shape = .evex c (if wide then .v256 else .v128) .none d src' →
    i.shape.requires s.cfg.features = true → j.shape.requires s.cfg.features = true →
    ((∃ r, src = .reg r ∧ src' = .reg r) ∨ ∃ op op', src = .mem op ∧ src' = .mem op' ∧ stackBase op = stackBase op' ∧
      s.effectiveAddress 1 (s.pc + BitVec.ofNat 64 i.length) op =
        s.effectiveAddress j.shape.dispScale (s.pc + BitVec.ofNat 64 j.length) op') →
    ∃ t t', exec i s = .next t ∧ exec j s = .next t' ∧ (∀ r, t.vreg r = t'.vreg r) ∧ t.fault = t'.fault

/-- Rule R140: when the source register is the destination register, the elements come from the register's old value. -/
def Obligations.SourceAsDestinationReadsTheOldValue : Prop :=
  ∀ (i : Instr) (s : State), i.shape.src = .reg i.shape.dest → i.shape.requires s.cfg.features = true →
    ∃ t, exec i s = .next t ∧ ∀ j, j < elements i.shape.conv i.shape.vlen → s.maskBit i.shape.masking j = true →
      ElementConverted i.shape.conv.srcw i.shape.conv.dstw (s.vreg i.shape.dest) (t.vreg i.shape.dest) j

/-- Rule R17: a legacy or VEX form names registers 0 to 15 and neither reads nor writes `v[16]` to `v[31]`; the EVEX forms
name registers 0 to 31. -/
def Obligations.LegacyAndVexReachRegisters0To15 : Prop :=
  (∀ (bs rest : List Byte) (i : Instr), decode bs = .instr i rest → (∀ c vl m d src, i.shape ≠ .evex c vl m d src) →
    i.shape.dest.val < 16 ∧ (∀ r, i.shape.src = .reg r → r.val < 16) ∧
    ∀ (s t : State) (w : Vector Vec 32), (∀ r : VReg, r.val < 16 → w[r] = s.v[r]) → exec i s = .next t →
      (∀ r : VReg, 16 ≤ r.val → t.vreg r = s.vreg r) ∧
      ∃ t', exec i { s with v := w } = .next t' ∧ (∀ r : VReg, r.val < 16 → t'.vreg r = t.vreg r) ∧
        t'.pc = t.pc ∧ t'.fault = t.fault) ∧
  (∀ (c : Conversion) (vl : VLen) (d s : VReg), ∃ (bs : List Byte) (i : Instr), decode bs = .instr i [] ∧
    i.shape = .evex c vl .none d (.reg s))

/-- Rule R74: bits NSRC and above of a source register have no influence on the elements written. -/
def Obligations.SourceBitsAboveNsrcAreIgnored : Prop :=
  ∀ (i : Instr) (s t t' : State) (r : VReg) (val : Vec), i.shape.src = .reg r →
    (∀ b, b < 8 * sourceBytes i.shape.conv i.shape.vlen → val.getLsbD b = (s.vreg r).getLsbD b) →
    exec i s = .next t → exec i (s.setVreg r val) = .next t' →
    t'.pc = t.pc ∧ t'.fault = t.fault ∧
    (i.shape.requires s.cfg.features = true →
      ∀ j, j < elements i.shape.conv i.shape.vlen → s.maskBit i.shape.masking j = true →
        elem i.shape.conv.dstw (t'.vreg i.shape.dest) j = elem i.shape.conv.dstw (t.vreg i.shape.dest) j)

/-- Rule R18: of the opmask registers only bits KL-1:0 of the one the form names are read; with no writemask none is. -/
def Obligations.OnlyTheNamedMaskBitsBelowKlAreRead : Prop :=
  ∀ (i : Instr) (s t : State) (k : Vector KMask 8),
    (∀ (r : KReg) (j : Nat), i.shape.masking = .merging r ∨ i.shape.masking = .zeroing r →
      j < elements i.shape.conv i.shape.vlen → (k[r]).getLsbD j = (s.kreg r).getLsbD j) →
    exec i s = .next t → exec i (s.withMasks k) = .next (t.withMasks k)

/-- Rule R34: only the `NB` bytes at the effective address are read, and only their accessibility matters. -/
def Obligations.OnlyTheOperandsBytesAreRead : Prop :=
  ∀ (i : Instr) (s t : State) (op : MemOp) (m : Memory) (acc : List Region), i.shape.src = .mem op →
    (∀ j, j < sourceBytes i.shape.conv i.shape.vlen →
      let a := s.effectiveAddress i.shape.dispScale (s.pc + BitVec.ofNat 64 i.length) op + BitVec.ofNat 64 j
      m.read a.toNat = s.mem.read a.toNat ∧ (s.withMemory m acc).accessible a = s.accessible a) →
    exec i s = .next t → exec i (s.withMemory m acc) = .next (t.withMemory m acc)

/-- Rule R16: XMM, YMM and ZMM of one number are views of one register. -/
def Obligations.RegisterNamesAreViewsOfOneRegister : Prop :=
  ∀ (s : State) (i : VReg), s.zmm i = s.vreg i ∧ s.ymm i = (s.zmm i).setWidth 256 ∧ s.xmm i = (s.ymm i).setWidth 128

/-! ## Invariants and runs -/

/-- Every step keeps the invariant: memory in canonical form, `BASE <= pc <= END`, a fault record at `pc`. -/
def Obligations.StepKeepsTheInvariant : Prop := ∀ s t : State, s.Inv → step s = .next t → t.Inv

/-- The invariant holds after reset. (`State.reset` is the model's choice, notes/assumptions/1.md.) -/
def Obligations.InvariantHoldsAtReset : Prop := State.reset.Inv

/-- Rules R63, R130 and R139: from a state in the invariant the machine stops: every instruction advances `pc` by at least 5
bytes, so after `(END - pc) / 5` completed instructions, one exception and the stop there is no further state. That the
exception is a step of its own, which the bound counts, is the model's reading (DEDUCED, notes/assumptions/5.md). -/
def Obligations.EveryRunStops : Prop :=
  ∀ s : State, s.Inv → ¬∃ t : State, Sys2Proof.core.run ((s.textEnd - s.pc.toNat) / 5 + 2) s = .next t

/-- Rule R41: memory never changes during a run, nor do the masks, the general registers and the configuration. -/
def Obligations.ARunChangesNoMemory : Prop :=
  ∀ (n : Nat) (s t : State), Sys2Proof.core.run n s = .next t →
    (∀ a, t.mem.read a = s.mem.read a) ∧ (∀ r, t.kreg r = s.kreg r) ∧ (∀ r, t.greg r = s.greg r) ∧ t.cfg = s.cfg

/-- The model's reset state (DESIGN CHOICE, notes/assumptions/1.md and 2.md; the spec gives no reset value, rule R28): a
start state of rule R137 with every register 0 and no program. -/
def Obligations.ResetIsAnEmptyStartState : Prop :=
  State.reset.IsStart ∧ State.reset.EndedNormally ∧ (∀ r, State.reset.vreg r = 0) ∧ (∀ r, State.reset.kreg r = 0) ∧
  (∀ r, State.reset.greg r = 0) ∧ State.reset.pc = 0 ∧ (∀ a, State.reset.mem.read a = 0) ∧
  State.reset.cfg.features = allFeatures ∧ State.reset.cfg.faultSuppression = false

/-! ## Enabling the forms, and the intrinsics -/

/-- Rules R23 and R28: with the control registers as they are after RESET no form is enabled, on any processor. -/
def Obligations.PowerUpEnablesNoForm : Prop :=
  ∀ (a b : BitVec 32) (i : Instr), i.shape.requires (ControlBits.powerUp a b).features = false

/-- Rules R23 and R138: boot steps (2) and (3) enable every form whose CPUID bits are set, and keep CR0.TS as it is. -/
def Obligations.BootStepsEnableTheForms : Prop :=
  ∀ c : ControlBits,
    c.enableLegacy.notTaskSwitched = c.notTaskSwitched ∧ c.enableEvex.notTaskSwitched = c.notTaskSwitched ∧
    c.enableLegacy.features.sse41 = c.cpuid1Ecx.getLsbD 19 ∧
    c.enableVex.features.avx = c.cpuid1Ecx.getLsbD 28 ∧ c.enableVex.features.avx2 = c.cpuid7Ebx.getLsbD 5 ∧
    c.enableEvex.features.avx512f = c.cpuid7Ebx.getLsbD 16 ∧ c.enableEvex.features.avx512bw = c.cpuid7Ebx.getLsbD 30 ∧
    c.enableEvex.features.avx512vl = c.cpuid7Ebx.getLsbD 31

/-- Rule R106: an intrinsic's value is the low VL bits of what the EVEX form writes with that argument as its mask and the
destination's old value as its first argument. -/
def Obligations.IntrinsicsAreTheEvexForms : Prop :=
  ∀ (i : Instr) (s : State) (c : Conversion) (vl : VLen) (m : Masking) (d r : VReg),
    i.shape = .evex c vl m d (.reg r) → i.shape.requires s.cfg.features = true →
    ∃ t, exec i s = .next t ∧
      t.vreg d =
        match m with
        | .none => intrinsicValue .plain c vl (s.vreg d) 0 (s.vreg r)
        | .merging k => intrinsicValue .merging c vl (s.vreg d) (s.kreg k) (s.vreg r)
        | .zeroing k => intrinsicValue .zeroing c vl (s.vreg d) (s.kreg k) (s.vreg r)

/-- Rules R107 and R108: of the 54 lines ten disagree with the Operation sections, these. -/
def Obligations.TenIntrinsicLinesDisagree : Prop :=
  intrinsicLines.map (·.line) = (List.range 54).map (· + 1) ∧
  (intrinsicLines.filter fun l => !l.typesOk).map (·.line) = [13, 14, 15, 16, 17, 18, 19, 32, 33, 45]

/-- Rules R106 and R107, for each of the 54 lines: some instruction with the line's printed mnemonic implements it, and
every instruction that can implement it, on a register source, completes with the line's C value in the low VL bits of the
destination; the instruction's writemask is the mask argument, the destination's old value the first argument of a merging
line. (That lines 50 to 54 can be VEX.128 or EVEX forms too is DEDUCED, notes/assumptions/17.md.) -/
def Obligations.EachIntrinsicLineIsWhatItsFormsCompute : Prop :=
  ∀ l ∈ intrinsicLines,
    (∃ i : Instr, l.implementedBy i = true ∧ i.mnemonic = l.mnemonic) ∧
    ∀ (i : Instr) (s : State) (r : VReg), l.implementedBy i = true → i.shape.src = .reg r →
      i.shape.requires s.cfg.features = true →
      ∃ t, exec i s = .next t ∧
        (t.vreg i.shape.dest).setWidth l.vl.bits =
          (match i.shape.masking with
          | .none => intrinsicValue l.kind l.conv l.vl (s.vreg i.shape.dest) 0 (s.vreg r)
          | .merging k => intrinsicValue l.kind l.conv l.vl (s.vreg i.shape.dest) (s.kreg k) (s.vreg r)
          | .zeroing k => intrinsicValue l.kind l.conv l.vl (s.vreg i.shape.dest) (s.kreg k) (s.vreg r)).setWidth
            l.vl.bits
end

