-- ==== Sys2Proof/Laws/State.lean ====
section
/-! SUPPORT. One lemma per field per update of the state, so that no later proof unfolds a record update. -/

namespace Sys2Proof.Machine

/-! ## `setVreg` -/

@[simp] theorem setVreg_vreg_self (s : State) (d : VReg) (val : Vec) : (s.setVreg d val).vreg d = val := by
  simp [State.setVreg, State.vreg]

@[simp] theorem setVreg_vreg_ne (s : State) (d r : VReg) (val : Vec) (h : r ≠ d) :
    (s.setVreg d val).vreg r = s.vreg r := by
  simp only [State.setVreg, State.vreg, Fin.getElem_fin]
  exact Vector.getElem_set_ne _ _ fun e => h (Fin.ext e.symm)

@[simp] theorem setVreg_k (s : State) (d : VReg) (val : Vec) : (s.setVreg d val).k = s.k := rfl
@[simp] theorem setVreg_x (s : State) (d : VReg) (val : Vec) : (s.setVreg d val).x = s.x := rfl
@[simp] theorem setVreg_pc (s : State) (d : VReg) (val : Vec) : (s.setVreg d val).pc = s.pc := rfl
@[simp] theorem setVreg_mem (s : State) (d : VReg) (val : Vec) : (s.setVreg d val).mem = s.mem := rfl
@[simp] theorem setVreg_fault (s : State) (d : VReg) (val : Vec) : (s.setVreg d val).fault = s.fault := rfl
@[simp] theorem setVreg_cfg (s : State) (d : VReg) (val : Vec) : (s.setVreg d val).cfg = s.cfg := rfl

/-! ## `setPc` -/

@[simp] theorem setPc_v (s : State) (a : Addr) : (s.setPc a).v = s.v := rfl
@[simp] theorem setPc_vreg (s : State) (a : Addr) (r : VReg) : (s.setPc a).vreg r = s.vreg r := rfl
@[simp] theorem setPc_k (s : State) (a : Addr) : (s.setPc a).k = s.k := rfl
@[simp] theorem setPc_x (s : State) (a : Addr) : (s.setPc a).x = s.x := rfl
@[simp] theorem setPc_pc (s : State) (a : Addr) : (s.setPc a).pc = a := rfl
@[simp] theorem setPc_mem (s : State) (a : Addr) : (s.setPc a).mem = s.mem := rfl
@[simp] theorem setPc_fault (s : State) (a : Addr) : (s.setPc a).fault = s.fault := rfl
@[simp] theorem setPc_cfg (s : State) (a : Addr) : (s.setPc a).cfg = s.cfg := rfl

/-! ## `raise` -/

@[simp] theorem raise_v (s : State) (e : Exception) : (s.raise e).v = s.v := rfl
@[simp] theorem raise_vreg (s : State) (e : Exception) (r : VReg) : (s.raise e).vreg r = s.vreg r := rfl
@[simp] theorem raise_k (s : State) (e : Exception) : (s.raise e).k = s.k := rfl
@[simp] theorem raise_x (s : State) (e : Exception) : (s.raise e).x = s.x := rfl
@[simp] theorem raise_pc (s : State) (e : Exception) : (s.raise e).pc = s.pc := rfl
@[simp] theorem raise_mem (s : State) (e : Exception) : (s.raise e).mem = s.mem := rfl
@[simp] theorem raise_fault (s : State) (e : Exception) : (s.raise e).fault = some ⟨e, s.pc⟩ := rfl
@[simp] theorem raise_cfg (s : State) (e : Exception) : (s.raise e).cfg = s.cfg := rfl

/-! ## `complete` -/

@[simp] theorem complete_vreg_self (s : State) (d : VReg) (val : Vec) (n : Nat) :
    (s.complete d val n).vreg d = val := by simp [State.complete]

@[simp] theorem complete_vreg_ne (s : State) (d r : VReg) (val : Vec) (n : Nat) (h : r ≠ d) :
    (s.complete d val n).vreg r = s.vreg r := by simp [State.complete, h]

@[simp] theorem complete_k (s : State) (d : VReg) (val : Vec) (n : Nat) : (s.complete d val n).k = s.k := rfl
@[simp] theorem complete_x (s : State) (d : VReg) (val : Vec) (n : Nat) : (s.complete d val n).x = s.x := rfl
@[simp] theorem complete_pc (s : State) (d : VReg) (val : Vec) (n : Nat) :
    (s.complete d val n).pc = s.pc + BitVec.ofNat 64 n := rfl
@[simp] theorem complete_mem (s : State) (d : VReg) (val : Vec) (n : Nat) : (s.complete d val n).mem = s.mem := rfl
@[simp] theorem complete_fault (s : State) (d : VReg) (val : Vec) (n : Nat) :
    (s.complete d val n).fault = s.fault := rfl
@[simp] theorem complete_cfg (s : State) (d : VReg) (val : Vec) (n : Nat) : (s.complete d val n).cfg = s.cfg := rfl

/-! ## `loadText` -/

@[simp] theorem loadText_v (s : State) (bs : List Byte) : (s.loadText bs).v = s.v := rfl
@[simp] theorem loadText_k (s : State) (bs : List Byte) : (s.loadText bs).k = s.k := rfl
@[simp] theorem loadText_x (s : State) (bs : List Byte) : (s.loadText bs).x = s.x := rfl
@[simp] theorem loadText_pc (s : State) (bs : List Byte) : (s.loadText bs).pc = s.pc := rfl
@[simp] theorem loadText_mem (s : State) (bs : List Byte) : (s.loadText bs).mem = s.mem := rfl
@[simp] theorem loadText_fault (s : State) (bs : List Byte) : (s.loadText bs).fault = none := rfl

/-- The bytes fetched after loading a text are that text. -/
@[simp] theorem loadText_fetch (s : State) (bs : List Byte) : (s.loadText bs).fetch = bs := by
  simp [State.fetch, State.loadText]

end Sys2Proof.Machine
end

