-- ==== Sys2Proof/Laws/Convert.lean ====
section
/-! SUPPORT. What `pack`, ZX and the three merges do, element by element. -/

namespace Sys2Proof.Machine

/-- The bits of a packed value: bit `i` is bit `i % w` of element `i / w`, if there is such an element. -/
theorem pack_getLsbD {w : Nat} (f : Nat → BitVec w) (n i : Nat) :
    (pack w f n).getLsbD i = (decide (i < 512) && decide (i < n * w) && (f (i / w)).getLsbD (i % w)) := by
  induction n with
  | zero => simp [pack]
  | succ n ih =>
    simp only [pack, BitVec.getLsbD_or, ih, BitVec.getLsbD_shiftLeft, BitVec.getLsbD_setWidth]
    by_cases h512 : i < 512
    · by_cases hlo : i < n * w
      · have : i < (n + 1) * w := lt_of_lt_of_le hlo (Nat.mul_le_mul_right w (Nat.le_succ n))
        simp [h512, hlo, this]
      · by_cases hhi : i < (n + 1) * w
        · have hsub : i - n * w < w := by rw [Nat.succ_mul] at hhi; omega
          have hdiv : i / w = n := Nat.div_eq_of_lt_le (Nat.le_of_not_lt hlo) hhi
          have hmod : i % w = i - n * w := by
            have h := Nat.div_add_mod i w
            rw [hdiv, Nat.mul_comm] at h
            omega
          simp [h512, hlo, hhi, hdiv, hmod, show i - n * w < 512 by omega]
        · have : w ≤ i - n * w := by rw [Nat.succ_mul] at hhi; omega
          simp [h512, hlo, hhi, BitVec.getLsbD_of_ge _ _ this]
    · simp [h512]

/-- Bit `i` of element `j`. -/
theorem elem_getLsbD (w : Nat) (x : Vec) (j i : Nat) :
    (elem w x j).getLsbD i = (decide (i < w) && x.getLsbD (j * w + i)) :=
  BitVec.getLsbD_extractLsb' _ _ _ _

/-- Element `j` of a packed value that fits in 512 bits. -/
theorem elem_pack {w : Nat} (f : Nat → BitVec w) {n j : Nat} (hfit : n * w ≤ 512) (hj : j < n) :
    elem w (pack w f n) j = f j := by
  rcases Nat.eq_zero_or_pos w with rfl | hw
  · exact BitVec.eq_of_getLsbD_eq fun i hi => absurd hi (Nat.not_lt_zero i)
  · apply BitVec.eq_of_getLsbD_eq
    intro i hi
    have h1 : j * w + i < n * w := by
      calc j * w + i < j * w + w := by omega
        _ = (j + 1) * w := by rw [Nat.succ_mul]
        _ ≤ n * w := Nat.mul_le_mul_right w hj
    have h2 : (j * w + i) / w = j := by rw [Nat.mul_comm, Nat.mul_add_div hw, Nat.div_eq_of_lt hi, Nat.add_zero]
    have h3 : (j * w + i) % w = i := by rw [Nat.mul_comm, Nat.mul_add_mod, Nat.mod_eq_of_lt hi]
    have h4 : j * w + i < 512 := by omega
    rw [elem_getLsbD, pack_getLsbD, h2, h3, decide_eq_true hi, decide_eq_true h1, decide_eq_true h4]
    rfl

/-- The bits of a packed value above its elements are 0. -/
theorem pack_upper {w : Nat} (f : Nat → BitVec w) {n i : Nat} (h : n * w ≤ i) :
    (pack w f n).getLsbD i = false := by
  simp [pack_getLsbD, Nat.not_lt.mpr h]

/-- Packing depends on the elements below the count alone. -/
theorem pack_congr {w : Nat} {f g : Nat → BitVec w} {n : Nat} (h : ∀ j, j < n → f j = g j) : pack w f n = pack w g n := by
  induction n with
  | zero => rfl
  | succ n ih => simp only [pack, ih fun j hj => h j (Nat.lt_succ_of_lt hj), h n (Nat.lt_succ_self n)]

theorem dstw_pos (c : Conversion) : 0 < c.dstw := by cases c <;> decide
theorem srcw_pos (c : Conversion) : 0 < c.srcw := by cases c <;> decide

/-- The elements fill the vector length exactly (rule R60). -/
theorem elements_dstw (c : Conversion) (vl : VLen) : elements c vl * c.dstw = vl.bits := by
  cases c <;> cases vl <;> rfl

theorem vlen_le (vl : VLen) : vl.bits ≤ 512 := by cases vl <;> decide

theorem elements_fit (c : Conversion) (vl : VLen) : elements c vl * c.dstw ≤ 512 :=
  (elements_dstw c vl).trans_le (vlen_le vl)

/-- Rule R72: element `j` of ZX is source element `j`, zero-extended. -/
theorem elem_zx (c : Conversion) (vl : VLen) (S : Vec) {j : Nat} (hj : j < elements c vl) :
    elem c.dstw (zx c vl S) j = (elem c.srcw S j).setWidth c.dstw :=
  elem_pack _ (elements_fit c vl) hj

/-- ZX has no bit at or above VL. -/
theorem zx_upper (c : Conversion) (vl : VLen) (S : Vec) {i : Nat} (h : vl.bits ≤ i) : (zx c vl S).getLsbD i = false :=
  pack_upper _ ((elements_dstw c vl).trans_le h)

/-- ZX reads the source elements below KL alone (rule R74). -/
theorem zx_congr (c : Conversion) (vl : VLen) {S S' : Vec}
    (h : ∀ j, j < elements c vl → elem c.srcw S j = elem c.srcw S' j) : zx c vl S = zx c vl S' :=
  pack_congr fun j hj => by rw [h j hj]

/-- Rule R89: the low 128 bits of a legacy result are those of ZX. -/
theorem legacyMerge_getLsbD (old t : Vec) (i : Nat) :
    (legacyMerge old t).getLsbD i = if i < 128 then t.getLsbD i else old.getLsbD i := by
  simp only [legacyMerge, BitVec.getLsbD_append, BitVec.getLsbD_extractLsb']
  by_cases h : i < 128
  · simp [h]
  · by_cases h2 : i < 512
    · simp [h, show i - 128 < 384 by omega, show 128 + (i - 128) = i by omega]
    · simp [h, show ¬ i - 128 < 384 by omega, BitVec.getLsbD_of_ge old i (by omega)]

/-- Rule R76: a VEX result is ZX below VL and 0 from VL up. -/
theorem vexMerge_getLsbD (vl : VLen) (t : Vec) (i : Nat) :
    (vexMerge vl t).getLsbD i = (decide (i < vl.bits) && t.getLsbD i) := by
  by_cases h : i < vl.bits
  · simp [vexMerge, h, show i < 512 from lt_of_lt_of_le h (vlen_le vl)]
  · simp [vexMerge, h]

/-- A VEX form writes ZX, whose upper bits are 0 already. -/
@[simp] theorem vexMerge_zx (c : Conversion) (vl : VLen) (S : Vec) : vexMerge vl (zx c vl S) = zx c vl S := by
  apply BitVec.eq_of_getLsbD_eq
  intro i _
  rw [vexMerge_getLsbD]
  by_cases h : i < vl.bits
  · simp [h]
  · simp [h, zx_upper c vl S (Nat.le_of_not_lt h)]

/-- Rule R96: element `j` of an EVEX result. -/
theorem elem_evexMerge (c : Conversion) (vl : VLen) (active : Nat → Bool) (z : Bool) (old t : Vec) {j : Nat}
    (hj : j < elements c vl) :
    elem c.dstw (evexMerge c vl active z old t) j =
      if active j then elem c.dstw t j else if z then 0 else elem c.dstw old j :=
  elem_pack _ (elements_fit c vl) hj

/-- Rule R97: an EVEX result has no bit at or above VL. -/
theorem evexMerge_upper (c : Conversion) (vl : VLen) (active : Nat → Bool) (z : Bool) (old t : Vec) {i : Nat}
    (h : vl.bits ≤ i) : (evexMerge c vl active z old t).getLsbD i = false :=
  pack_upper _ ((elements_dstw c vl).trans_le h)

/-- An element of a legacy result below bit 128 is the element of ZX. -/
theorem elem_legacyMerge (w : Nat) (old t : Vec) {j : Nat} (h : (j + 1) * w ≤ 128) :
    elem w (legacyMerge old t) j = elem w t j := by
  apply BitVec.eq_of_getLsbD_eq
  intro i hi
  rw [Nat.succ_mul] at h
  rw [elem_getLsbD, elem_getLsbD, legacyMerge_getLsbD, if_pos (by omega)]

end Sys2Proof.Machine
end

