-- ==== Sys2Proof/Laws/Decode.lean ====
section
/-! SUPPORT. The pieces of the encoding, each read back from what the encoder writes: register numbers, ModRM, SIB,
displacements, the prefix bytes of the three formats, and the forms themselves. -/

namespace Sys2Proof

/-! ## Register numbers -/

theorem vregOf_numBits (d : VReg) : vregOf (numBit d.val 4) (numBit d.val 3) (low3 d.val) = d := by
  revert d; decide

theorem vregOf_low (d : VReg) (h : d.val < 16) : vregOf false (numBit d.val 3) (low3 d.val) = d := by
  revert d; decide

theorem vregOf_low8 (d : VReg) (h : d.val < 8) : vregOf false false (low3 d.val) = d := by
  revert d; decide

theorem numBit4_low (d : VReg) (h : d.val < 16) : numBit d.val 4 = false := by
  revert d; decide

theorem gregOf_numBits (r : GReg) : gregOf (numBit r.val 3) (low3 r.val) = r := by
  revert r; decide

theorem gregOf_low8 (r : GReg) (h : r.val < 8) : gregOf false (low3 r.val) = r := by
  revert r; decide

theorem numBit3_vreg (d : VReg) (h : d.val < 8) : numBit d.val 3 = false := by
  revert d; decide

theorem numBit3_greg (r : GReg) (h : r.val < 8) : numBit r.val 3 = false := by
  revert r; decide

theorem low3_ne4 (r : GReg) (h : plainBaseOk r = true) : low3 r.val ≠ 4#3 := by
  revert r; decide

theorem low3_ne5 (r : GReg) (h : baseDispOk r .none = true) : low3 r.val ≠ 5#3 := by
  revert r; decide

/-! ## The fields of ModRM and SIB -/

theorem bits_mod (a : BitVec 2) (b c : BitVec 3) : bits (a ++ b ++ c : Byte) 6 2 = a := by
  revert a b c; decide

theorem bits_reg (a : BitVec 2) (b c : BitVec 3) : bits (a ++ b ++ c : Byte) 3 3 = b := by
  revert a b c; decide

theorem bits_rm (a : BitVec 2) (b c : BitVec 3) : bits (a ++ b ++ c : Byte) 0 3 = c := by
  revert a b c; decide

theorem scaleOf_ssOf (s : Scale) : scaleOf (ssOf s) = s := by cases s <;> rfl

/-- The index a SIB byte names is the one it was made from (rule R53). -/
theorem sibIndex_sibByte (i : Option Index) (base : BitVec 3) (h : indexOk i = true) :
    sibIndex (indexX i) (sibByte i base) = i := by
  cases i with
  | none =>
    simp only [sibIndex, indexX, sibByte, bits_reg]
    rfl
  | some i =>
    have hne : i.reg ≠ 4 := by
      intro e
      rw [indexOk, e] at h
      exact absurd h (by decide)
    simp only [sibIndex, indexX, sibByte, bits_reg, bits_mod, gregOf_numBits, hne, if_false, scaleOf_ssOf]

theorem bits_sibByte_base (i : Option Index) (base : BitVec 3) : bits (sibByte i base) 0 3 = base := by
  cases i <;> exact bits_rm _ _ _

/-! ## Displacements -/

/-- Four little-endian bytes make the displacement they were taken from (rule R55). -/
theorem disp32_of_bytes (d : BitVec 32) :
    (d.extractLsb' 24 8 ++ d.extractLsb' 16 8 ++ d.extractLsb' 8 8 ++ d.extractLsb' 0 8 : BitVec 32) = d := by
  apply BitVec.eq_of_getLsbD_eq
  intro i hi
  simp only [BitVec.getLsbD_append, BitVec.getLsbD_extractLsb']
  by_cases h1 : i < 8
  · simp [h1]
  · by_cases h2 : i - 8 < 8
    · simp [h1, h2, show 8 + (i - 8) = i by omega]
    · by_cases h3 : i - 8 - 8 < 8
      · simp [h1, h2, h3, show 16 + (i - 8 - 8) = i by omega]
      · simp [h1, h2, h3, show i - 8 - 8 - 8 < 8 by omega, show 24 + (i - 8 - 8 - 8) = i by omega]

theorem readDisp32_bytes (d : BitVec 32) (rest : List Byte) : readDisp32 (disp32Bytes d ++ rest) = some (d, rest) := by
  simp only [disp32Bytes, List.cons_append, List.nil_append, readDisp32]
  rw [disp32_of_bytes]

theorem readDisp_bytes (d : Disp) (rest : List Byte) : readDisp d.modBits (d.bytes ++ rest) = some (d, rest) := by
  cases d with
  | none => rfl
  | disp8 d => rfl
  | disp32 d =>
    have h := readDisp32_bytes d rest
    simp [readDisp, Disp.modBits, Disp.bytes, h]

theorem modBits_ne3 (d : Disp) : d.modBits ≠ 3#2 := by cases d <;> simp [Disp.modBits]

theorem modBits_eq0 (d : Disp) : d.modBits = 0#2 ↔ d = .none := by cases d <;> simp [Disp.modBits]

/-! ## The operands -/

/-- The extension bits that agree with a destination and the fields of a source. -/
def Ext.Agrees (e : Ext) (d : VReg) (s : Src) : Prop :=
  vregOf e.r4 e.r (low3 d.val) = d ∧
  match s with
  | .reg r => vregOf e.s4 e.b (low3 r.val) = r
  | .mem (.ripRel _) => True
  | .mem (.base b _) => gregOf e.b (low3 b.val) = b
  | .mem (.sib b i _) => gregOf e.b (low3 b.val) = b ∧ e.x = indexX i
  | .mem (.sibNoBase i _) => e.x = indexX i

/-- Reading the memory operand the encoder wrote. -/
theorem readMem_fields (e : Ext) (d : VReg) (m : MemOp) (rest : List Byte) (hw : m.wf = true)
    (he : e.Agrees d (.mem m)) :
    readMem (Src.mem m).fields.mod (Src.mem m).fields.rm e ((Src.mem m).fields.tail ++ rest) = some (m, rest) := by
  cases m with
  | ripRel disp => simp [Src.fields, readMem, readDisp32_bytes]
  | base b disp =>
    simp only [MemOp.wf, Bool.and_eq_true] at hw
    have h4 := low3_ne4 b hw.1
    have h5 : ¬(disp.modBits = 0#2 ∧ low3 b.val = 5#3) := by
      rintro ⟨hd, h⟩
      rw [modBits_eq0] at hd
      subst hd
      exact low3_ne5 b hw.2 h
    have hb : gregOf e.b (low3 b.val) = b := he.2
    simp only [Src.fields, readMem, h4, h5, if_false, readDisp_bytes, Option.map_some, hb]
  | sib b i disp =>
    simp only [MemOp.wf, Bool.and_eq_true] at hw
    have h5 : ¬(disp.modBits = 0#2 ∧ low3 b.val = 5#3) := by
      rintro ⟨hd, h⟩
      rw [modBits_eq0] at hd
      subst hd
      exact low3_ne5 b hw.1 h
    obtain ⟨hb, hx⟩ := he.2
    simp only [Src.fields, readMem, List.cons_append, readSib, bits_sibByte_base, h5, if_false, if_true, readDisp_bytes,
      Option.map_some, hb, hx, sibIndex_sibByte _ _ hw.2]
  | sibNoBase i disp =>
    have hx : e.x = indexX i := he.2
    simp only [Src.fields, readMem, List.cons_append, readSib, bits_sibByte_base, if_true, and_self, readDisp32_bytes,
      Option.map_some, hx, sibIndex_sibByte _ _ (show indexOk i = true from hw)]

theorem fields_mod_ne3 (m : MemOp) : (Src.mem m).fields.mod ≠ 3#2 := by
  cases m <;> simp [Src.fields, modBits_ne3]

/-- Reading the operands the encoder wrote. -/
theorem readOperands_bytes (e : Ext) (d : VReg) (s : Src) (rest : List Byte) (hw : s.wf = true) (he : e.Agrees d s) :
    readOperands e (operandBytes d s.fields ++ rest) = some (d, s, rest) := by
  simp only [operandBytes, List.cons_append, readOperands, bits_mod, bits_reg, bits_rm, he.1]
  cases s with
  | reg r =>
    have hr : vregOf e.s4 e.b (low3 r.val) = r := he.2
    simp [Src.fields, hr]
  | mem m => rw [if_neg (fields_mod_ne3 m), readMem_fields e d m rest hw he]; rfl

/-! ## The prefix bytes of the three formats -/

theorem conversionOf_opcodeOf (c : Conversion) : conversionOf (opcodeOf c) = some c := by cases c <;> decide

theorem vlenOf_llOf (vl : VLen) : vlenOf (llOf vl) = some vl := by cases vl <;> decide

theorem rex_bits (r x b : Bool) :
    let rex : Byte := 4#4 ++ 0#1 ++ BitVec.ofBool r ++ BitVec.ofBool x ++ BitVec.ofBool b
    isRex rex = true ∧ isLegacyPrefix rex = false ∧ bit rex 2 = r ∧ bit rex 1 = x ∧ bit rex 0 = b := by
  cases r <;> cases x <;> cases b <;> decide

theorem vex1_bits (r x b : Bool) :
    let v1 : Byte := BitVec.ofBool r ++ BitVec.ofBool x ++ BitVec.ofBool b ++ 2#5
    bits v1 0 5 = 2#5 ∧ bit v1 7 = r ∧ bit v1 6 = x ∧ bit v1 5 = b := by
  cases r <;> cases x <;> cases b <;> decide

theorem vex2_bits (l : Bool) :
    bits (vexByte2 l) 0 2 = 1#2 ∧ bits (vexByte2 l) 3 4 = 15#4 ∧ bit (vexByte2 l) 2 = l := by
  cases l <;> decide

theorem evex0_bits (r x b r' : Bool) :
    let p0 : Byte := BitVec.ofBool r ++ BitVec.ofBool x ++ BitVec.ofBool b ++ BitVec.ofBool r' ++ 2#4
    bits p0 0 2 = 2#2 ∧ bits p0 2 2 = 0#2 ∧ bit p0 7 = r ∧ bit p0 6 = x ∧ bit p0 5 = b ∧ bit p0 4 = r' := by
  cases r <;> cases x <;> cases b <;> cases r' <;> decide

/-- The writemask the fields `z` and `aaa` name is the one they were made from. -/
theorem maskingOf_bits (m : Masking) (h : m.wf = true) : maskingOf m.zBit m.aaa = m := by
  cases m with
  | none => rfl
  | merging k => revert k; decide
  | zeroing k => revert k; decide

theorem evex2_bits (vl : VLen) (m : Masking) :
    bits (evexByte2 vl m) 5 2 = llOf vl ∧ bit (evexByte2 vl m) 7 = m.zBit ∧ bits (evexByte2 vl m) 0 3 = m.aaa ∧
      bit (evexByte2 vl m) 3 = true ∧ bit (evexByte2 vl m) 4 = false := by
  have h : ∀ (z : Bool) (ll : BitVec 2) (a : BitVec 3),
      let p2 : Byte := BitVec.ofBool z ++ ll ++ 0#1 ++ 1#1 ++ a
      bits p2 5 2 = ll ∧ bit p2 7 = z ∧ bits p2 0 3 = a ∧ bit p2 3 = true ∧ bit p2 4 = false := by decide
  exact h _ _ _

/-- A writemask of a well-formed form never is `z = 1` with `aaa = 000b` (rule R58). -/
theorem masking_z_aaa (m : Masking) (h : m.wf = true) : (m.zBit && m.aaa == 0#3) = false := by
  cases m with
  | none => rfl
  | merging k => rfl
  | zeroing k => revert k; decide

/-- The reserved fields the encoder writes are in order. -/
theorem evexFieldsOk_encoded (c : Conversion) (vl : VLen) (m : Masking) (h : m.wf = true) :
    evexFieldsOk c evexByte1 (evexByte2 vl m) = true := by
  obtain ⟨_, h7, h0, h3, h4⟩ := evex2_bits vl m
  have hz := masking_z_aaa m h
  have h1 : bits evexByte1 3 4 = 15#4 := by decide
  have hw : bit evexByte1 7 = false := by decide
  simp only [evexFieldsOk, h7, h0, h3, h4, h1, hw, hz]
  simp

/-! ## The extension bits agree with what is encoded -/

theorem agrees_legacy_rex (d : VReg) (s : Src) (hd : d.val < 16) (hs : s.vregBelow 16 = true) :
    (legacyExt (some (rexByte d s.fields))).Agrees d s := by
  obtain ⟨_, _, h2, h1, h0⟩ := rex_bits (numBit d.val 3) s.fields.x s.fields.b
  simp only [legacyExt, rexByte, h2, h1, h0, Ext.Agrees, vregOf_low d hd, true_and]
  cases s with
  | reg r => exact vregOf_low r (by simpa [Src.vregBelow] using hs)
  | mem m =>
    cases m with
    | ripRel => trivial
    | base b => exact gregOf_numBits b
    | sib b i => exact ⟨gregOf_numBits b, rfl⟩
    | sibNoBase i => rfl

theorem indexX_low (i : Option Index) (h : indexLow i = true) : indexX i = false := by
  cases i with
  | none => rfl
  | some i => exact numBit3_greg i.reg (by simpa [indexLow] using h)

theorem agrees_legacy_plain (d : VReg) (s : Src) (hd : d.val < 8) (hs : s.low = true) : (legacyExt none).Agrees d s := by
  simp only [legacyExt, Ext.Agrees, vregOf_low8 d hd, true_and]
  cases s with
  | reg r => exact vregOf_low8 r (by simpa [Src.low] using hs)
  | mem m =>
    cases m with
    | ripRel => trivial
    | base b => exact gregOf_low8 b (by simpa [Src.low] using hs)
    | sib b i =>
      simp only [Src.low, Bool.and_eq_true, decide_eq_true_eq] at hs
      exact ⟨gregOf_low8 b hs.1, (indexX_low i hs.2).symm⟩
    | sibNoBase i => exact (indexX_low i hs).symm

theorem agrees_vex (d : VReg) (s : Src) (hd : d.val < 16) (hs : s.vregBelow 16 = true) :
    (vexExt (vexByte1 d s.fields)).Agrees d s := by
  obtain ⟨_, h7, h6, h5⟩ := vex1_bits (!numBit d.val 3) (!s.fields.x) (!s.fields.b)
  simp only [vexExt, vexByte1, h7, h6, h5, Bool.not_not, Ext.Agrees, vregOf_low d hd, true_and]
  cases s with
  | reg r => exact vregOf_low r (by simpa [Src.vregBelow] using hs)
  | mem m =>
    cases m with
    | ripRel => trivial
    | base b => exact gregOf_numBits b
    | sib b i => exact ⟨gregOf_numBits b, rfl⟩
    | sibNoBase i => rfl

theorem agrees_evex (d : VReg) (s : Src) : (evexExt (evexByte0 d s.fields)).Agrees d s := by
  obtain ⟨_, _, h7, h6, h5, h4⟩ := evex0_bits (!numBit d.val 3) (!s.fields.x) (!s.fields.b) (!numBit d.val 4)
  simp only [evexExt, evexByte0, h7, h6, h5, h4, Bool.not_not, Ext.Agrees, vregOf_numBits d, true_and]
  cases s with
  | reg r => exact vregOf_numBits r
  | mem m =>
    cases m with
    | ripRel => trivial
    | base b => exact gregOf_numBits b
    | sib b i => exact ⟨gregOf_numBits b, rfl⟩
    | sibNoBase i => rfl

/-! ## `decode` on the leading bytes of each format (rule R61) -/

theorem decode_66_0F (rest : List Byte) : decode (0x66#8 :: 0x0F#8 :: rest) = decodeLegacy [0x66#8] none rest := rfl

theorem decode_66_rex_0F (rex : Byte) (rest : List Byte) (h : isRex rex = true) (hp : isLegacyPrefix rex = false) :
    decode (0x66#8 :: rex :: 0x0F#8 :: rest) = decodeLegacy [0x66#8] (some rex) rest := by
  have h66 : isLegacyPrefix 0x66#8 = true := by decide
  simp [decode, h66, hp, splitRex, h]

theorem decode_C4 (rest : List Byte) : decode (0xC4#8 :: rest) = decodeVex [] none rest := rfl

theorem decode_62 (rest : List Byte) : decode (0x62#8 :: rest) = decodeEvex [] none rest := rfl

/-! ## Lengths -/

theorem disp_bytes_length (d : Disp) : d.bytes.length = d.length := by cases d <;> rfl

theorem fields_tail_length (s : Src) : s.fields.tail.length = s.tailLength := by
  cases s with
  | reg r => rfl
  | mem m =>
    cases m with
    | ripRel d => rfl
    | base b d => exact disp_bytes_length d
    | sib b i d => simp [Src.fields, Src.tailLength, disp_bytes_length, Nat.add_comm]
    | sibNoBase i d => rfl

theorem disp_length_le (d : Disp) : d.length ≤ 4 := by cases d <;> simp [Disp.length]

theorem tailLength_le (s : Src) : s.tailLength ≤ 5 := by
  cases s with
  | reg r => simp [Src.tailLength]
  | mem m =>
    cases m with
    | ripRel d => simp [Src.tailLength]
    | base b d => exact (disp_length_le d).trans (by decide)
    | sib b i d => have := disp_length_le d; simp only [Src.tailLength]; omega
    | sibNoBase i d => simp [Src.tailLength]

end Sys2Proof
end

