-- ==== Sys2Proof/Laws/Operands.lean ====
section
/-! SUPPORT. What reading the source operand can answer: the address check and the value, in the terms of Safety.lean. -/

namespace Sys2Proof.Machine

/-- The offsets that are checked are those rules R34 and R38 count. -/
theorem mem_checkedOffsets (s : State) (c : Conversion) (vl : VLen) (m : Masking) (i : Nat) :
    i ∈ s.checkedOffsets c vl m ↔ s.Counted c.srcw (sourceBytes c vl) m i := by
  unfold State.checkedOffsets State.Counted
  cases m <;> cases h : s.cfg.faultSuppression <;> simp [isMasked, State.maskBit]

/-- The address check passes exactly when every checked byte is readable (rules R33, R40, R126). -/
theorem memoryFault_eq_none (s : State) (b : Bool) (ea : Addr) (nb : Nat) (offs : List Nat) :
    s.memoryFault b ea nb offs = none ↔
      ∀ i ∈ offs, ea.toNat + nb ≤ 2 ^ 64 ∧ canonical (ea + BitVec.ofNat 64 i) = true ∧
        s.accessible (ea + BitVec.ofNat 64 i) = true := by
  unfold State.memoryFault
  cases offs with
  | nil => simp
  | cons a as =>
    rw [if_neg (by simp)]
    split
    · rename_i h
      simp only [reduceCtorEq, false_iff]
      intro hall
      simp only [Bool.or_eq_true, decide_eq_true_eq, List.any_eq_true, Bool.not_eq_true'] at h
      rcases h with h | ⟨i, hi, h⟩
      · have := (hall a (List.mem_cons_self ..)).1; omega
      · have := (hall i hi).2.1; simp_all
    · rename_i h
      simp only [Bool.or_eq_true, decide_eq_true_eq, List.any_eq_true, Bool.not_eq_true', not_or, not_exists, not_and,
        Bool.not_eq_false, Nat.not_lt] at h
      split
      · rename_i i hi
        simp only [reduceCtorEq, false_iff]
        intro hall
        have h1 := List.find?_some hi
        have h2 := (hall i (List.mem_of_find?_eq_some hi)).2.2
        simp_all
      · rename_i hf
        rw [List.find?_eq_none] at hf
        simp only [true_iff]
        exact fun i hi => ⟨h.1, h.2 i hi, by simpa using hf i hi⟩

/-- The address check of a form passes exactly when its operand is readable. -/
theorem memoryFault_eq_none_iff_readable (s : State) (b : Bool) (ea : Addr) (c : Conversion) (vl : VLen) (m : Masking) :
    s.memoryFault b ea (sourceBytes c vl) (s.checkedOffsets c vl m) = none ↔
      s.Readable c.srcw (sourceBytes c vl) m ea := by
  rw [memoryFault_eq_none]
  simp only [mem_checkedOffsets, State.Readable]

theorem sourceBytes_le (c : Conversion) (vl : VLen) : sourceBytes c vl ≤ 32 := by cases c <;> cases vl <;> decide

/-- Byte `i` of what is read is the byte at `ea + i` when that byte is read (rules R32, R33). -/
theorem readBytes_byte (s : State) (ea : Addr) {nb i : Nat} (offs : List Nat) (hnb : nb ≤ 64) (hi : i < nb)
    (hm : i ∈ offs) :
    (s.readBytes ea nb offs).extractLsb' (8 * i) 8 = s.mem.read (ea + BitVec.ofNat 64 i).toNat := by
  have h := elem_pack (fun i => if i ∈ offs then s.mem.read (ea + BitVec.ofNat 64 i).toNat else 0)
    (show nb * 8 ≤ 512 by omega) hi
  simp only [elem, hm, if_true] at h
  rw [Nat.mul_comm]
  exact h

/-- `SourceIs` holds of what reading the source operand answers, and reading it answers when `SourceIs` can hold. -/
theorem sourceValue_ok {s : State} {c : Conversion} {vl : VLen} {m : Masking} {n len : Nat} {src : Src} {S : Vec}
    (h : s.SourceIs c.srcw (sourceBytes c vl) m n len src S) :
    ∃ val, s.sourceValue c vl m n len src = .ok val ∧ s.SourceIs c.srcw (sourceBytes c vl) m n len src val := by
  cases src with
  | reg r => exact ⟨_, rfl, rfl⟩
  | mem op =>
    obtain ⟨hr, hb⟩ := h
    have hf := (memoryFault_eq_none_iff_readable s (stackBase op)
      (s.effectiveAddress n (s.pc + BitVec.ofNat 64 len) op) c vl m).mpr hr
    refine ⟨s.readBytes (s.effectiveAddress n (s.pc + BitVec.ofNat 64 len) op) (sourceBytes c vl)
      (s.checkedOffsets c vl m), by simp only [State.sourceValue, hf], hr, fun i hi => ?_⟩
    exact readBytes_byte s _ _ ((sourceBytes_le c vl).trans (by decide)) hi.1 ((mem_checkedOffsets s c vl m i).mpr hi)

theorem srcw_bytes (c : Conversion) : c.srcw = 8 * (c.srcw / 8) := by cases c <;> rfl

theorem sourceBytes_eq (c : Conversion) (vl : VLen) : sourceBytes c vl = elements c vl * (c.srcw / 8) := by
  cases c <;> cases vl <;> rfl

theorem bytewidth_pos (c : Conversion) : 0 < c.srcw / 8 := by cases c <;> decide

/-- The bytes of element `j` are counted when its mask bit is 1. -/
theorem counted_of_active {s : State} {c : Conversion} {vl : VLen} {m : Masking} {j i : Nat} (hj : j < elements c vl)
    (ha : s.maskBit m j = true) (hi : i < c.srcw / 8) :
    s.Counted c.srcw (sourceBytes c vl) m (j * (c.srcw / 8) + i) := by
  have hdiv : (j * (c.srcw / 8) + i) / (c.srcw / 8) = j := by
    rw [Nat.mul_comm, Nat.mul_add_div (bytewidth_pos c), Nat.div_eq_of_lt hi, Nat.add_zero]
  refine ⟨?_, fun _ => by rw [hdiv]; exact ha⟩
  rw [sourceBytes_eq]
  calc j * (c.srcw / 8) + i < j * (c.srcw / 8) + c.srcw / 8 := by omega
    _ = (j + 1) * (c.srcw / 8) := by rw [Nat.succ_mul]
    _ ≤ elements c vl * (c.srcw / 8) := Nat.mul_le_mul_right _ hj

/-- Two values of one source operand agree on every element whose mask bit is 1. -/
theorem elem_eq_of_sourceIs {s : State} {c : Conversion} {vl : VLen} {m : Masking} {n len : Nat} {src : Src}
    {S S' : Vec} (h : s.SourceIs c.srcw (sourceBytes c vl) m n len src S)
    (h' : s.SourceIs c.srcw (sourceBytes c vl) m n len src S') {j : Nat} (hj : j < elements c vl)
    (ha : s.maskBit m j = true) : elem c.srcw S j = elem c.srcw S' j := by
  cases src with
  | reg r => rw [show S = _ from h, show S' = _ from h']
  | mem op =>
    apply BitVec.eq_of_getLsbD_eq
    intro b hb
    have hc := counted_of_active (i := b / 8) hj ha (by have := srcw_bytes c; omega)
    have e := congrArg (fun x => x.getLsbD (b % 8)) ((h.2 _ hc).trans (h'.2 _ hc).symm)
    simp only [BitVec.getLsbD_extractLsb', show b % 8 < 8 by omega, decide_true, Bool.true_and] at e
    have hidx : 8 * (j * (c.srcw / 8) + b / 8) + b % 8 = j * c.srcw + b := by
      have h1 : 8 * (j * (c.srcw / 8)) = j * c.srcw := by
        conv_rhs => rw [srcw_bytes c]
        ring
      omega
    rw [hidx] at e
    rw [elem_getLsbD, elem_getLsbD, e]

end Sys2Proof.Machine
end

