-- ==== Sys2Proof/Laws/Exec.lean ====
section
/-! SUPPORT. What executing an instruction can do, once for the 36 forms: every meaning is `State.run` with the parameters
of its shape, and `State.run` raises one exception or completes. -/

namespace Sys2Proof

/-- What `v[d]` receives from its old value and the source value, by format (rules R76, R89, R96). -/
def Shape.result (s : Machine.State) : Shape → Vec → Vec → Vec
  | .legacy c _ _ _, old, val => Machine.legacyMerge old (Machine.zx c .v128 val)
  | .vex c wide _ _, _, val =>
    Machine.vexMerge (if wide then .v256 else .v128) (Machine.zx c (if wide then .v256 else .v128) val)
  | .evex c vl m _ _, old, val =>
    Machine.evexMerge c vl (s.maskBit m) (Machine.isZeroing m) old (Machine.zx c vl val)

namespace Machine

/-- The value of the source operand of an instruction in a state, or the memory fault. -/
def State.operand (s : State) (i : Instr) : Except Exception Vec :=
  s.sourceValue i.shape.conv i.shape.vlen i.shape.masking i.shape.dispScale i.length i.shape.src

/-- Every meaning, from the shape of its instruction: the feature of rule R123, the operand of rule R74, the result. -/
theorem exec_eq_run (i : Instr) (s : State) :
    exec i s = s.run (i.shape.requires s.cfg.features) i.shape.dest i.length (s.operand i) (i.shape.result s) := by
  cases i <;> rfl

/-- Reading the operand answers a value of it (rule R74). -/
theorem operand_sourceIs {i : Instr} {s : State} {val : Vec} (h : s.operand i = .ok val) :
    s.SourceIs i.shape.conv.srcw (sourceBytes i.shape.conv i.shape.vlen) i.shape.masking i.shape.dispScale i.length
      i.shape.src val := by
  unfold State.operand State.sourceValue at h
  cases hs : i.shape.src with
  | reg r => rw [hs] at h; cases h; rfl
  | mem op =>
    rw [hs] at h
    simp only at h
    split at h
    · cases h
    · rename_i hf
      cases h
      refine ⟨(memoryFault_eq_none_iff_readable ..).mp hf, fun i hi => ?_⟩
      exact readBytes_byte s _ _ ((sourceBytes_le _ _).trans (by decide)) hi.1 ((mem_checkedOffsets ..).mpr hi)

/-- An operand that has a value can be read, and the value read has the elements of that one wherever the mask bit is 1. -/
theorem operand_ok {i : Instr} {s : State} {S : Vec}
    (h : s.SourceIs i.shape.conv.srcw (sourceBytes i.shape.conv i.shape.vlen) i.shape.masking i.shape.dispScale i.length
      i.shape.src S) :
    ∃ val, s.operand i = .ok val ∧ ∀ j, j < elements i.shape.conv i.shape.vlen → s.maskBit i.shape.masking j = true →
      elem i.shape.conv.srcw val j = elem i.shape.conv.srcw S j := by
  obtain ⟨val, h1, h2⟩ := sourceValue_ok h
  exact ⟨val, h1, fun j hj ha => elem_eq_of_sourceIs h2 h hj ha⟩

/-- The operand of a form with a memory source, from the address check. -/
theorem operand_mem {i : Instr} {s : State} {op : MemOp} (h : i.shape.src = .mem op) :
    s.operand i =
      match s.memoryFault (stackBase op) (s.effectiveAddress i.shape.dispScale (s.pc + BitVec.ofNat 64 i.length) op)
          (sourceBytes i.shape.conv i.shape.vlen)
          (s.checkedOffsets i.shape.conv i.shape.vlen i.shape.masking) with
      | some e => .error e
      | none => .ok (s.readBytes (s.effectiveAddress i.shape.dispScale (s.pc + BitVec.ofNat 64 i.length) op)
          (sourceBytes i.shape.conv i.shape.vlen)
          (s.checkedOffsets i.shape.conv i.shape.vlen i.shape.masking)) := by
  unfold State.operand
  rw [h]
  rfl

/-- The offsets checked rise, so the first one that fails is the lowest (rule R126). -/
theorem checkedOffsets_sorted (s : State) (c : Conversion) (vl : VLen) (m : Masking) :
    (s.checkedOffsets c vl m).Pairwise (· < ·) := by
  unfold State.checkedOffsets
  split
  · exact List.pairwise_lt_range.filter _
  · exact List.pairwise_lt_range

/-- What a form writes depends on the source elements whose mask bit is 1 alone. -/
theorem result_congr {i : Instr} {s : State} {old val val' : Vec}
    (h : ∀ j, j < elements i.shape.conv i.shape.vlen → s.maskBit i.shape.masking j = true →
      elem i.shape.conv.srcw val j = elem i.shape.conv.srcw val' j) :
    i.shape.result s old val = i.shape.result s old val' := by
  cases hs : i.shape with
  | legacy c r d src =>
    rw [hs] at h
    simp only [Shape.result]
    rw [zx_congr c .v128 fun j hj => h j hj rfl]
  | vex c w d src =>
    rw [hs] at h
    simp only [Shape.result]
    rw [zx_congr c (if w then .v256 else .v128) fun j hj => h j hj rfl]
  | evex c vl m d src =>
    rw [hs] at h
    refine pack_congr fun j hj => ?_
    split
    · rename_i ha
      have h' : elem c.srcw val j = elem c.srcw val' j := h j hj ha
      rw [elem_zx _ _ _ hj, elem_zx _ _ _ hj, h']
    · rfl

/-- The EVEX merge without a writemask is ZX (rules R96, R97). -/
theorem evexMerge_unmasked (c : Conversion) (vl : VLen) (z : Bool) (old val : Vec) :
    evexMerge c vl (fun _ => true) z old (zx c vl val) = zx c vl val :=
  pack_congr fun _ hj => elem_zx c vl val hj

/-- `State.run` answers a next state in one of three ways. -/
theorem run_cases {s t : State} {en : Bool} {d : VReg} {len : Nat} {src : Except Exception Vec}
    {f : Vec → Vec → Vec} (h : s.run en d len src f = .next t) :
    (en = false ∧ t = s.raise .ud) ∨ (∃ e, en = true ∧ src = .error e ∧ t = s.raise e) ∨
      ∃ val, en = true ∧ src = .ok val ∧ t = s.complete d (f (s.vreg d) val) len := by
  unfold State.run at h
  split at h
  · rename_i hen
    split at h
    · exact .inr (.inl ⟨_, hen, rfl, by cases h; rfl⟩)
    · exact .inr (.inr ⟨_, hen, rfl, by cases h; rfl⟩)
  · exact .inl ⟨by simp_all, by cases h; rfl⟩

/-- Executing an instruction raises `#UD`, raises the memory fault of its operand, or completes. -/
theorem exec_cases {i : Instr} {s t : State} (h : exec i s = .next t) :
    (i.shape.requires s.cfg.features = false ∧ t = s.raise .ud) ∨
    (∃ e, i.shape.requires s.cfg.features = true ∧ s.operand i = .error e ∧ t = s.raise e) ∨
    ∃ val, i.shape.requires s.cfg.features = true ∧ s.operand i = .ok val ∧
      t = s.complete i.shape.dest (i.shape.result s (s.vreg i.shape.dest) val) i.length := by
  rw [exec_eq_run] at h
  exact run_cases h

/-- Executing an instruction always answers a next state. -/
theorem exec_next (i : Instr) (s : State) : ∃ t, exec i s = .next t := by
  rw [exec_eq_run]
  unfold State.run
  split
  · split <;> exact ⟨_, rfl⟩
  · exact ⟨_, rfl⟩

/-- A form whose feature is missing raises `#UD`. -/
theorem exec_disabled {i : Instr} {s : State} (h : i.shape.requires s.cfg.features = false) :
    exec i s = .next (s.raise .ud) := by
  simp [exec_eq_run, State.run, h]

/-- A form whose operand can be read completes. -/
theorem exec_completes {i : Instr} {s : State} {val : Vec} (h : i.shape.requires s.cfg.features = true)
    (hv : s.operand i = .ok val) :
    exec i s = .next (s.complete i.shape.dest (i.shape.result s (s.vreg i.shape.dest) val) i.length) := by
  simp [exec_eq_run, State.run, h, hv]

/-- A form whose operand cannot be read raises that fault. -/
theorem exec_faults {i : Instr} {s : State} {e : Exception} (h : i.shape.requires s.cfg.features = true)
    (hv : s.operand i = .error e) : exec i s = .next (s.raise e) := by
  simp [exec_eq_run, State.run, h, hv]

/-! ### The same form with another source operand -/

@[simp] theorem withSrc_conv (sh : Shape) (src : Src) : (sh.withSrc src).conv = sh.conv := by cases sh <;> rfl
@[simp] theorem withSrc_vlen (sh : Shape) (src : Src) : (sh.withSrc src).vlen = sh.vlen := by cases sh <;> rfl
@[simp] theorem withSrc_masking (sh : Shape) (src : Src) : (sh.withSrc src).masking = sh.masking := by cases sh <;> rfl
@[simp] theorem withSrc_dispScale (sh : Shape) (src : Src) : (sh.withSrc src).dispScale = sh.dispScale := by
  cases sh <;> rfl
@[simp] theorem withSrc_dest (sh : Shape) (src : Src) : (sh.withSrc src).dest = sh.dest := by cases sh <;> rfl
@[simp] theorem withSrc_src (sh : Shape) (src : Src) : (sh.withSrc src).src = src := by cases sh <;> rfl
@[simp] theorem withSrc_result (sh : Shape) (src : Src) (s : State) : (sh.withSrc src).result s = sh.result s := by
  cases sh <;> rfl
@[simp] theorem withSrc_requires (sh : Shape) (src : Src) (f : Features) :
    (sh.withSrc src).requires f = sh.requires f := by
  cases sh with
  | legacy c rex d s => rfl
  | vex c wide d s => rfl
  | evex c vl m d s => cases c <;> cases vl <;> rfl

/-- Two instructions of one form whose operand reads answer alike have the same effect but for `pc`. -/
theorem exec_sameButPc {i j : Instr} {src : Src} {s : State} (h : j.shape = i.shape.withSrc src)
    (ho : s.operand j = s.operand i) : SameButPc (exec i s) (exec j s) := by
  rw [exec_eq_run, exec_eq_run, ho, h]
  simp only [withSrc_requires, withSrc_dest, withSrc_result]
  unfold State.run
  split
  · split <;> exact ⟨_, _, rfl, rfl, rfl⟩
  · exact ⟨_, _, rfl, rfl, rfl⟩

/-- The frame of `complete` (rule R26). -/
theorem complete_sameBut (s : State) (d : VReg) (val : Vec) (len : Nat) : SameBut s (s.complete d val len) d where
  vregs r hr := complete_vreg_ne s d r val len hr
  kregs _ := rfl
  gregs _ := rfl
  mem _ := rfl
  cfg := rfl

/-- The cases of a step. -/
theorem step_cases {s t : State} (h : step s = .next t) :
    s.fault = none ∧ s.pc.toNat ≠ s.textEnd ∧
      ((∃ i rest, s.verdict = .instr i rest ∧ exec i s = .next t) ∨ (s.verdict = .ud ∧ t = s.raise .ud)) := by
  unfold step at h
  split at h
  · cases h
  · rename_i hf
    split at h
    · cases h
    · rename_i hp
      refine ⟨hf, hp, ?_⟩
      split at h
      · exact .inl ⟨_, _, by assumption, h⟩
      · exact .inr ⟨by assumption, by cases h; rfl⟩
      · cases h

end Machine

end Sys2Proof
end

