-- ==== Sys2Proof/Laws/Memory.lean ====
section
/-! SUPPORT. The laws of memory: a write keeps the canonical form, a read after a write to the same address gives the byte
written, and every other address reads as before. -/

namespace Sys2Proof.Machine

/-- A smaller lower bound is a weaker demand. -/
theorem Memory.wfFrom_mono {lo lo' : Nat} {m : Memory} (h : lo ≤ lo') (hm : m.wfFrom lo' = true) :
    m.wfFrom lo = true := by
  cases m with
  | nil => rfl
  | cons c rest =>
    simp only [Memory.wfFrom, Bool.and_eq_true, decide_eq_true_eq] at hm ⊢
    exact ⟨⟨⟨h.trans hm.1.1.1, hm.1.1.2⟩, hm.1.2⟩, hm.2⟩

/-- Putting a cell in front of a canonical memory of higher addresses keeps the form. -/
theorem Memory.cons_wfFrom {lo a : Nat} {b : Byte} {m : Memory} (hlo : lo ≤ a) (ha : a < 2 ^ 64)
    (hm : m.wfFrom (a + 1) = true) : (Memory.cons a b m).wfFrom lo = true := by
  unfold Memory.cons
  split
  · exact wfFrom_mono (by omega) hm
  · simp_all [Memory.wfFrom]

/-- A write keeps the canonical form. -/
theorem Memory.write_wfFrom {lo a : Nat} {b : Byte} {m : Memory} (hlo : lo ≤ a) (ha : a < 2 ^ 64)
    (hm : m.wfFrom lo = true) : (m.write a b).wfFrom lo = true := by
  induction m generalizing lo with
  | nil => exact cons_wfFrom hlo ha rfl
  | cons c rest ih =>
    have hm' := hm
    simp only [Memory.wfFrom, Bool.and_eq_true, decide_eq_true_eq, bne_iff_ne, ne_eq] at hm
    obtain ⟨⟨⟨h1, h2⟩, h3⟩, h4⟩ := hm
    simp only [Memory.write]
    split
    · refine cons_wfFrom hlo ha ?_
      simp only [Memory.wfFrom, Bool.and_eq_true, decide_eq_true_eq, bne_iff_ne, ne_eq]
      exact ⟨⟨⟨by omega, h2⟩, h3⟩, h4⟩
    · split
      · subst a; exact cons_wfFrom hlo ha h4
      · simp only [Memory.wfFrom, Bool.and_eq_true, decide_eq_true_eq, bne_iff_ne, ne_eq]
        exact ⟨⟨⟨h1, h2⟩, h3⟩, ih (by omega) h4⟩

/-- A write at a 64-bit address keeps memory in canonical form. -/
theorem Memory.write_wf {a : Nat} {b : Byte} {m : Memory} (ha : a < 2 ^ 64) (hm : m.wf = true) :
    (m.write a b).wf = true :=
  write_wfFrom (Nat.zero_le a) ha hm

/-- Laying out bytes inside the address space keeps memory in canonical form. -/
theorem Memory.load_wf {a : Nat} {bs : List Byte} {m : Memory} (ha : a + bs.length ≤ 2 ^ 64) (hm : m.wf = true) :
    (m.load a bs).wf = true := by
  induction bs generalizing a m with
  | nil => exact hm
  | cons b bs ih =>
    simp only [List.length_cons] at ha
    exact ih (by omega) (write_wf (by omega) hm)

/-- Below its lower bound a canonical memory lists nothing. -/
theorem Memory.read_below {lo a : Nat} {m : Memory} (h : a < lo) (hm : m.wfFrom lo = true) :
    m.read a = unlistedByte := by
  induction m generalizing lo with
  | nil => rfl
  | cons c rest ih =>
    simp only [Memory.wfFrom, Bool.and_eq_true, decide_eq_true_eq] at hm
    simp only [Memory.read]
    rw [if_neg (by omega)]
    exact ih (by omega) hm.2

/-- Reading where a cell was put gives its byte, elsewhere what the rest gives. -/
theorem Memory.read_cons {lo a x : Nat} {b : Byte} {m : Memory} (hlo : a < lo) (hm : m.wfFrom lo = true) :
    (Memory.cons a b m).read x = if x = a then b else m.read x := by
  unfold Memory.cons
  split
  · rename_i hb
    split
    · rename_i hx; subst hx; rw [read_below hlo hm, hb]
    · rfl
  · simp only [Memory.read, eq_comm]

/-- A read after a write, in a canonical memory: the byte written at its address, the old byte elsewhere. -/
theorem Memory.read_write_from {lo a x : Nat} {b : Byte} {m : Memory} (hlo : lo ≤ a) (hm : m.wfFrom lo = true) :
    (m.write a b).read x = if x = a then b else m.read x := by
  induction m generalizing lo with
  | nil => exact read_cons (Nat.lt_succ_self a) rfl
  | cons c rest ih =>
    simp only [Memory.wfFrom, Bool.and_eq_true, decide_eq_true_eq, bne_iff_ne, ne_eq] at hm
    obtain ⟨⟨⟨h1, h2⟩, h3⟩, h4⟩ := hm
    simp only [Memory.write]
    split
    · rename_i hlt
      refine read_cons (Nat.lt_succ_self a) ?_
      simp only [Memory.wfFrom, Bool.and_eq_true, decide_eq_true_eq, bne_iff_ne, ne_eq]
      exact ⟨⟨⟨by omega, h2⟩, h3⟩, h4⟩
    · split
      · rename_i heq
        subst heq
        rw [read_cons (Nat.lt_succ_self _) h4]
        by_cases hx : x = c.1
        · simp [hx]
        · simp [Memory.read, hx, Ne.symm hx]
      · rename_i hne
        simp only [Memory.read]
        by_cases hc : c.1 = x
        · subst hc; simp [Ne.symm hne]
        · simp only [hc, if_false]; exact ih (by omega) h4

/-- A read after a write to the same address gives the byte written. -/
theorem Memory.read_write_self {a : Nat} {b : Byte} {m : Memory} (hm : m.wf = true) : (m.write a b).read a = b := by
  rw [read_write_from (Nat.zero_le a) hm, if_pos rfl]

/-- A write leaves every other address alone. -/
theorem Memory.read_write_ne {a x : Nat} {b : Byte} {m : Memory} (hm : m.wf = true) (h : x ≠ a) :
    (m.write a b).read x = m.read x := by
  rw [read_write_from (Nat.zero_le a) hm, if_neg h]

end Sys2Proof.Machine
end

