-- ==== Sys2Proof/Laws/Reading.lean ====
section
/-! SUPPORT. What the decoder answers, read backwards: the instruction each format makes, the operands read, the bytes
they consumed, and the three parts (prefix run, REX, rest) of a byte string. -/

namespace Sys2Proof

open Machine

/-! ## The instruction a form makes -/

theorem mkLegacy_shape (c : Conversion) (r : Bool) (d : VReg) (s : Src) :
    (mkLegacy c r d s).shape = .legacy c r d s := by cases c <;> rfl

theorem mkVex_shape (c : Conversion) (w : Bool) (d : VReg) (s : Src) :
    (mkVex c w d s).shape = .vex c w d s := by cases c <;> cases w <;> rfl

theorem mkEvex_shape (c : Conversion) (vl : VLen) (m : Masking) (d : VReg) (s : Src) :
    (mkEvex c vl m d s).shape = .evex c vl m d s := by cases c <;> cases vl <;> rfl

/-- The instruction of a shape. -/
def Shape.toInstr : Shape → Instr
  | .legacy c rex d s => mkLegacy c rex d s
  | .vex c wide d s => mkVex c wide d s
  | .evex c vl m d s => mkEvex c vl m d s

theorem length_mkLegacy (c : Conversion) (rex : Bool) (d : VReg) (s : Src) :
    (mkLegacy c rex d s).length = legacyLength rex s := by cases c <;> rfl

theorem length_mkVex (c : Conversion) (wide : Bool) (d : VReg) (s : Src) : (mkVex c wide d s).length = vexLength s := by
  cases c <;> cases wide <;> rfl

theorem length_mkEvex (c : Conversion) (vl : VLen) (m : Masking) (d : VReg) (s : Src) :
    (mkEvex c vl m d s).length = evexLength s := by cases c <;> cases vl <;> rfl

/-! ## Register numbers and displacements (rules R54, R55) -/

theorem vregOf_val (h4 h3 : Bool) (lo : BitVec 3) : (vregOf h4 h3 lo).val = 16 * h4.toNat + 8 * h3.toNat + lo.toNat := by
  revert h4 h3 lo; decide

theorem gregOf_val (h3 : Bool) (lo : BitVec 3) : (gregOf h3 lo).val = 8 * h3.toNat + lo.toNat := by
  revert h3 lo; decide

/-- What a one-byte displacement is read from. -/
theorem readDisp8_eq {bs : List Byte} {p : BitVec 8 × List Byte} (h : readDisp8 bs = some p) : bs = p.1 :: p.2 := by
  cases bs with
  | nil => cases h
  | cons b t => cases h; rfl

/-- What a four-byte displacement is read from, the least significant byte first (rule R55). -/
theorem readDisp32_eq {bs : List Byte} {p : BitVec 32 × List Byte} (h : readDisp32 bs = some p) :
    ∃ a b c d, bs = a :: b :: c :: d :: p.2 ∧ p.1 = d ++ c ++ b ++ a := by
  unfold readDisp32 at h
  split at h
  · cases h; exact ⟨_, _, _, _, rfl, rfl⟩
  · cases h

/-- The bytes a displacement consumes, and the `mod` values without one (rule R52). -/
theorem readDisp_len {mod : BitVec 2} {bs : List Byte} {p : Disp × List Byte} (h : readDisp mod bs = some p) :
    (∃ used, bs = used ++ p.2 ∧ used.length = p.1.length) ∧ (p.1 = .none → mod ≠ 1#2 ∧ mod ≠ 2#2) := by
  unfold readDisp at h
  split at h
  · rw [Option.map_eq_some_iff] at h
    obtain ⟨q, hq, rfl⟩ := h
    rw [readDisp8_eq hq]
    exact ⟨⟨[q.1], rfl, rfl⟩, by simp⟩
  · split at h
    · rw [Option.map_eq_some_iff] at h
      obtain ⟨q, hq, rfl⟩ := h
      obtain ⟨a, b, c, d, e, _⟩ := readDisp32_eq hq
      rw [e]
      exact ⟨⟨[a, b, c, d], rfl, rfl⟩, by simp⟩
    · cases h
      exact ⟨⟨[], rfl, rfl⟩, fun _ => ⟨by assumption, by assumption⟩⟩

theorem mod_cases (m : BitVec 2) : m ≠ 1#2 → m ≠ 2#2 → m ≠ 3#2 → m = 0#2 := by revert m; decide

/-- Which low bits of a base register number the checks of WellFormed refuse. -/
theorem gregOf_base (b : Bool) (r : BitVec 3) :
    plainBaseOk (gregOf b r) = (r != 4#3) ∧ baseDispOk (gregOf b r) .none = (r != 5#3) := by
  revert b r; decide

theorem sibIndex_ok (x : Bool) (sib : Byte) : indexOk (sibIndex x sib) = true := by
  unfold sibIndex
  split
  · rfl
  · rename_i h
    simp only [indexOk, bne_iff_ne, ne_eq]
    intro hv; exact h (Fin.ext hv)

/-! ## Operands (rules R52, R53, R54) -/

/-- A SIB operand read is well formed, and how many bytes it consumed. -/
theorem readSib_spec {mod : BitVec 2} {e : Ext} {sib : Byte} {bs : List Byte} {p : MemOp × List Byte}
    (h : readSib mod e sib bs = some p) (hm : mod ≠ 3#2) :
    p.1.wf = true ∧ ∃ used, bs = used ++ p.2 ∧ used.length + 1 = (Src.mem p.1).tailLength := by
  unfold readSib at h
  split at h
  · rw [Option.map_eq_some_iff] at h
    obtain ⟨q, hq, rfl⟩ := h
    obtain ⟨a, b, c, d, ee, _⟩ := readDisp32_eq hq
    rw [ee]
    exact ⟨sibIndex_ok _ _, [a, b, c, d], rfl, rfl⟩
  · rename_i hne
    rw [Option.map_eq_some_iff] at h
    obtain ⟨q, hq, rfl⟩ := h
    obtain ⟨⟨u, hu, hl⟩, hn⟩ := readDisp_len hq
    refine ⟨?_, u, hu, by simp [Src.tailLength, hl, Nat.add_comm]⟩
    simp only [MemOp.wf, sibIndex_ok, Bool.and_true]
    cases hq1 : q.1 with
    | none =>
      rw [(gregOf_base _ _).2, bne_iff_ne]
      intro h5
      exact hne ⟨mod_cases _ (hn hq1).1 (hn hq1).2 hm, h5⟩
    | disp8 => rfl
    | disp32 => rfl

/-- A memory operand read is well formed, and how many bytes it consumed. -/
theorem readMem_spec {mod : BitVec 2} {rm : BitVec 3} {e : Ext} {bs : List Byte} {p : MemOp × List Byte}
    (h : readMem mod rm e bs = some p) (hm : mod ≠ 3#2) :
    p.1.wf = true ∧ ∃ used, bs = used ++ p.2 ∧ used.length = (Src.mem p.1).tailLength := by
  unfold readMem at h
  split at h
  · split at h
    · obtain ⟨hw, u, hu, hl⟩ := readSib_spec h hm
      exact ⟨hw, _ :: u, by rw [hu]; rfl, by simpa using hl⟩
    · cases h
  · rename_i h4
    split at h
    · rw [Option.map_eq_some_iff] at h
      obtain ⟨q, hq, rfl⟩ := h
      obtain ⟨a, b, c, d, ee, _⟩ := readDisp32_eq hq
      rw [ee]
      exact ⟨rfl, [a, b, c, d], rfl, rfl⟩
    · rename_i hne
      rw [Option.map_eq_some_iff] at h
      obtain ⟨q, hq, rfl⟩ := h
      obtain ⟨⟨u, hu, hl⟩, hn⟩ := readDisp_len hq
      refine ⟨?_, u, hu, hl⟩
      simp only [MemOp.wf, Bool.and_eq_true]
      refine ⟨by rw [(gregOf_base _ _).1, bne_iff_ne]; exact h4, ?_⟩
      cases hq1 : q.1 with
      | none =>
        rw [(gregOf_base _ _).2, bne_iff_ne]
        intro h5
        exact hne ⟨mod_cases _ (hn hq1).1 (hn hq1).2 hm, h5⟩
      | disp8 => rfl
      | disp32 => rfl

theorem vregOf_lt16 (h3 : Bool) (lo : BitVec 3) : (vregOf false h3 lo).val < 16 := by revert h3 lo; decide

theorem vregOf_lt8 (lo : BitVec 3) : (vregOf false false lo).val < 8 := by revert lo; decide

theorem gregOf_lt8 (lo : BitVec 3) : (gregOf false lo).val < 8 := by revert lo; decide

theorem sibIndex_low (sib : Byte) : indexLow (sibIndex false sib) = true := by
  unfold sibIndex
  split
  · rfl
  · simpa [indexLow] using gregOf_lt8 _

/-- Without extension bits a memory operand names registers below 8. -/
theorem readMem_low {mod : BitVec 2} {rm : BitVec 3} {e : Ext} {bs : List Byte} {p : MemOp × List Byte}
    (h : readMem mod rm e bs = some p) (hx : e.x = false) (hb : e.b = false) : (Src.mem p.1).low = true := by
  unfold readMem readSib at h
  rw [hx, hb] at h
  repeat' split at h
  all_goals first
    | cases h
    | (rw [Option.map_eq_some_iff] at h; obtain ⟨q, hq, rfl⟩ := h; simp [Src.low, sibIndex_low, gregOf_lt8])

/-- What reading the operands can answer: a well-formed source, the bytes consumed, and the reach of the register
numbers by the extension bits. -/
theorem readOperands_spec {e : Ext} {bs : List Byte} {d : VReg} {s : Src} {rest : List Byte}
    (h : readOperands e bs = some (d, s, rest)) :
    s.wf = true ∧ (∃ used, bs = used ++ rest ∧ used.length = 1 + s.tailLength) ∧
    (e.r4 = false → d.val < 16) ∧ (e.s4 = false → s.vregBelow 16 = true) ∧
    (e.r4 = false → e.r = false → d.val < 8) ∧ (e.s4 = false → e.x = false → e.b = false → s.low = true) := by
  unfold readOperands at h
  split at h
  · cases h
  · split at h
    · cases h
      refine ⟨rfl, ⟨[_], rfl, rfl⟩, ?_, ?_, ?_, ?_⟩
      · intro h; rw [h]; exact vregOf_lt16 _ _
      · intro h; rw [h]; simpa [Src.vregBelow] using vregOf_lt16 _ _
      · intro h h'; rw [h, h']; exact vregOf_lt8 _
      · intro h _ h'; rw [h, h']; simpa [Src.low] using vregOf_lt8 _
    · rename_i hm
      rw [Option.map_eq_some_iff] at h
      obtain ⟨q, hq, e1⟩ := h
      cases e1
      obtain ⟨hw, u, hu, hl⟩ := readMem_spec hq hm
      refine ⟨hw, ⟨_ :: u, by rw [hu]; rfl, by simp [hl, Nat.add_comm]⟩, ?_, ?_, ?_, ?_⟩
      · intro h; rw [h]; exact vregOf_lt16 _ _
      · intro h; rfl
      · intro h h'; rw [h, h']; exact vregOf_lt8 _
      · intro _ h h'; exact readMem_low hq h h'

/-! ## The three formats, inverted -/

theorem maskingOf_wf (z : Bool) (a : BitVec 3) : (maskingOf z a).wf = true := by revert z a; decide

/-- The instruction a legacy form answers, from its ModRM byte on. -/
theorem legacyForm_inv {c : Conversion} {rex : Option Byte} {bs : List Byte} {i : Instr} {rest : List Byte}
    (h : legacyForm c rex bs = .instr i rest) :
   ∃ d s, readOperands (legacyExt rex) bs = some (d, s, rest) ∧ i = mkLegacy c rex.isSome d s := by
  unfold legacyForm at h
  split at h
  · cases h
  · cases h; exact ⟨_, _, by assumption, rfl⟩

/-- The instruction a VEX form answers, from its ModRM byte on. -/
theorem vexForm_inv {c : Conversion} {v1 v2 : Byte} {bs : List Byte} {i : Instr} {rest : List Byte}
    (h : vexForm c v1 v2 bs = .instr i rest) :
   ∃ d s, readOperands (vexExt v1) bs = some (d, s, rest) ∧ i = mkVex c (bit v2 2) d s ∧ bits v2 3 4 = 15#4 := by
  unfold vexForm at h
  split at h
  · cases h
  · split at h
    · cases h; exact ⟨_, _, by assumption, rfl, by assumption⟩
    · cases h

/-- The instruction an EVEX form answers, from its ModRM byte on. -/
theorem evexForm_inv {c : Conversion} {p0 p1 p2 : Byte} {bs : List Byte} {i : Instr} {rest : List Byte}
    (h : evexForm c p0 p1 p2 bs = .instr i rest) :
   ∃ d s vl, readOperands (evexExt p0) bs = some (d, s, rest) ∧ vlenOf (bits p2 5 2) = some vl ∧ evexFieldsOk c p1 p2 = true ∧
     i = mkEvex c vl (maskingOf (bit p2 7) (bits p2 0 3)) d s := by
  unfold evexForm at h
  split at h
  · cases h
  · split at h
    · cases h
    · split at h
      · cases h; exact ⟨_, _, _, by assumption, by assumption, by assumption, rfl⟩
      · cases h

/-- What follows `0F` in a legacy instruction. -/
theorem decodeLegacy_inv {run : List Byte} {rex : Option Byte} {bs : List Byte} {i : Instr} {rest : List Byte}
    (h : decodeLegacy run rex bs = .instr i rest) :
   ∃ op c tl d s, bs = 0x38#8 :: op :: tl ∧ conversionOf op = some c ∧ run = [0x66#8] ∧
     readOperands (legacyExt rex) tl = some (d, s, rest) ∧ i = mkLegacy c rex.isSome d s := by
  unfold decodeLegacy at h
  repeat' split at h
  all_goals try cases h
  subst_vars
  obtain ⟨d, s, h1, h2⟩ := legacyForm_inv h
  exact ⟨_, _, _, d, s, rfl, by assumption, rfl, h1, h2⟩

theorem prefixedVector_ne {run : List Byte} {rex : Option Byte} {i : Instr} {rest : List Byte} :
    prefixedVector run rex ≠ .instr i rest := by
  unfold prefixedVector; split <;> simp

/-- What follows `C4` in a VEX instruction. -/
theorem decodeVex_inv {run : List Byte} {rex : Option Byte} {bs : List Byte} {i : Instr} {rest : List Byte}
    (h : decodeVex run rex bs = .instr i rest) :
   ∃ v1 v2 op c tl d s, bs = v1 :: v2 :: op :: tl ∧ conversionOf op = some c ∧ run = [] ∧ rex = none ∧
     readOperands (vexExt v1) tl = some (d, s, rest) ∧ i = mkVex c (bit v2 2) d s ∧ bits v2 3 4 = 15#4 := by
  unfold decodeVex at h
  repeat' split at h
  all_goals first | cases h | exact absurd h prefixedVector_ne | skip
  obtain ⟨d, s, h1, h2, h3⟩ := vexForm_inv h
  rename_i hc _ hr
  exact ⟨_, _, _, _, _, d, s, rfl, by assumption, hr.1, hr.2, h1, h2, h3⟩

/-- What follows `62` in an EVEX instruction. -/
theorem decodeEvex_inv {run : List Byte} {rex : Option Byte} {bs : List Byte} {i : Instr} {rest : List Byte}
    (h : decodeEvex run rex bs = .instr i rest) :
   ∃ p0 p1 p2 op c tl d s vl, bs = p0 :: p1 :: p2 :: op :: tl ∧ conversionOf op = some c ∧ run = [] ∧ rex = none ∧
     readOperands (evexExt p0) tl = some (d, s, rest) ∧ vlenOf (bits p2 5 2) = some vl ∧ evexFieldsOk c p1 p2 = true ∧
     i = mkEvex c vl (maskingOf (bit p2 7) (bits p2 0 3)) d s := by
  unfold decodeEvex at h
  repeat' split at h
  all_goals first | cases h | exact absurd h prefixedVector_ne | skip
  obtain ⟨d, s, vl, h1, h2, h3, h4⟩ := evexForm_inv h
  rename_i hc _ _ hr
  exact ⟨_, _, _, _, _, _, d, s, vl, rfl, by assumption, hr.1, hr.2, h1, h2, h3, h4⟩

/-! ## Prefix run, REX and rest (rule R61) -/

theorem splitRex_spec (bs : List Byte) : (splitRex bs).1.toList ++ (splitRex bs).2 = bs := by
  cases bs with
  | nil => rfl
  | cons b t => simp only [splitRex]; split <;> rfl

/-- Decoding a byte string in its three parts. -/
theorem decode_split (run : List Byte) (rex : Option Byte) (bs : List Byte) (hrun : ∀ b ∈ run, isLegacyPrefix b = true)
    (hrex : ∀ r, rex = some r → isRex r = true) (hbs : rex = none → StartsRest bs) :
    decode (run ++ rex.toList ++ bs) =
      match bs with
      | [] => .refused .runsOffText
      | b :: rest =>
        if b = 0x0F#8 then decodeLegacy run rex rest
        else if b = 0xC4#8 then decodeVex run rex rest
        else if b = 0x62#8 then decodeEvex run rex rest
        else .refused .notInFamily := by
  have key : ∀ tl : List Byte, (∀ b t, tl = b :: t → isLegacyPrefix b = false) →
      (run ++ tl).dropWhile isLegacyPrefix = tl ∧ (run ++ tl).takeWhile isLegacyPrefix = run := by
    intro tl htl
    rw [List.dropWhile_append_of_pos hrun, List.takeWhile_append_of_pos hrun]
    cases tl with
    | nil => simp
    | cons b t => simp [htl b t rfl]
  have hrp : ∀ b : Byte, isRex b = true → isLegacyPrefix b = false := by decide
  rw [List.append_assoc]
  obtain ⟨h1, h2⟩ := key (rex.toList ++ bs) (by
    intro b t e
    cases rex with
    | some r => simp at e; rw [← e.1]; exact hrp r (hrex r rfl)
    | none =>
      simp at e; have := hbs rfl; rw [e] at this; exact this.1)
  unfold decode
  rw [h1, h2]
  cases rex with
  | some r =>
    simp only [Option.toList_some, List.cons_append, List.nil_append, splitRex, hrex r rfl, if_true]
    cases bs <;> rfl
  | none =>
    simp only [Option.toList_none, List.nil_append]
    cases bs with
    | nil => rfl
    | cons b t =>
      have := (hbs rfl).2
      simp only [splitRex, this, Bool.false_eq_true, if_false]

/-- A VEX or EVEX form under REX, 66h, F2h, F3h or F0h is `#UD`. -/
theorem prefixed_ud (run : List Byte) (rex : Option Byte) :
    (rex ≠ none ∨ 0x66#8 ∈ run ∨ 0xF2#8 ∈ run ∨ 0xF3#8 ∈ run ∨ 0xF0#8 ∈ run) → prefixedVector run rex = .ud := by
  intro h
  unfold prefixedVector
  rw [if_pos]
  rcases h with h | h
  · cases rex <;> simp_all
  · rw [Bool.or_eq_true, List.any_eq_true]
    right
    rcases h with h | h | h | h <;> exact ⟨_, h, by decide⟩

/-- A VEX or EVEX form under other prefixes is refused. -/
theorem prefixed_ref (run : List Byte) (rex : Option Byte) :
    ¬(rex ≠ none ∨ 0x66#8 ∈ run ∨ 0xF2#8 ∈ run ∨ 0xF3#8 ∈ run ∨ 0xF0#8 ∈ run) → ∃ r, prefixedVector run rex = .refused r := by
  intro h
  unfold prefixedVector
  rw [if_neg]
  · exact ⟨_, rfl⟩
  · intro hc
    apply h
    rw [Bool.or_eq_true, List.any_eq_true] at hc
    rcases hc with hc | ⟨b, hb, hc⟩
    · left; cases rex <;> simp_all
    · right
      simp only [isLockOrRep, Bool.or_eq_true, beq_iff_eq] at hc
      rcases hc with rfl | (rfl | rfl) | rfl <;> simp [hb]

theorem bits4 (p0 : Byte) : bits p0 0 4 = 2#4 ↔ bits p0 0 2 = 2#2 ∧ bits p0 2 2 = 0#2 := by revert p0; decide

theorem bits3 (p0 : Byte) : bits p0 0 3 = 5#3 ↔ bits p0 0 2 = 1#2 ∧ bit p0 2 = true := by revert p0; decide

end Sys2Proof
end

