-- ==== Sys2Proof/Laws/PerInstr.lean ====
section
/-! SUPPORT. The per-instruction family `Rebuild`: the shape of an instruction says which instruction it is. -/

namespace Sys2Proof.Laws.Rebuild

/-- Rebuilding an instruction from its shape gives the instruction back. -/
def Statement (i : Instr) : Prop := i.shape.toInstr = i

theorem pmovzxbw (rex : Bool) (d : VReg) (src : Src) : Statement (.pmovzxbw rex d src) := rfl
theorem pmovzxbd (rex : Bool) (d : VReg) (src : Src) : Statement (.pmovzxbd rex d src) := rfl
theorem pmovzxbq (rex : Bool) (d : VReg) (src : Src) : Statement (.pmovzxbq rex d src) := rfl
theorem pmovzxwd (rex : Bool) (d : VReg) (src : Src) : Statement (.pmovzxwd rex d src) := rfl
theorem pmovzxwq (rex : Bool) (d : VReg) (src : Src) : Statement (.pmovzxwq rex d src) := rfl
theorem pmovzxdq (rex : Bool) (d : VReg) (src : Src) : Statement (.pmovzxdq rex d src) := rfl
theorem vpmovzxbwVex128 (d : VReg) (src : Src) : Statement (.vpmovzxbwVex128 d src) := rfl
theorem vpmovzxbdVex128 (d : VReg) (src : Src) : Statement (.vpmovzxbdVex128 d src) := rfl
theorem vpmovzxbqVex128 (d : VReg) (src : Src) : Statement (.vpmovzxbqVex128 d src) := rfl
theorem vpmovzxwdVex128 (d : VReg) (src : Src) : Statement (.vpmovzxwdVex128 d src) := rfl
theorem vpmovzxwqVex128 (d : VReg) (src : Src) : Statement (.vpmovzxwqVex128 d src) := rfl
theorem vpmovzxdqVex128 (d : VReg) (src : Src) : Statement (.vpmovzxdqVex128 d src) := rfl
theorem vpmovzxbwVex256 (d : VReg) (src : Src) : Statement (.vpmovzxbwVex256 d src) := rfl
theorem vpmovzxbdVex256 (d : VReg) (src : Src) : Statement (.vpmovzxbdVex256 d src) := rfl
theorem vpmovzxbqVex256 (d : VReg) (src : Src) : Statement (.vpmovzxbqVex256 d src) := rfl
theorem vpmovzxwdVex256 (d : VReg) (src : Src) : Statement (.vpmovzxwdVex256 d src) := rfl
theorem vpmovzxwqVex256 (d : VReg) (src : Src) : Statement (.vpmovzxwqVex256 d src) := rfl
theorem vpmovzxdqVex256 (d : VReg) (src : Src) : Statement (.vpmovzxdqVex256 d src) := rfl
theorem vpmovzxbwEvex128 (m : Masking) (d : VReg) (src : Src) : Statement (.vpmovzxbwEvex128 m d src) := rfl
theorem vpmovzxbdEvex128 (m : Masking) (d : VReg) (src : Src) : Statement (.vpmovzxbdEvex128 m d src) := rfl
theorem vpmovzxbqEvex128 (m : Masking) (d : VReg) (src : Src) : Statement (.vpmovzxbqEvex128 m d src) := rfl
theorem vpmovzxwdEvex128 (m : Masking) (d : VReg) (src : Src) : Statement (.vpmovzxwdEvex128 m d src) := rfl
theorem vpmovzxwqEvex128 (m : Masking) (d : VReg) (src : Src) : Statement (.vpmovzxwqEvex128 m d src) := rfl
theorem vpmovzxdqEvex128 (m : Masking) (d : VReg) (src : Src) : Statement (.vpmovzxdqEvex128 m d src) := rfl
theorem vpmovzxbwEvex256 (m : Masking) (d : VReg) (src : Src) : Statement (.vpmovzxbwEvex256 m d src) := rfl
theorem vpmovzxbdEvex256 (m : Masking) (d : VReg) (src : Src) : Statement (.vpmovzxbdEvex256 m d src) := rfl
theorem vpmovzxbqEvex256 (m : Masking) (d : VReg) (src : Src) : Statement (.vpmovzxbqEvex256 m d src) := rfl
theorem vpmovzxwdEvex256 (m : Masking) (d : VReg) (src : Src) : Statement (.vpmovzxwdEvex256 m d src) := rfl
theorem vpmovzxwqEvex256 (m : Masking) (d : VReg) (src : Src) : Statement (.vpmovzxwqEvex256 m d src) := rfl
theorem vpmovzxdqEvex256 (m : Masking) (d : VReg) (src : Src) : Statement (.vpmovzxdqEvex256 m d src) := rfl
theorem vpmovzxbwEvex512 (m : Masking) (d : VReg) (src : Src) : Statement (.vpmovzxbwEvex512 m d src) := rfl
theorem vpmovzxbdEvex512 (m : Masking) (d : VReg) (src : Src) : Statement (.vpmovzxbdEvex512 m d src) := rfl
theorem vpmovzxbqEvex512 (m : Masking) (d : VReg) (src : Src) : Statement (.vpmovzxbqEvex512 m d src) := rfl
theorem vpmovzxwdEvex512 (m : Masking) (d : VReg) (src : Src) : Statement (.vpmovzxwdEvex512 m d src) := rfl
theorem vpmovzxwqEvex512 (m : Masking) (d : VReg) (src : Src) : Statement (.vpmovzxwqEvex512 m d src) := rfl
theorem vpmovzxdqEvex512 (m : Masking) (d : VReg) (src : Src) : Statement (.vpmovzxdqEvex512 m d src) := rfl

end Sys2Proof.Laws.Rebuild
end

