-- ==== Sys2Proof/Laws/Runs.lean ====
section
/-! SUPPORT. Runs of several steps: the host's `run`, one step at a time. -/

namespace Sys2Proof.Machine

/-- A run of `n + 1` steps is a step and a run of `n` steps. -/
theorem run_succ (M : Host.Core) (n : Nat) (s : M.State) :
    M.run (n + 1) s =
      match M.step s with
      | .next u => M.run n u
      | .fault r => .fault r
      | .refused r => .refused r := rfl

/-- A run of `n + 1` steps that ends in a state passes through the state after its first step. -/
theorem run_next {n : Nat} {s t : State} (h : Sys2Proof.core.run (n + 1) s = .next t) :
    ∃ u, step s = .next u ∧ Sys2Proof.core.run n u = .next t := by
  have key : ∀ (M : Host.Core) (s t : M.State), M.run (n + 1) s = .next t →
      ∃ u, M.step s = .next u ∧ M.run n u = .next t := by
    intro M s t h
    rw [run_succ] at h
    split at h
    · exact ⟨_, by assumption, h⟩
    · cases h
    · cases h
  exact key Sys2Proof.core s t h

end Sys2Proof.Machine
end

