-- ==== Sys2Proof/Machine/Assembly.lean ====
section
/-! DEFINITION. The operand notation of rule R64: the names of the register views, destination first, and the operand form
of each of the 36 forms as the table of that rule prints it. No step uses it. -/

namespace Sys2Proof

/-- The name of the smallest register view that holds `n` bits (rules R16, R64). -/
def viewName (n : Nat) : String := if n ≤ 128 then "xmm" else if n ≤ 256 then "ymm" else "zmm"

/-- A word between braces. -/
def inBraces (w : String) : String := String.singleton (Char.ofNat 0x7B) ++ w ++ String.singleton (Char.ofNat 0x7D)

/-- The destination, first, with the writemask an EVEX form may carry; then the source, `NSRC` bits of a register or of
memory (rule R64). -/
def operandForm (c : Conversion) (vl : VLen) (evex : Bool) : String :=
  viewName vl.bits ++ "1" ++ (if evex then " " ++ inBraces "k1" ++ inBraces "z" else "") ++ ", " ++
    viewName (8 * sourceBytes c vl) ++ "2/m" ++ toString (8 * sourceBytes c vl)

/-- The operand form of an instruction. -/
def Instr.operandForm (i : Instr) : String :=
  match i.shape with
  | .legacy c _ _ _ => Sys2Proof.operandForm c .v128 false
  | .vex c wide _ _ => Sys2Proof.operandForm c (if wide then .v256 else .v128) false
  | .evex c vl _ _ _ => Sys2Proof.operandForm c vl true

end Sys2Proof
end

