-- ==== Sys2Proof/Tests/Slice0.lean ====
section
/-! SUPPORT. Tests and witnesses. Expected values are those of spec/95_test_vectors.md (the vector is named in each test)
or worked out by hand from the rule a comment names. -/

namespace Sys2Proof.Tests

open Machine

set_option Elab.async false

/-! ## Ill-formed terms are refused (WellFormed.lean) -/

/-- `rm = 100b` means SIB: RSP and R12 are no plain base. -/
theorem test_wf_plain_base : (Src.mem (.base 4 .none)).wf = false ∧ (Src.mem (.base 12 (.disp8 1))).wf = false := by decide

/-- `mod = 00b`, `rm = 101b` is RIP-relative: RBP and R13 need a displacement. -/
theorem test_wf_base_disp : (Src.mem (.base 5 .none)).wf = false ∧ (Src.mem (.sib 13 none .none)).wf = false := by decide

/-- RSP is no index register. -/
theorem test_wf_index :
    (Src.mem (.sib 0 (some ⟨4, .x2⟩) .none)).wf = false ∧ (Src.mem (.sibNoBase (some ⟨4, .x1⟩) 0)).wf = false := by decide

/-- Legacy and VEX forms end at register 15. -/
theorem test_wf_vreg_reach :
    (Instr.pmovzxbw true 16 (.reg 0)).wf = false ∧ (Instr.pmovzxbw true 0 (.reg 16)).wf = false ∧
    (Instr.vpmovzxdqVex256 16 (.reg 0)).wf = false ∧ (Instr.vpmovzxdqVex128 0 (.reg 16)).wf = false ∧
    (Instr.vpmovzxdqEvex128 .none 31 (.reg 31)).wf = true := by decide

/-- A legacy form without REX ends at register 7. -/
theorem test_wf_rex_needed :
    (Instr.pmovzxbd false 8 (.reg 0)).wf = false ∧ (Instr.pmovzxbd false 0 (.reg 8)).wf = false ∧
    (Instr.pmovzxbd false 0 (.mem (.base 8 .none))).wf = false ∧
    (Instr.pmovzxbd false 0 (.mem (.sib 0 (some ⟨8, .x1⟩) .none))).wf = false ∧
    (Instr.pmovzxbd false 7 (.reg 7)).wf = true := by decide

/-- `k[0]` cannot be named as a writemask. -/
theorem test_wf_mask :
    (Instr.vpmovzxbqEvex512 (.merging 0) 0 (.reg 0)).wf = false ∧
    (Instr.vpmovzxbqEvex512 (.zeroing 0) 0 (.reg 0)).wf = false := by decide

/-! ## Decoding and encoding, one word per form: the bytes of vectors V1 to V36 -/

theorem test_decode_V1_pmovzxbw :
    decode [0x66#8, 0x0F#8, 0x38#8, 0x30#8, 0xCA#8] = .instr (.pmovzxbw false 1 (.reg 2)) [] ∧
    encode (.pmovzxbw false 1 (.reg 2)) = [0x66#8, 0x0F#8, 0x38#8, 0x30#8, 0xCA#8] := by decide

theorem test_decode_V2_pmovzxbd :
    decode [0x66#8, 0x0F#8, 0x38#8, 0x31#8, 0xCA#8] = .instr (.pmovzxbd false 1 (.reg 2)) [] ∧
    encode (.pmovzxbd false 1 (.reg 2)) = [0x66#8, 0x0F#8, 0x38#8, 0x31#8, 0xCA#8] := by decide

theorem test_decode_V3_pmovzxbq :
    decode [0x66#8, 0x0F#8, 0x38#8, 0x32#8, 0xCA#8] = .instr (.pmovzxbq false 1 (.reg 2)) [] ∧
    encode (.pmovzxbq false 1 (.reg 2)) = [0x66#8, 0x0F#8, 0x38#8, 0x32#8, 0xCA#8] := by decide

theorem test_decode_V4_pmovzxwd :
    decode [0x66#8, 0x0F#8, 0x38#8, 0x33#8, 0xCA#8] = .instr (.pmovzxwd false 1 (.reg 2)) [] ∧
    encode (.pmovzxwd false 1 (.reg 2)) = [0x66#8, 0x0F#8, 0x38#8, 0x33#8, 0xCA#8] := by decide

theorem test_decode_V5_pmovzxwq :
    decode [0x66#8, 0x0F#8, 0x38#8, 0x34#8, 0xCA#8] = .instr (.pmovzxwq false 1 (.reg 2)) [] ∧
    encode (.pmovzxwq false 1 (.reg 2)) = [0x66#8, 0x0F#8, 0x38#8, 0x34#8, 0xCA#8] := by decide

theorem test_decode_V6_pmovzxdq :
    decode [0x66#8, 0x0F#8, 0x38#8, 0x35#8, 0xCA#8] = .instr (.pmovzxdq false 1 (.reg 2)) [] ∧
    encode (.pmovzxdq false 1 (.reg 2)) = [0x66#8, 0x0F#8, 0x38#8, 0x35#8, 0xCA#8] := by decide

theorem test_decode_V7_vpmovzxbwVex128 :
    decode [0xC4#8, 0xE2#8, 0x79#8, 0x30#8, 0xCA#8] = .instr (.vpmovzxbwVex128 1 (.reg 2)) [] ∧
    encode (.vpmovzxbwVex128 1 (.reg 2)) = [0xC4#8, 0xE2#8, 0x79#8, 0x30#8, 0xCA#8] := by decide

theorem test_decode_V8_vpmovzxbdVex128 :
    decode [0xC4#8, 0xE2#8, 0x79#8, 0x31#8, 0xCA#8] = .instr (.vpmovzxbdVex128 1 (.reg 2)) [] ∧
    encode (.vpmovzxbdVex128 1 (.reg 2)) = [0xC4#8, 0xE2#8, 0x79#8, 0x31#8, 0xCA#8] := by decide

theorem test_decode_V9_vpmovzxbqVex128 :
    decode [0xC4#8, 0xE2#8, 0x79#8, 0x32#8, 0xCA#8] = .instr (.vpmovzxbqVex128 1 (.reg 2)) [] ∧
    encode (.vpmovzxbqVex128 1 (.reg 2)) = [0xC4#8, 0xE2#8, 0x79#8, 0x32#8, 0xCA#8] := by decide

theorem test_decode_V10_vpmovzxwdVex128 :
    decode [0xC4#8, 0xE2#8, 0x79#8, 0x33#8, 0xCA#8] = .instr (.vpmovzxwdVex128 1 (.reg 2)) [] ∧
    encode (.vpmovzxwdVex128 1 (.reg 2)) = [0xC4#8, 0xE2#8, 0x79#8, 0x33#8, 0xCA#8] := by decide

theorem test_decode_V11_vpmovzxwqVex128 :
    decode [0xC4#8, 0xE2#8, 0x79#8, 0x34#8, 0xCA#8] = .instr (.vpmovzxwqVex128 1 (.reg 2)) [] ∧
    encode (.vpmovzxwqVex128 1 (.reg 2)) = [0xC4#8, 0xE2#8, 0x79#8, 0x34#8, 0xCA#8] := by decide

theorem test_decode_V12_vpmovzxdqVex128 :
    decode [0xC4#8, 0xE2#8, 0x79#8, 0x35#8, 0xCA#8] = .instr (.vpmovzxdqVex128 1 (.reg 2)) [] ∧
    encode (.vpmovzxdqVex128 1 (.reg 2)) = [0xC4#8, 0xE2#8, 0x79#8, 0x35#8, 0xCA#8] := by decide

theorem test_decode_V13_vpmovzxbwVex256 :
    decode [0xC4#8, 0xE2#8, 0x7D#8, 0x30#8, 0xCA#8] = .instr (.vpmovzxbwVex256 1 (.reg 2)) [] ∧
    encode (.vpmovzxbwVex256 1 (.reg 2)) = [0xC4#8, 0xE2#8, 0x7D#8, 0x30#8, 0xCA#8] := by decide

theorem test_decode_V14_vpmovzxbdVex256 :
    decode [0xC4#8, 0xE2#8, 0x7D#8, 0x31#8, 0xCA#8] = .instr (.vpmovzxbdVex256 1 (.reg 2)) [] ∧
    encode (.vpmovzxbdVex256 1 (.reg 2)) = [0xC4#8, 0xE2#8, 0x7D#8, 0x31#8, 0xCA#8] := by decide

theorem test_decode_V15_vpmovzxbqVex256 :
    decode [0xC4#8, 0xE2#8, 0x7D#8, 0x32#8, 0xCA#8] = .instr (.vpmovzxbqVex256 1 (.reg 2)) [] ∧
    encode (.vpmovzxbqVex256 1 (.reg 2)) = [0xC4#8, 0xE2#8, 0x7D#8, 0x32#8, 0xCA#8] := by decide

theorem test_decode_V16_vpmovzxwdVex256 :
    decode [0xC4#8, 0xE2#8, 0x7D#8, 0x33#8, 0xCA#8] = .instr (.vpmovzxwdVex256 1 (.reg 2)) [] ∧
    encode (.vpmovzxwdVex256 1 (.reg 2)) = [0xC4#8, 0xE2#8, 0x7D#8, 0x33#8, 0xCA#8] := by decide

theorem test_decode_V17_vpmovzxwqVex256 :
    decode [0xC4#8, 0xE2#8, 0x7D#8, 0x34#8, 0xCA#8] = .instr (.vpmovzxwqVex256 1 (.reg 2)) [] ∧
    encode (.vpmovzxwqVex256 1 (.reg 2)) = [0xC4#8, 0xE2#8, 0x7D#8, 0x34#8, 0xCA#8] := by decide

theorem test_decode_V18_vpmovzxdqVex256 :
    decode [0xC4#8, 0xE2#8, 0x7D#8, 0x35#8, 0xCA#8] = .instr (.vpmovzxdqVex256 1 (.reg 2)) [] ∧
    encode (.vpmovzxdqVex256 1 (.reg 2)) = [0xC4#8, 0xE2#8, 0x7D#8, 0x35#8, 0xCA#8] := by decide

theorem test_decode_V19_vpmovzxbwEvex128 :
    decode [0x62#8, 0xF2#8, 0x7D#8, 0x08#8, 0x30#8, 0xCA#8] = .instr (.vpmovzxbwEvex128 .none 1 (.reg 2)) [] ∧
    encode (.vpmovzxbwEvex128 .none 1 (.reg 2)) = [0x62#8, 0xF2#8, 0x7D#8, 0x08#8, 0x30#8, 0xCA#8] := by decide

theorem test_decode_V20_vpmovzxbdEvex128 :
    decode [0x62#8, 0xF2#8, 0x7D#8, 0x08#8, 0x31#8, 0xCA#8] = .instr (.vpmovzxbdEvex128 .none 1 (.reg 2)) [] ∧
    encode (.vpmovzxbdEvex128 .none 1 (.reg 2)) = [0x62#8, 0xF2#8, 0x7D#8, 0x08#8, 0x31#8, 0xCA#8] := by decide

theorem test_decode_V21_vpmovzxbqEvex128 :
    decode [0x62#8, 0xF2#8, 0x7D#8, 0x08#8, 0x32#8, 0xCA#8] = .instr (.vpmovzxbqEvex128 .none 1 (.reg 2)) [] ∧
    encode (.vpmovzxbqEvex128 .none 1 (.reg 2)) = [0x62#8, 0xF2#8, 0x7D#8, 0x08#8, 0x32#8, 0xCA#8] := by decide

theorem test_decode_V22_vpmovzxwdEvex128 :
    decode [0x62#8, 0xF2#8, 0x7D#8, 0x08#8, 0x33#8, 0xCA#8] = .instr (.vpmovzxwdEvex128 .none 1 (.reg 2)) [] ∧
    encode (.vpmovzxwdEvex128 .none 1 (.reg 2)) = [0x62#8, 0xF2#8, 0x7D#8, 0x08#8, 0x33#8, 0xCA#8] := by decide

theorem test_decode_V23_vpmovzxwqEvex128 :
    decode [0x62#8, 0xF2#8, 0x7D#8, 0x08#8, 0x34#8, 0xCA#8] = .instr (.vpmovzxwqEvex128 .none 1 (.reg 2)) [] ∧
    encode (.vpmovzxwqEvex128 .none 1 (.reg 2)) = [0x62#8, 0xF2#8, 0x7D#8, 0x08#8, 0x34#8, 0xCA#8] := by decide

theorem test_decode_V24_vpmovzxdqEvex128 :
    decode [0x62#8, 0xF2#8, 0x7D#8, 0x08#8, 0x35#8, 0xCA#8] = .instr (.vpmovzxdqEvex128 .none 1 (.reg 2)) [] ∧
    encode (.vpmovzxdqEvex128 .none 1 (.reg 2)) = [0x62#8, 0xF2#8, 0x7D#8, 0x08#8, 0x35#8, 0xCA#8] := by decide

theorem test_decode_V25_vpmovzxbwEvex256 :
    decode [0x62#8, 0xF2#8, 0x7D#8, 0x28#8, 0x30#8, 0xCA#8] = .instr (.vpmovzxbwEvex256 .none 1 (.reg 2)) [] ∧
    encode (.vpmovzxbwEvex256 .none 1 (.reg 2)) = [0x62#8, 0xF2#8, 0x7D#8, 0x28#8, 0x30#8, 0xCA#8] := by decide

theorem test_decode_V26_vpmovzxbdEvex256 :
    decode [0x62#8, 0xF2#8, 0x7D#8, 0x28#8, 0x31#8, 0xCA#8] = .instr (.vpmovzxbdEvex256 .none 1 (.reg 2)) [] ∧
    encode (.vpmovzxbdEvex256 .none 1 (.reg 2)) = [0x62#8, 0xF2#8, 0x7D#8, 0x28#8, 0x31#8, 0xCA#8] := by decide

theorem test_decode_V27_vpmovzxbqEvex256 :
    decode [0x62#8, 0xF2#8, 0x7D#8, 0x28#8, 0x32#8, 0xCA#8] = .instr (.vpmovzxbqEvex256 .none 1 (.reg 2)) [] ∧
    encode (.vpmovzxbqEvex256 .none 1 (.reg 2)) = [0x62#8, 0xF2#8, 0x7D#8, 0x28#8, 0x32#8, 0xCA#8] := by decide

theorem test_decode_V28_vpmovzxwdEvex256 :
    decode [0x62#8, 0xF2#8, 0x7D#8, 0x28#8, 0x33#8, 0xCA#8] = .instr (.vpmovzxwdEvex256 .none 1 (.reg 2)) [] ∧
    encode (.vpmovzxwdEvex256 .none 1 (.reg 2)) = [0x62#8, 0xF2#8, 0x7D#8, 0x28#8, 0x33#8, 0xCA#8] := by decide

theorem test_decode_V29_vpmovzxwqEvex256 :
    decode [0x62#8, 0xF2#8, 0x7D#8, 0x28#8, 0x34#8, 0xCA#8] = .instr (.vpmovzxwqEvex256 .none 1 (.reg 2)) [] ∧
    encode (.vpmovzxwqEvex256 .none 1 (.reg 2)) = [0x62#8, 0xF2#8, 0x7D#8, 0x28#8, 0x34#8, 0xCA#8] := by decide

theorem test_decode_V30_vpmovzxdqEvex256 :
    decode [0x62#8, 0xF2#8, 0x7D#8, 0x28#8, 0x35#8, 0xCA#8] = .instr (.vpmovzxdqEvex256 .none 1 (.reg 2)) [] ∧
    encode (.vpmovzxdqEvex256 .none 1 (.reg 2)) = [0x62#8, 0xF2#8, 0x7D#8, 0x28#8, 0x35#8, 0xCA#8] := by decide

theorem test_decode_V31_vpmovzxbwEvex512 :
    decode [0x62#8, 0xF2#8, 0x7D#8, 0x48#8, 0x30#8, 0xCA#8] = .instr (.vpmovzxbwEvex512 .none 1 (.reg 2)) [] ∧
    encode (.vpmovzxbwEvex512 .none 1 (.reg 2)) = [0x62#8, 0xF2#8, 0x7D#8, 0x48#8, 0x30#8, 0xCA#8] := by decide

theorem test_decode_V32_vpmovzxbdEvex512 :
    decode [0x62#8, 0xF2#8, 0x7D#8, 0x48#8, 0x31#8, 0xCA#8] = .instr (.vpmovzxbdEvex512 .none 1 (.reg 2)) [] ∧
    encode (.vpmovzxbdEvex512 .none 1 (.reg 2)) = [0x62#8, 0xF2#8, 0x7D#8, 0x48#8, 0x31#8, 0xCA#8] := by decide

theorem test_decode_V33_vpmovzxbqEvex512 :
    decode [0x62#8, 0xF2#8, 0x7D#8, 0x48#8, 0x32#8, 0xCA#8] = .instr (.vpmovzxbqEvex512 .none 1 (.reg 2)) [] ∧
    encode (.vpmovzxbqEvex512 .none 1 (.reg 2)) = [0x62#8, 0xF2#8, 0x7D#8, 0x48#8, 0x32#8, 0xCA#8] := by decide

theorem test_decode_V34_vpmovzxwdEvex512 :
    decode [0x62#8, 0xF2#8, 0x7D#8, 0x48#8, 0x33#8, 0xCA#8] = .instr (.vpmovzxwdEvex512 .none 1 (.reg 2)) [] ∧
    encode (.vpmovzxwdEvex512 .none 1 (.reg 2)) = [0x62#8, 0xF2#8, 0x7D#8, 0x48#8, 0x33#8, 0xCA#8] := by decide

theorem test_decode_V35_vpmovzxwqEvex512 :
    decode [0x62#8, 0xF2#8, 0x7D#8, 0x48#8, 0x34#8, 0xCA#8] = .instr (.vpmovzxwqEvex512 .none 1 (.reg 2)) [] ∧
    encode (.vpmovzxwqEvex512 .none 1 (.reg 2)) = [0x62#8, 0xF2#8, 0x7D#8, 0x48#8, 0x34#8, 0xCA#8] := by decide

theorem test_decode_V36_vpmovzxdqEvex512 :
    decode [0x62#8, 0xF2#8, 0x7D#8, 0x48#8, 0x35#8, 0xCA#8] = .instr (.vpmovzxdqEvex512 .none 1 (.reg 2)) [] ∧
    encode (.vpmovzxdqEvex512 .none 1 (.reg 2)) = [0x62#8, 0xF2#8, 0x7D#8, 0x48#8, 0x35#8, 0xCA#8] := by decide

/-! ## Decoding the vectors of section C and the addressing forms of section B5 -/

theorem test_decode_X2_X3_X4_rex :
    decode [0x66#8, 0x45#8, 0x0F#8, 0x38#8, 0x30#8, 0xCA#8] = .instr (.pmovzxbw true 9 (.reg 10)) [] ∧
    decode [0x66#8, 0x40#8, 0x0F#8, 0x38#8, 0x30#8, 0xCA#8] = .instr (.pmovzxbw true 1 (.reg 2)) [] ∧
    decode [0x66#8, 0x48#8, 0x0F#8, 0x38#8, 0x30#8, 0xCA#8] = .instr (.pmovzxbw true 1 (.reg 2)) [] := by decide

theorem test_decode_X7_X8_X9_vex :
    decode [0xC4#8, 0xE2#8, 0xFD#8, 0x30#8, 0xCA#8] = .instr (.vpmovzxbwVex256 1 (.reg 2)) [] ∧
    decode [0xC4#8, 0x42#8, 0x7D#8, 0x35#8, 0xFF#8] = .instr (.vpmovzxdqVex256 15 (.reg 15)) [] ∧
    decode [0xC4#8, 0xA2#8, 0x79#8, 0x30#8, 0xCA#8] = .instr (.vpmovzxbwVex128 1 (.reg 2)) [] := by decide

theorem test_decode_X14_X15_X16_X17_evex :
    decode [0x62#8, 0x92#8, 0x7D#8, 0x49#8, 0x33#8, 0xCA#8] = .instr (.vpmovzxwdEvex512 (.merging 1) 1 (.reg 26)) [] ∧
    decode [0x62#8, 0xE2#8, 0x7D#8, 0x08#8, 0x34#8, 0xC9#8] = .instr (.vpmovzxwqEvex128 .none 17 (.reg 1)) [] ∧
    decode [0x62#8, 0x62#8, 0x7D#8, 0xCF#8, 0x35#8, 0x7A#8, 0x01#8] =
      .instr (.vpmovzxdqEvex512 (.zeroing 7) 31 (.mem (.base 2 (.disp8 1)))) [] ∧
    decode [0x62#8, 0xF2#8, 0xFD#8, 0x48#8, 0x34#8, 0xCA#8] = .instr (.vpmovzxwqEvex512 .none 1 (.reg 2)) [] := by decide

/-- Vectors X18 to X31, verdict `UD`. -/
def udVectors : List (List Byte) :=
  [[0x62#8, 0xF2#8, 0xFD#8, 0x48#8, 0x35#8, 0xCA#8],
   [0xC4#8, 0xE2#8, 0x71#8, 0x30#8, 0xCA#8],
   [0xC4#8, 0xE2#8, 0x01#8, 0x30#8, 0xCA#8],
   [0x62#8, 0xF2#8, 0x75#8, 0x08#8, 0x30#8, 0xCA#8],
   [0x62#8, 0xF2#8, 0x7D#8, 0x00#8, 0x30#8, 0xCA#8],
   [0x62#8, 0xF2#8, 0x7D#8, 0x18#8, 0x30#8, 0xCA#8],
   [0x62#8, 0xF2#8, 0x7D#8, 0x18#8, 0x30#8, 0x08#8],
   [0x62#8, 0xF2#8, 0x7D#8, 0x88#8, 0x30#8, 0xCA#8],
   [0x62#8, 0xF2#8, 0x7D#8, 0x68#8, 0x30#8, 0xCA#8],
   [0xF0#8, 0x66#8, 0x0F#8, 0x38#8, 0x30#8, 0xCA#8],
   [0xF0#8, 0x66#8, 0x0F#8, 0x38#8, 0x30#8, 0x08#8],
   [0xF3#8, 0x66#8, 0x0F#8, 0x38#8, 0x30#8, 0xCA#8],
   [0x66#8, 0xF3#8, 0x0F#8, 0x38#8, 0x30#8, 0xCA#8],
   [0xF2#8, 0x66#8, 0x0F#8, 0x38#8, 0x30#8, 0xCA#8],
   [0x66#8, 0xF2#8, 0x0F#8, 0x38#8, 0x30#8, 0xCA#8],
   [0x66#8, 0xC4#8, 0xE2#8, 0x79#8, 0x30#8, 0xCA#8],
   [0xF3#8, 0xC4#8, 0xE2#8, 0x79#8, 0x30#8, 0xCA#8],
   [0xF2#8, 0xC4#8, 0xE2#8, 0x79#8, 0x30#8, 0xCA#8],
   [0xF0#8, 0xC4#8, 0xE2#8, 0x79#8, 0x30#8, 0xCA#8],
   [0x40#8, 0xC4#8, 0xE2#8, 0x79#8, 0x30#8, 0xCA#8],
   [0x66#8, 0x62#8, 0xF2#8, 0x7D#8, 0x08#8, 0x30#8, 0xCA#8],
   [0xF3#8, 0x62#8, 0xF2#8, 0x7D#8, 0x08#8, 0x30#8, 0xCA#8],
   [0xF0#8, 0x62#8, 0xF2#8, 0x7D#8, 0x08#8, 0x30#8, 0xCA#8],
   [0x40#8, 0x62#8, 0xF2#8, 0x7D#8, 0x08#8, 0x30#8, 0xCA#8]]

/-- Vectors X32 to X45, verdict `Refused`. -/
def refusedVectors : List (List Byte) :=
  [[0x0F#8, 0x38#8, 0x30#8, 0xCA#8],
   [0x66#8, 0x66#8, 0x0F#8, 0x38#8, 0x30#8, 0xCA#8],
   [0x40#8, 0x66#8, 0x0F#8, 0x38#8, 0x30#8, 0xCA#8],
   [0x65#8, 0x66#8, 0x0F#8, 0x38#8, 0x30#8, 0xCA#8],
   [0x67#8, 0x66#8, 0x0F#8, 0x38#8, 0x30#8, 0x08#8],
   [0x62#8, 0xFA#8, 0x7D#8, 0x08#8, 0x30#8, 0xCA#8],
   [0x62#8, 0xF6#8, 0x7D#8, 0x08#8, 0x30#8, 0xCA#8],
   [0x62#8, 0xF2#8, 0x79#8, 0x08#8, 0x30#8, 0xCA#8],
   [0xC4#8, 0xE2#8, 0x78#8, 0x30#8, 0xCA#8],
   [0xC4#8, 0xE2#8, 0x7A#8, 0x30#8, 0xCA#8],
   [0xC4#8, 0xE2#8, 0x7B#8, 0x30#8, 0xCA#8],
   [0x62#8, 0xF2#8, 0x7E#8, 0x08#8, 0x30#8, 0xCA#8],
   [0x62#8, 0xF2#8, 0x7C#8, 0x08#8, 0x30#8, 0xCA#8],
   [0x62#8, 0xF2#8, 0x7F#8, 0x08#8, 0x30#8, 0xCA#8],
   [0xC5#8, 0xF9#8, 0x30#8, 0xCA#8],
   [0xC4#8, 0xE1#8, 0x79#8, 0x30#8, 0xCA#8],
   [0x66#8, 0x0F#8, 0x38#8, 0x36#8, 0xCA#8],
   [0x66#8, 0x0F#8, 0x38#8, 0x2F#8, 0xCA#8],
   [0x66#8, 0x0F#8, 0x38#8, 0x30#8]]

theorem test_decode_ud_vectors : ∀ bs ∈ udVectors, decode bs = .ud := by decide

/-- The verdict is a refusal. -/
def isRefused : Verdict → Bool
  | .refused _ => true
  | .instr _ _ => false
  | .ud => false

theorem test_decode_refused_vectors : ∀ bs ∈ refusedVectors, isRefused (decode bs) = true := by decide

theorem test_decode_memory_operands :
    decode [0x66#8, 0x0F#8, 0x38#8, 0x30#8, 0x08#8] =
      .instr (.pmovzxbw false 1 (.mem (.base 0 .none))) [] ∧
    decode [0x66#8, 0x0F#8, 0x38#8, 0x32#8, 0x5C#8, 0x8B#8, 0x10#8] =
      .instr (.pmovzxbq false 3 (.mem (.sib 3 (some ⟨1, .x4⟩) (.disp8 0x10)))) [] ∧
    decode [0x66#8, 0x0F#8, 0x38#8, 0x31#8, 0x05#8, 0x00#8, 0x01#8, 0x00#8, 0x00#8] =
      .instr (.pmovzxbd false 0 (.mem (.ripRel 0x100))) [] ∧
    decode [0x62#8, 0x02#8, 0x7D#8, 0x48#8, 0x30#8, 0x74#8, 0x48#8, 0x02#8] =
      .instr (.vpmovzxbwEvex512 .none 30 (.mem (.sib 8 (some ⟨9, .x2⟩) (.disp8 2)))) [] ∧
    decode [0x66#8, 0x45#8, 0x0F#8, 0x38#8, 0x35#8, 0x3C#8, 0x24#8] =
      .instr (.pmovzxdq true 15 (.mem (.sib 12 none .none))) [] ∧
    decode [0x66#8, 0x43#8, 0x0F#8, 0x38#8, 0x30#8, 0x6C#8, 0xF5#8, 0xFC#8] =
      .instr (.pmovzxbw true 5 (.mem (.sib 13 (some ⟨14, .x8⟩) (.disp8 0xFC)))) [] ∧
    decode [0x66#8, 0x0F#8, 0x38#8, 0x30#8, 0x0C#8, 0x25#8, 0x00#8, 0x00#8, 0x01#8, 0x00#8] =
      .instr (.pmovzxbw false 1 (.mem (.sibNoBase none 0x10000))) [] ∧
    decode [0x62#8, 0xF2#8, 0x7D#8, 0x4A#8, 0x34#8, 0x05#8, 0x10#8, 0x00#8, 0x00#8, 0x00#8] =
      .instr (.vpmovzxwqEvex512 (.merging 2) 0 (.mem (.ripRel 0x10))) [] := by decide

theorem test_encode_memory_operands :
    encode (.pmovzxbw false 1 (.mem (.base 0 .none))) =
      [0x66#8, 0x0F#8, 0x38#8, 0x30#8, 0x08#8] ∧
    encode (.pmovzxbq false 3 (.mem (.sib 3 (some ⟨1, .x4⟩) (.disp8 0x10)))) =
      [0x66#8, 0x0F#8, 0x38#8, 0x32#8, 0x5C#8, 0x8B#8, 0x10#8] ∧
    encode (.pmovzxbd false 0 (.mem (.ripRel 0x100))) =
      [0x66#8, 0x0F#8, 0x38#8, 0x31#8, 0x05#8, 0x00#8, 0x01#8, 0x00#8, 0x00#8] ∧
    encode (.vpmovzxbwEvex512 .none 30 (.mem (.sib 8 (some ⟨9, .x2⟩) (.disp8 2)))) =
      [0x62#8, 0x02#8, 0x7D#8, 0x48#8, 0x30#8, 0x74#8, 0x48#8, 0x02#8] ∧
    encode (.pmovzxdq true 15 (.mem (.sib 12 none .none))) =
      [0x66#8, 0x45#8, 0x0F#8, 0x38#8, 0x35#8, 0x3C#8, 0x24#8] ∧
    encode (.pmovzxbw true 5 (.mem (.sib 13 (some ⟨14, .x8⟩) (.disp8 0xFC)))) =
      [0x66#8, 0x43#8, 0x0F#8, 0x38#8, 0x30#8, 0x6C#8, 0xF5#8, 0xFC#8] ∧
    encode (.pmovzxbw false 1 (.mem (.sibNoBase none 0x10000))) =
      [0x66#8, 0x0F#8, 0x38#8, 0x30#8, 0x0C#8, 0x25#8, 0x00#8, 0x00#8, 0x01#8, 0x00#8] ∧
    encode (.vpmovzxwqEvex512 (.merging 2) 0 (.mem (.ripRel 0x10))) =
      [0x62#8, 0xF2#8, 0x7D#8, 0x4A#8, 0x34#8, 0x05#8, 0x10#8, 0x00#8, 0x00#8, 0x00#8] := by decide

/-- The host's table words: bit 0 is the least significant bit of the first byte. -/
theorem test_table_words :
    decodeTableWord 40 0xCA30380F66 = some (.pmovzxbw false 1 (.reg 2)) ∧
    decodeTableWord 48 0xCA30380F4566 = some (.pmovzxbw true 9 (.reg 10)) ∧
    decodeTableWord 40 0xCA307DE2C4 = some (.vpmovzxbwVex256 1 (.reg 2)) ∧
    decodeTableWord 48 0xCA30C97DF262 = some (.vpmovzxbwEvex512 (.zeroing 1) 1 (.reg 2)) ∧
    decodeTableWord 48 0x0530087DF262 = some (.vpmovzxbwEvex128 .none 0 (.mem (.ripRel 0))) ∧
    decodeTableWord 48 0xCA30187DF262 = none := by decide

/-! ## One step of each form: vectors V1 to V36 -/

/-- The data of the conventions of section "Conventions of this file". -/
def din : Vec := 0xCECBC8C5C2BFBCB9B6B3B0ADAAA7A4A19E9B9895928F8C898683807D7A7774716E6B6865625F5C595653504D4A4744413E3B3835322F2C292623201D1A171411#512
def src : Vec := 0xBFBEBDBCBBBAB9B8B7B6B5B4B3B2B1B0AFAEADACABAAA9A8A7A6A5A4A3A2A1A09F9E9D9C9B9A999897969594939291908F8E8D8C8B8A89888786858483828180#512
def maskK : KMask := 0x5A5A5A5AAAAA9669#64

/-- The start state of the conventions, with `k[1] = mask`. -/
def startWith (mask : KMask) : State :=
  let s := (((State.reset.setVreg 1 din).setVreg 17 din).setVreg 2 src).setVreg 26 src
  { s with k := s.k.set 1 mask, pc := 0x1000 }

def start : State := startWith maskK

/-- What `v[d]`, `pc` and `fault` are after one step on the bytes `bs`. -/
def after (s : State) (bs : List Byte) (d : VReg) : Option (Vec × Addr × Option FaultRecord) :=
  match step (s.loadText bs) with
  | .next t => some (t.vreg d, t.pc, t.fault)
  | .fault _ => none
  | .refused _ => none

theorem test_step_V1_pmovzxbw :
    after start [0x66#8, 0x0F#8, 0x38#8, 0x30#8, 0xCA#8] 1 =
      some (0xCECBC8C5C2BFBCB9B6B3B0ADAAA7A4A19E9B9895928F8C898683807D7A7774716E6B6865625F5C595653504D4A47444100870086008500840083008200810080#512, 0x1005, none) := by
  decide +kernel

theorem test_step_V2_pmovzxbd :
    after start [0x66#8, 0x0F#8, 0x38#8, 0x31#8, 0xCA#8] 1 =
      some (0xCECBC8C5C2BFBCB9B6B3B0ADAAA7A4A19E9B9895928F8C898683807D7A7774716E6B6865625F5C595653504D4A47444100000083000000820000008100000080#512, 0x1005, none) := by
  decide +kernel

theorem test_step_V3_pmovzxbq :
    after start [0x66#8, 0x0F#8, 0x38#8, 0x32#8, 0xCA#8] 1 =
      some (0xCECBC8C5C2BFBCB9B6B3B0ADAAA7A4A19E9B9895928F8C898683807D7A7774716E6B6865625F5C595653504D4A47444100000000000000810000000000000080#512, 0x1005, none) := by
  decide +kernel

theorem test_step_V4_pmovzxwd :
    after start [0x66#8, 0x0F#8, 0x38#8, 0x33#8, 0xCA#8] 1 =
      some (0xCECBC8C5C2BFBCB9B6B3B0ADAAA7A4A19E9B9895928F8C898683807D7A7774716E6B6865625F5C595653504D4A47444100008786000085840000838200008180#512, 0x1005, none) := by
  decide +kernel

theorem test_step_V5_pmovzxwq :
    after start [0x66#8, 0x0F#8, 0x38#8, 0x34#8, 0xCA#8] 1 =
      some (0xCECBC8C5C2BFBCB9B6B3B0ADAAA7A4A19E9B9895928F8C898683807D7A7774716E6B6865625F5C595653504D4A47444100000000000083820000000000008180#512, 0x1005, none) := by
  decide +kernel

theorem test_step_V6_pmovzxdq :
    after start [0x66#8, 0x0F#8, 0x38#8, 0x35#8, 0xCA#8] 1 =
      some (0xCECBC8C5C2BFBCB9B6B3B0ADAAA7A4A19E9B9895928F8C898683807D7A7774716E6B6865625F5C595653504D4A47444100000000878685840000000083828180#512, 0x1005, none) := by
  decide +kernel

theorem test_step_V7_vpmovzxbwVex128 :
    after start [0xC4#8, 0xE2#8, 0x79#8, 0x30#8, 0xCA#8] 1 =
      some (0x870086008500840083008200810080#512, 0x1005, none) := by
  decide +kernel

theorem test_step_V8_vpmovzxbdVex128 :
    after start [0xC4#8, 0xE2#8, 0x79#8, 0x31#8, 0xCA#8] 1 =
      some (0x83000000820000008100000080#512, 0x1005, none) := by
  decide +kernel

theorem test_step_V9_vpmovzxbqVex128 :
    after start [0xC4#8, 0xE2#8, 0x79#8, 0x32#8, 0xCA#8] 1 =
      some (0x810000000000000080#512, 0x1005, none) := by
  decide +kernel

theorem test_step_V10_vpmovzxwdVex128 :
    after start [0xC4#8, 0xE2#8, 0x79#8, 0x33#8, 0xCA#8] 1 =
      some (0x8786000085840000838200008180#512, 0x1005, none) := by
  decide +kernel

theorem test_step_V11_vpmovzxwqVex128 :
    after start [0xC4#8, 0xE2#8, 0x79#8, 0x34#8, 0xCA#8] 1 =
      some (0x83820000000000008180#512, 0x1005, none) := by
  decide +kernel

theorem test_step_V12_vpmovzxdqVex128 :
    after start [0xC4#8, 0xE2#8, 0x79#8, 0x35#8, 0xCA#8] 1 =
      some (0x878685840000000083828180#512, 0x1005, none) := by
  decide +kernel

theorem test_step_V13_vpmovzxbwVex256 :
    after start [0xC4#8, 0xE2#8, 0x7D#8, 0x30#8, 0xCA#8] 1 =
      some (0x8F008E008D008C008B008A0089008800870086008500840083008200810080#512, 0x1005, none) := by
  decide +kernel

theorem test_step_V14_vpmovzxbdVex256 :
    after start [0xC4#8, 0xE2#8, 0x7D#8, 0x31#8, 0xCA#8] 1 =
      some (0x8700000086000000850000008400000083000000820000008100000080#512, 0x1005, none) := by
  decide +kernel

theorem test_step_V15_vpmovzxbqVex256 :
    after start [0xC4#8, 0xE2#8, 0x7D#8, 0x32#8, 0xCA#8] 1 =
      some (0x83000000000000008200000000000000810000000000000080#512, 0x1005, none) := by
  decide +kernel

theorem test_step_V16_vpmovzxwdVex256 :
    after start [0xC4#8, 0xE2#8, 0x7D#8, 0x33#8, 0xCA#8] 1 =
      some (0x8F8E00008D8C00008B8A0000898800008786000085840000838200008180#512, 0x1005, none) := by
  decide +kernel

theorem test_step_V17_vpmovzxwqVex256 :
    after start [0xC4#8, 0xE2#8, 0x7D#8, 0x34#8, 0xCA#8] 1 =
      some (0x8786000000000000858400000000000083820000000000008180#512, 0x1005, none) := by
  decide +kernel

theorem test_step_V18_vpmovzxdqVex256 :
    after start [0xC4#8, 0xE2#8, 0x7D#8, 0x35#8, 0xCA#8] 1 =
      some (0x8F8E8D8C000000008B8A898800000000878685840000000083828180#512, 0x1005, none) := by
  decide +kernel

theorem test_step_V19_vpmovzxbwEvex128 :
    after start [0x62#8, 0xF2#8, 0x7D#8, 0x08#8, 0x30#8, 0xCA#8] 1 =
      some (0x870086008500840083008200810080#512, 0x1006, none) := by
  decide +kernel

theorem test_step_V20_vpmovzxbdEvex128 :
    after start [0x62#8, 0xF2#8, 0x7D#8, 0x08#8, 0x31#8, 0xCA#8] 1 =
      some (0x83000000820000008100000080#512, 0x1006, none) := by
  decide +kernel

theorem test_step_V21_vpmovzxbqEvex128 :
    after start [0x62#8, 0xF2#8, 0x7D#8, 0x08#8, 0x32#8, 0xCA#8] 1 =
      some (0x810000000000000080#512, 0x1006, none) := by
  decide +kernel

theorem test_step_V22_vpmovzxwdEvex128 :
    after start [0x62#8, 0xF2#8, 0x7D#8, 0x08#8, 0x33#8, 0xCA#8] 1 =
      some (0x8786000085840000838200008180#512, 0x1006, none) := by
  decide +kernel

theorem test_step_V23_vpmovzxwqEvex128 :
    after start [0x62#8, 0xF2#8, 0x7D#8, 0x08#8, 0x34#8, 0xCA#8] 1 =
      some (0x83820000000000008180#512, 0x1006, none) := by
  decide +kernel

theorem test_step_V24_vpmovzxdqEvex128 :
    after start [0x62#8, 0xF2#8, 0x7D#8, 0x08#8, 0x35#8, 0xCA#8] 1 =
      some (0x878685840000000083828180#512, 0x1006, none) := by
  decide +kernel

theorem test_step_V25_vpmovzxbwEvex256 :
    after start [0x62#8, 0xF2#8, 0x7D#8, 0x28#8, 0x30#8, 0xCA#8] 1 =
      some (0x8F008E008D008C008B008A0089008800870086008500840083008200810080#512, 0x1006, none) := by
  decide +kernel

theorem test_step_V26_vpmovzxbdEvex256 :
    after start [0x62#8, 0xF2#8, 0x7D#8, 0x28#8, 0x31#8, 0xCA#8] 1 =
      some (0x8700000086000000850000008400000083000000820000008100000080#512, 0x1006, none) := by
  decide +kernel

theorem test_step_V27_vpmovzxbqEvex256 :
    after start [0x62#8, 0xF2#8, 0x7D#8, 0x28#8, 0x32#8, 0xCA#8] 1 =
      some (0x83000000000000008200000000000000810000000000000080#512, 0x1006, none) := by
  decide +kernel

theorem test_step_V28_vpmovzxwdEvex256 :
    after start [0x62#8, 0xF2#8, 0x7D#8, 0x28#8, 0x33#8, 0xCA#8] 1 =
      some (0x8F8E00008D8C00008B8A0000898800008786000085840000838200008180#512, 0x1006, none) := by
  decide +kernel

theorem test_step_V29_vpmovzxwqEvex256 :
    after start [0x62#8, 0xF2#8, 0x7D#8, 0x28#8, 0x34#8, 0xCA#8] 1 =
      some (0x8786000000000000858400000000000083820000000000008180#512, 0x1006, none) := by
  decide +kernel

theorem test_step_V30_vpmovzxdqEvex256 :
    after start [0x62#8, 0xF2#8, 0x7D#8, 0x28#8, 0x35#8, 0xCA#8] 1 =
      some (0x8F8E8D8C000000008B8A898800000000878685840000000083828180#512, 0x1006, none) := by
  decide +kernel

theorem test_step_V31_vpmovzxbwEvex512 :
    after start [0x62#8, 0xF2#8, 0x7D#8, 0x48#8, 0x30#8, 0xCA#8] 1 =
      some (0x9F009E009D009C009B009A0099009800970096009500940093009200910090008F008E008D008C008B008A0089008800870086008500840083008200810080#512, 0x1006, none) := by
  decide +kernel

theorem test_step_V32_vpmovzxbdEvex512 :
    after start [0x62#8, 0xF2#8, 0x7D#8, 0x48#8, 0x31#8, 0xCA#8] 1 =
      some (0x8F0000008E0000008D0000008C0000008B0000008A00000089000000880000008700000086000000850000008400000083000000820000008100000080#512, 0x1006, none) := by
  decide +kernel

theorem test_step_V33_vpmovzxbqEvex512 :
    after start [0x62#8, 0xF2#8, 0x7D#8, 0x48#8, 0x32#8, 0xCA#8] 1 =
      some (0x870000000000000086000000000000008500000000000000840000000000000083000000000000008200000000000000810000000000000080#512, 0x1006, none) := by
  decide +kernel

theorem test_step_V34_vpmovzxwdEvex512 :
    after start [0x62#8, 0xF2#8, 0x7D#8, 0x48#8, 0x33#8, 0xCA#8] 1 =
      some (0x9F9E00009D9C00009B9A000099980000979600009594000093920000919000008F8E00008D8C00008B8A0000898800008786000085840000838200008180#512, 0x1006, none) := by
  decide +kernel

theorem test_step_V35_vpmovzxwqEvex512 :
    after start [0x62#8, 0xF2#8, 0x7D#8, 0x48#8, 0x34#8, 0xCA#8] 1 =
      some (0x8F8E0000000000008D8C0000000000008B8A00000000000089880000000000008786000000000000858400000000000083820000000000008180#512, 0x1006, none) := by
  decide +kernel

theorem test_step_V36_vpmovzxdqEvex512 :
    after start [0x62#8, 0xF2#8, 0x7D#8, 0x48#8, 0x35#8, 0xCA#8] 1 =
      some (0x9F9E9D9C000000009B9A999800000000979695940000000093929190000000008F8E8D8C000000008B8A898800000000878685840000000083828180#512, 0x1006, none) := by
  decide +kernel

/-! ## A second step of each form: writemasks (section B3), corner cases (B4) and memory operands (B5) -/

/-- Memory of section B5: the bytes 80h to BFh at 10000h, and only they are accessible. -/
def dataMem : Memory := (List.range 64).map fun i => (0x10000 + i, BitVec.ofNat 8 (0x80 + i))

def memStart (mask : KMask) : State :=
  let s := startWith mask
  { s with mem := dataMem, cfg := { s.cfg with accessible := [⟨0x10000, 64⟩] } }

def setGreg (s : State) (r : GReg) (a : Addr) : State := { s with x := s.x.set r a }
def atPc (s : State) (a : Addr) : State := { s with pc := a }
def setKreg (s : State) (r : KReg) (m : KMask) : State := { s with k := s.k.set r m }

theorem test_dataMem_is_canonical : dataMem.wf = true := by decide

theorem test_step_M11_pmovzxbw :
    after (setGreg (setGreg (memStart maskK) 13 0xFFFC) 14 1 |>.setVreg 5 din) [0x66#8, 0x43#8, 0x0F#8, 0x38#8, 0x30#8, 0x6C#8, 0xF5#8, 0xFC#8] 5 =
      some (0xCECBC8C5C2BFBCB9B6B3B0ADAAA7A4A19E9B9895928F8C898683807D7A7774716E6B6865625F5C595653504D4A47444100870086008500840083008200810080#512, 0x1008, none) := by
  decide +kernel

theorem test_step_M7_pmovzxbd :
    after ((atPc (memStart maskK) 0xFEF7).setVreg 0 din) [0x66#8, 0x0F#8, 0x38#8, 0x31#8, 0x05#8, 0x00#8, 0x01#8, 0x00#8, 0x00#8] 0 =
      some (0xCECBC8C5C2BFBCB9B6B3B0ADAAA7A4A19E9B9895928F8C898683807D7A7774716E6B6865625F5C595653504D4A47444100000083000000820000008100000080#512, 0xff00, none) := by
  decide +kernel

theorem test_step_M6_pmovzxbq :
    after ((setGreg (setGreg (memStart maskK) 3 0x10000) 1 4).setVreg 3 din) [0x66#8, 0x0F#8, 0x38#8, 0x32#8, 0x5C#8, 0x8B#8, 0x10#8] 3 =
      some (0xCECBC8C5C2BFBCB9B6B3B0ADAAA7A4A19E9B9895928F8C898683807D7A7774716E6B6865625F5C595653504D4A47444100000000000000A100000000000000A0#512, 0x1007, none) := by
  decide +kernel

theorem test_step_M9_pmovzxwd :
    after (setGreg (memStart maskK) 5 0x10000) [0x66#8, 0x0F#8, 0x38#8, 0x33#8, 0x55#8, 0x00#8] 2 =
      some (0xBFBEBDBCBBBAB9B8B7B6B5B4B3B2B1B0AFAEADACABAAA9A8A7A6A5A4A3A2A1A09F9E9D9C9B9A9998979695949392919000008786000085840000838200008180#512, 0x1006, none) := by
  decide +kernel

theorem test_step_M2_pmovzxwq :
    after (setGreg (memStart maskK) 0 0x10000) [0x66#8, 0x0F#8, 0x38#8, 0x34#8, 0x48#8, 0x08#8] 1 =
      some (0xCECBC8C5C2BFBCB9B6B3B0ADAAA7A4A19E9B9895928F8C898683807D7A7774716E6B6865625F5C595653504D4A4744410000000000008B8A0000000000008988#512, 0x1006, none) := by
  decide +kernel

theorem test_step_M10_pmovzxdq :
    after ((setGreg (memStart maskK) 12 0x10000).setVreg 15 din) [0x66#8, 0x45#8, 0x0F#8, 0x38#8, 0x35#8, 0x3C#8, 0x24#8] 15 =
      some (0xCECBC8C5C2BFBCB9B6B3B0ADAAA7A4A19E9B9895928F8C898683807D7A7774716E6B6865625F5C595653504D4A47444100000000878685840000000083828180#512, 0x1007, none) := by
  decide +kernel

theorem test_step_M5_vpmovzxwqVex128 :
    after (setGreg (memStart maskK) 6 0x10001) [0xC4#8, 0xE2#8, 0x79#8, 0x34#8, 0x7E#8, 0xFF#8] 7 =
      some (0x83820000000000008180#512, 0x1006, none) := by
  decide +kernel

theorem test_step_program_B_vpmovzxbdVex256 :
    after (setGreg (memStart maskK) 0 0x10000) [0xC4#8, 0xE2#8, 0x7D#8, 0x31#8, 0x08#8] 1 =
      some (0x8700000086000000850000008400000083000000820000008100000080#512, 0x1005, none) := by
  decide +kernel

theorem test_step_V82_ones_vpmovzxwdVex128 :
    after (start.setVreg 2 (BitVec.allOnes 512)) [0xC4#8, 0xE2#8, 0x79#8, 0x33#8, 0xCA#8] 1 =
      some (0xFFFF0000FFFF0000FFFF0000FFFF#512, 0x1005, none) := by
  decide +kernel

theorem test_step_V85_low_bits_vpmovzxbqVex256 :
    after (start.setVreg 2 (BitVec.allOnes 512 <<< 32)) [0xC4#8, 0xE2#8, 0x7D#8, 0x32#8, 0xCA#8] 1 =
      some (0x0#512, 0x1005, none) := by
  decide +kernel

theorem test_step_V37_vpmovzxbwEvex128 :
    after (start) [0x62#8, 0xF2#8, 0x7D#8, 0x09#8, 0x30#8, 0xCA#8] 1 =
      some (0x3E3B008600852C290083201D1A170080#512, 0x1006, none) := by
  decide +kernel

theorem test_step_V40_vpmovzxbdEvex128 :
    after (start) [0x62#8, 0xF2#8, 0x7D#8, 0x89#8, 0x31#8, 0xCA#8] 1 =
      some (0x83000000000000000000000080#512, 0x1006, none) := by
  decide +kernel

theorem test_step_V41_vpmovzxbqEvex128 :
    after (start) [0x62#8, 0xF2#8, 0x7D#8, 0x09#8, 0x32#8, 0xCA#8] 1 =
      some (0x3E3B3835322F2C290000000000000080#512, 0x1006, none) := by
  decide +kernel

theorem test_step_V44_vpmovzxwdEvex128 :
    after (start) [0x62#8, 0xF2#8, 0x7D#8, 0x89#8, 0x33#8, 0xCA#8] 1 =
      some (0x8786000000000000000000008180#512, 0x1006, none) := by
  decide +kernel

theorem test_step_V45_vpmovzxwqEvex128 :
    after (start) [0x62#8, 0xF2#8, 0x7D#8, 0x09#8, 0x34#8, 0xCA#8] 1 =
      some (0x3E3B3835322F2C290000000000008180#512, 0x1006, none) := by
  decide +kernel

theorem test_step_V48_vpmovzxdqEvex128 :
    after (start) [0x62#8, 0xF2#8, 0x7D#8, 0x89#8, 0x35#8, 0xCA#8] 1 =
      some (0x83828180#512, 0x1006, none) := by
  decide +kernel

theorem test_step_V50_vpmovzxbwEvex256 :
    after (start) [0x62#8, 0xF2#8, 0x7D#8, 0xA9#8, 0x30#8, 0xCA#8] 1 =
      some (0x8F00000000008C0000008A0089000000000086008500000083000000000080#512, 0x1006, none) := by
  decide +kernel

theorem test_step_V51_vpmovzxbdEvex256 :
    after (start) [0x62#8, 0xF2#8, 0x7D#8, 0x29#8, 0x31#8, 0xCA#8] 1 =
      some (0x6E6B686500000086000000854A47444100000083322F2C292623201D00000080#512, 0x1006, none) := by
  decide +kernel

theorem test_step_M3_vpmovzxbqEvex256 :
    after (setGreg (memStart 0xA5A5C3A5) 0 0x10000) [0x62#8, 0xE2#8, 0x7D#8, 0x29#8, 0x32#8, 0x48#8, 0x04#8] 17 =
      some (0x6E6B6865625F5C5900000000000000923E3B3835322F2C290000000000000090#512, 0x1007, none) := by
  decide +kernel

theorem test_step_V75_vpmovzxwdEvex256 :
    after (startWith 0xFFFFFFFFFFFFFF00) [0x62#8, 0xF2#8, 0x7D#8, 0x29#8, 0x33#8, 0xCA#8] 1 =
      some (0x6E6B6865625F5C595653504D4A4744413E3B3835322F2C292623201D1A171411#512, 0x1006, none) := by
  decide +kernel

theorem test_step_V58_vpmovzxwqEvex256 :
    after (start) [0x62#8, 0xF2#8, 0x7D#8, 0xA9#8, 0x34#8, 0xCA#8] 1 =
      some (0x8786000000000000000000000000000000000000000000008180#512, 0x1006, none) := by
  decide +kernel

theorem test_step_V81_vpmovzxdqEvex256 :
    after (start) [0x62#8, 0xF2#8, 0x7D#8, 0x29#8, 0x35#8, 0xC9#8] 1 =
      some (0x3E3B38355653504D4A4744413E3B3835322F2C29000000001A171411#512, 0x1006, none) := by
  decide +kernel

theorem test_step_M8_vpmovzxbwEvex512 :
    after (setGreg (setGreg (memStart maskK) 8 0xFF80) 9 0x20) [0x62#8, 0x02#8, 0x7D#8, 0x48#8, 0x30#8, 0x74#8, 0x48#8, 0x02#8] 30 =
      some (0x9F009E009D009C009B009A0099009800970096009500940093009200910090008F008E008D008C008B008A0089008800870086008500840083008200810080#512, 0x1008, none) := by
  decide +kernel

theorem test_step_M4_vpmovzxbdEvex512 :
    after (setGreg (memStart maskK) 0 0x10010) [0x62#8, 0xF2#8, 0x7D#8, 0x48#8, 0x31#8, 0x68#8, 0xFF#8] 5 =
      some (0x8F0000008E0000008D0000008C0000008B0000008A00000089000000880000008700000086000000850000008400000083000000820000008100000080#512, 0x1007, none) := by
  decide +kernel

theorem test_step_V66_vpmovzxbqEvex512 :
    after (start) [0x62#8, 0xF2#8, 0x7D#8, 0xC9#8, 0x32#8, 0xCA#8] 1 =
      some (0x86000000000000008500000000000000000000000000000083000000000000000000000000000000000000000000000080#512, 0x1006, none) := by
  decide +kernel

theorem test_step_V67_vpmovzxwdEvex512 :
    after (start) [0x62#8, 0xF2#8, 0x7D#8, 0x49#8, 0x33#8, 0xCA#8] 1 =
      some (0x9F9EC2BFBCB9B6B3B0AD000099989E9B989500009594000093927A7774716E6B686500008D8C00008B8A4A47444100008786322F2C292623201D00008180#512, 0x1006, none) := by
  decide +kernel

theorem test_step_M13_vpmovzxwqEvex512 :
    after ((setKreg (atPc (memStart maskK) 0xFFE6) 2 0xFF).setVreg 0 din) [0x62#8, 0xF2#8, 0x7D#8, 0x4A#8, 0x34#8, 0x05#8, 0x10#8, 0x00#8, 0x00#8, 0x00#8] 0 =
      some (0x8F8E0000000000008D8C0000000000008B8A00000000000089880000000000008786000000000000858400000000000083820000000000008180#512, 0xfff0, none) := by
  decide +kernel

theorem test_step_V83_vpmovzxdqEvex512 :
    after (start.setVreg 2 (BitVec.allOnes 512)) [0x62#8, 0xF2#8, 0x7D#8, 0x48#8, 0x35#8, 0xCA#8] 1 =
      some (0xFFFFFFFF00000000FFFFFFFF00000000FFFFFFFF00000000FFFFFFFF00000000FFFFFFFF00000000FFFFFFFF00000000FFFFFFFF00000000FFFFFFFF#512, 0x1006, none) := by
  decide +kernel

/-! ## Exceptions: vectors F1 to F11 -/

/-- F1 and F2: exactly the NB bytes of the operand are checked, and the first inaccessible one is reported. -/
theorem test_F1_F2_page_fault :
    after (setGreg (memStart maskK) 0 0x10039) [0x66#8, 0x0F#8, 0x38#8, 0x30#8, 0x08#8] 1 =
      some (din, 0x1000, some ⟨.pf 0x10040, 0x1000⟩) ∧
    after (setGreg (memStart maskK) 0 0x10038) [0x66#8, 0x0F#8, 0x38#8, 0x30#8, 0x08#8] 1 =
      some (0xCECBC8C5C2BFBCB9B6B3B0ADAAA7A4A19E9B9895928F8C898683807D7A7774716E6B6865625F5C595653504D4A47444100BF00BE00BD00BC00BB00BA00B900B8#512, 0x1005, none) := by
  decide +kernel

/-- F3: a masked-off element that is not accessible, without and with `FaultSuppression`. -/
theorem test_F3_fault_suppression :
    after (setGreg (memStart 0x7F) 0 0x10032) [0x62#8, 0xF2#8, 0x7D#8, 0x29#8, 0x33#8, 0x08#8] 1 =
      some (din, 0x1000, some ⟨.pf 0x10040, 0x1000⟩) ∧
    after ((setGreg (memStart 0x7F) 0 0x10032).withSuppression true) [0x62#8, 0xF2#8, 0x7D#8, 0x29#8, 0x33#8, 0x08#8] 1 =
      some (0x6E6B68650000BFBE0000BDBC0000BBBA0000B9B80000B7B60000B5B40000B3B2#512, 0x1006, none) := by
  decide +kernel

/-- F5, F6, F7: a non-canonical address, with base RBP, and the canonical check before the page fault. -/
theorem test_F5_F6_F7_canonical :
    after (setGreg (memStart maskK) 0 0x0000800000000000) [0x66#8, 0x0F#8, 0x38#8, 0x30#8, 0x08#8] 1 =
      some (din, 0x1000, some ⟨.gp, 0x1000⟩) ∧
    after (setGreg (memStart maskK) 5 0x0000800000000000) [0x66#8, 0x0F#8, 0x38#8, 0x33#8, 0x55#8, 0x00#8] 1 =
      some (din, 0x1000, some ⟨.ss, 0x1000⟩) ∧
    after (setGreg (memStart maskK) 0 0x00007FFFFFFFFFFC) [0x66#8, 0x0F#8, 0x38#8, 0x30#8, 0x08#8] 1 =
      some (din, 0x1000, some ⟨.gp, 0x1000⟩) := by
  decide +kernel

/-- F8: the reserved `vvvv` is checked before memory. -/
theorem test_F8_ud_before_page_fault :
    after (setGreg (memStart maskK) 0 0x20000) [0xC4#8, 0xE2#8, 0x71#8, 0x30#8, 0x08#8] 1 =
      some (din, 0x1000, some ⟨.ud, 0x1000⟩) := by
  decide +kernel

/-- The state with other features. -/
def withFeatures (s : State) (f : Features) : State := { s with cfg := { s.cfg with features := f } }

/-- F9, F10, F11: a missing feature. -/
theorem test_F9_F10_F11_missing_feature :
    after (withFeatures start { allFeatures with avx512f := false }) [0x62#8, 0xF2#8, 0x7D#8, 0x48#8, 0x35#8, 0xCA#8] 1 =
      some (din, 0x1000, some ⟨.ud, 0x1000⟩) ∧
    after (withFeatures start { allFeatures with avx512vl := false }) [0x62#8, 0xF2#8, 0x7D#8, 0x08#8, 0x30#8, 0xCA#8] 1 =
      some (din, 0x1000, some ⟨.ud, 0x1000⟩) ∧
    after (withFeatures start { allFeatures with sse41 := false }) [0x66#8, 0x0F#8, 0x38#8, 0x30#8, 0xCA#8] 1 =
      some (din, 0x1000, some ⟨.ud, 0x1000⟩) := by
  decide +kernel

/-! ## Memory and the helpers -/

theorem test_memory_is_canonical :
    State.reset.mem.wf = true ∧ Memory.wf [(5, 1#8), (3, 1#8)] = false ∧ Memory.wf [(3, 0#8)] = false ∧
    Memory.wf [(2 ^ 64, 1#8)] = false := by decide

/-- Rules R30 and R32: a byte written is read back, and the unlisted byte leaves no cell. -/
theorem test_memory_write :
    Memory.load [] 3 [1#8, 2#8] = [(3, 1#8), (4, 2#8)] ∧ Memory.write [(3, 1#8), (4, 2#8)] 3 0#8 = [(4, 2#8)] ∧
    Memory.read [(3, 1#8), (4, 2#8)] 4 = 2#8 ∧ Memory.read [(3, 1#8)] 4 = 0#8 := by decide

/-- Section B1: the six helpers. -/
theorem test_helpers :
    bytesToWords 0x8786858483828180#64 = 0x00870086008500840083008200810080#128 ∧
    bytesToDwords 0x83828180#32 = 0x00000083000000820000008100000080#128 ∧
    bytesToQwords 0x8180#16 = 0x00000000000000810000000000000080#128 ∧
    wordsToDwords 0x8786858483828180#64 = 0x00008786000085840000838200008180#128 ∧
    wordsToQwords 0x83828180#32 = 0x00000000000083820000000000008180#128 ∧
    dwordsToQwords 0x8786858483828180#64 = 0x00000000878685840000000083828180#128 := by decide +kernel

/-! ## Witnesses: concrete values that meet the hypotheses of the obligations -/

/-- A VEX.256 form reading memory at `[rax + 0]`, and one word of it. -/
def bdMem : Instr := .vpmovzxbdVex256 1 (.mem (.base 0 .none))

theorem witness_DecodeOfEncodeIsTheInstruction :
    (Instr.pmovzxbw false 7 (.mem (.sib 7 (some ⟨7, .x8⟩) (.disp8 0x80)))).wf = true ∧
    (Instr.pmovzxdq true 15 (.mem (.base 15 (.disp32 0x80000000)))).wf = true ∧
    (Instr.vpmovzxwqVex256 15 (.mem (.sibNoBase (some ⟨15, .x8⟩) 0xFFFFFFFF))).wf = true ∧
    (Instr.vpmovzxbqEvex512 (.zeroing 7) 31 (.reg 31)).wf = true := by decide

theorem witness_DecodedInstructionIsWellFormed :
    decode [0xC4#8, 0xE2#8, 0x7D#8, 0x31#8, 0x08#8, 0xFF#8] = .instr bdMem [0xFF#8] := by decide

theorem witness_EncodedLengthIsTheSumOfItsParts :
    (Instr.pmovzxbw true 0 (.reg 15)).shape.src = .reg 15 ∧ (Instr.pmovzxbw false 0 (.reg 7)).shape.src = .reg 7 ∧
    (Instr.vpmovzxbwVex128 0 (.reg 15)).shape.src = .reg 15 ∧
    (Instr.vpmovzxbwEvex128 .none 0 (.reg 31)).shape.src = .reg 31 := by decide

theorem witness_OpcodeSelectsTheConversion :
    (0x2F#8 < 0x30 ∧ ¬(0x30#8 < 0x30) ∧ ¬(0x35 < 0x35#8) ∧ 0x35 < 0x36#8) ∧
    decode [0x66#8, 0x0F#8, 0x38#8, 0x35#8, 0xC0#8] = .instr (.pmovzxdq false 0 (.reg 0)) [] ∧
    (isRex 0x48#8 = true ∧
      decode [0x66#8, 0x48#8, 0x0F#8, 0x38#8, 0x35#8, 0xC0#8] = .instr (.pmovzxdq true 0 (.reg 0)) []) ∧
    decode [0xC4#8, 0xE2#8, 0x79#8, 0x30#8, 0xC0#8] = .instr (.vpmovzxbwVex128 0 (.reg 0)) [] ∧
    decode [0x62#8, 0xF2#8, 0x7D#8, 0x08#8, 0x35#8, 0xC0#8] = .instr (.vpmovzxdqEvex128 .none 0 (.reg 0)) [] := by decide

/-- `vvvv` = 1110b and 0000b. -/
theorem witness_VvvvNotAllOnesRaisesUd :
    (let s := start.loadText [0xC4#8, 0xE2#8, 0x71#8, 0x30#8, 0xCA#8]
     s.fault = none ∧ s.pcInText = true ∧ s.fetch = [0xC4#8, 0xE2#8, 0x71#8, 0x30#8, 0xCA#8] ∧
     (conversionOf 0x30#8).isSome ∧ bits 0xE2#8 0 5 = 2#5 ∧ bits 0x71#8 0 2 = 1#2 ∧
     (readOperands (vexExt 0xE2#8) [0xCA#8]).isSome ∧ bits 0x71#8 3 4 ≠ 15#4) ∧
    (let s := start.loadText [0x62#8, 0xF2#8, 0x05#8, 0x08#8, 0x35#8, 0xCA#8]
     s.fault = none ∧ s.pcInText = true ∧ s.fetch = [0x62#8, 0xF2#8, 0x05#8, 0x08#8, 0x35#8, 0xCA#8] ∧
     (conversionOf 0x35#8).isSome ∧ bits 0xF2#8 0 4 = 2#4 ∧ bit 0x05#8 2 = true ∧ bits 0x05#8 0 2 = 1#2 ∧
     (readOperands (evexExt 0xF2#8) [0xCA#8]).isSome ∧ bits 0x05#8 3 4 ≠ 15#4) := by decide +kernel

/-- A form in order, one with each reserved field out of order, and the two fields of later extensions. -/
theorem witness_ReservedFieldsDecideTheVerdict :
    (conversionOf 0x30#8).isSome ∧ bits 0xF2#8 0 2 = 2#2 ∧ bits 0x7D#8 0 2 = 1#2 ∧ bits 0xF2#8 2 2 = 0#2 ∧
    bit 0x7D#8 2 = true ∧ (readOperands (evexExt 0xF2#8) [0xCA#8]).isSome ∧
    (bits 0x75#8 3 4 ≠ 15#4 ∧ bit 0x75#8 2 = true) ∧ (bit 0xFD#8 7 = true ∧ bit 0xFD#8 2 = true) ∧ bits 0x68#8 5 2 = 3#2 ∧
    bit 0x00#8 3 = false ∧ bit 0x18#8 4 = true ∧ (bit 0x88#8 7 = true ∧ bits 0x88#8 0 3 = 0#3) ∧
    (bits 0xFA#8 0 2 = 2#2 ∧ bits 0xFA#8 2 2 ≠ 0#2) ∧ (bits 0x79#8 0 2 = 1#2 ∧ bit 0x79#8 2 = false) ∧
    (bits 0xE2#8 0 5 = 2#5 ∧ bits 0x79#8 0 2 = 1#2 ∧ (readOperands (vexExt 0xE2#8) [0xCA#8]).isSome) := by decide

theorem witness_IgnoredBitsEncodeTheSameInstruction :
    isRex 0x40#8 = true ∧ isRex 0x4F#8 = true ∧ (0x34#8 : Byte) ≠ 0x35#8 ∧
    (bits 0xF2#8 0 4 = 2#4 ∧ bits 0xFD#8 0 3 = 5#3 ∧ (readOperands (evexExt 0xF2#8) [0xCA#8]).isSome ∧ bit 0xFD#8 7 = true) ∧
    (hasSib 0xC4#8 = false ∧ hasSib 0x05#8 = false ∧ hasSib 0x84#8 = true) ∧
    (hasSib 0x05#8 = false ∧ bits 0x05#8 6 2 ≠ 3#2) := by decide

theorem witness_VectorLengthIsSelectedByTheEncoding :
    decode [0x66#8, 0x0F#8, 0x38#8, 0x30#8, 0xC0#8] = .instr (.pmovzxbw false 0 (.reg 0)) [] ∧
    decode [0xC4#8, 0xE2#8, 0x7D#8, 0x30#8, 0xC0#8] = .instr (.vpmovzxbwVex256 0 (.reg 0)) [] ∧
    decode [0xC4#8, 0xE2#8, 0x79#8, 0x30#8, 0xC0#8] = .instr (.vpmovzxbwVex128 0 (.reg 0)) [] ∧
    decode [0x62#8, 0xF2#8, 0x7D#8, 0x48#8, 0x30#8, 0xC0#8] = .instr (.vpmovzxbwEvex512 .none 0 (.reg 0)) [] ∧
    ((conversionOf 0x35#8).isSome ∧ bits 0xF2#8 0 4 = 2#4 ∧ bits 0x7D#8 0 3 = 5#3 ∧
      (readOperands (evexExt 0xF2#8) [0xCA#8]).isSome ∧ bits 0x68#8 5 2 = 3#2) := by decide

/-- The accepted run with and without REX, a run with F2h, and the empty run. -/
theorem witness_PrefixesOfALegacyForm :
    conversionOf 0x30#8 = some .bw ∧ isRex 0x4F#8 = true ∧ (∀ b ∈ [0x66#8], isLegacyPrefix b = true) ∧
    (readOperands (legacyExt (some 0x4F#8)) [0xCA#8]).isSome ∧ (readOperands (legacyExt none) []).isNone ∧
    ((∀ b ∈ [0x66#8, 0xF2#8], isLegacyPrefix b = true) ∧ 0xF2#8 ∈ [0x66#8, 0xF2#8]) ∧
    (([] : List Byte) ≠ [0x66#8] ∧ ¬(0xF0#8 ∈ ([] : List Byte) ∨ 0xF2#8 ∈ ([] : List Byte) ∨ 0xF3#8 ∈ ([] : List Byte))) ∧
    ((∀ b ∈ [0x66#8, 0x66#8], isLegacyPrefix b = true) ∧ [0x66#8, 0x66#8] ≠ [0x66#8]) := by decide

/-- A VEX tail after 66h, after REX and after a segment override; an EVEX tail; and bytes that are no tail. -/
theorem witness_PrefixesOfAVectorFormAndOtherBytes :
    FamilyTail [0xC4#8, 0xE2#8, 0x79#8, 0x30#8, 0xCA#8] ∧ FamilyTail [0x62#8, 0xF2#8, 0x7D#8, 0x08#8, 0x35#8, 0xCA#8] ∧
    (isLegacyPrefix 0x66#8 = true ∧ isLegacyPrefix 0x65#8 = true ∧ isRex 0x40#8 = true) ∧
    StartsRest [0xC4#8, 0xE2#8, 0x79#8, 0x30#8, 0xCA#8] ∧ StartsRest [] ∧ ¬FamilyTail [] ∧ ¬FamilyTail [0x90#8] := by
  refine ⟨.inr (.inl ⟨_, _, _, _, rfl, by decide, by decide, by decide⟩),
    .inr (.inr ⟨_, _, _, _, _, rfl, by decide, by decide, by decide, by decide⟩), by decide, ⟨by decide, by decide⟩, trivial,
    ?_, ?_⟩ <;>
  rintro (⟨_, _, h, _⟩ | ⟨_, _, _, _, h, _⟩ | ⟨_, _, _, _, _, h, _⟩) <;> simp at h

/-- All four formats of register and memory operands, at the highest numbers. -/
theorem witness_RegisterNumbersAreAssembledFromTheirBits :
    readOperands ⟨true, true, true, true, true⟩ [0xFF#8] = some (31, .reg 31, []) ∧
    readOperands ⟨false, false, false, true, false⟩ [0x07#8] = some (0, .mem (.base 15 .none), []) ∧
    readOperands ⟨false, false, true, true, false⟩ [0x04#8, 0xFF#8] =
      some (0, .mem (.sib 15 (some ⟨15, .x8⟩) .none), []) ∧
    readOperands ⟨false, false, false, false, false⟩ [0x04#8, 0x25#8, 0#8, 0#8, 0#8, 0#8] =
      some (0, .mem (.sibNoBase none 0), []) ∧
    isRex 0x45#8 = true ∧ (decodeTableWord 48 0xCA30380F4566).isSome ∧ (decodeTableWord 40 0xCA30380F66).isSome ∧
    (decodeTableWord 40 0xCA307DE2C4).isSome ∧
    decodeTableWord 48 0xCA30C97DF262 = some (.vpmovzxbwEvex512 (.zeroing 1) 1 (.reg 2)) ∧
    decodeTableWord 48 0xCA304F7DF262 = some (.vpmovzxbwEvex512 (.merging 7) 1 (.reg 2)) := by decide

theorem witness_EffectiveAddressFollowsTheBytes :
    readOperands ⟨false, false, true, true, false⟩ [0x6C#8, 0xF5#8, 0xFC#8] =
      some (5, .mem (.sib 13 (some ⟨14, .x8⟩) (.disp8 0xFC)), []) ∧
    readOperands ⟨false, false, false, false, false⟩ [0x05#8, 0xFF#8, 0xFF#8, 0xFF#8, 0xFF#8] =
      some (0, .mem (.ripRel 0xFFFFFFFF), []) := by decide

/-- Each clause with hypotheses, the displacement at both ends of its range: an EVEX form, a legacy form, a VEX form with a
SIB byte, and two operands without an 8-bit displacement at one address. -/
theorem witness_Disp8IsCompressedInEvexOnly :
    (let i := Instr.vpmovzxbwEvex512 (.merging 7) 1 (.mem (.base 0 (.disp8 0x80)))
     let j := Instr.vpmovzxbwEvex512 (.merging 7) 1 (.mem (.base 0 (.disp32 0xFFFFF000)))
     i.shape = .evex .bw .v512 (.merging 7) 1 (.mem (.base 0 (.disp8 0x80))) ∧
     j.shape = i.shape.withSrc (.mem (.base 0 (.disp32 0xFFFFF000))) ∧
     WidensDisp8 (sourceBytes .bw .v512) (.base 0 (.disp8 0x80)) (.base 0 (.disp32 0xFFFFF000))) ∧
    (Instr.pmovzxbq true 9 (.mem (.base 0 (.disp32 0x7F)))).shape =
      (Instr.pmovzxbq true 9 (.mem (.base 0 (.disp8 0x7F)))).shape.withSrc (.mem (.base 0 (.disp32 0x7F))) ∧
    WidensDisp8 1 (.base 0 (.disp8 0x7F)) (.base 0 (.disp32 0x7F)) ∧
    WidensDisp8 1 (.sib 0 (some ⟨12, .x8⟩) (.disp8 0x80)) (.sib 0 (some ⟨12, .x8⟩) (.disp32 0xFFFFFF80)) ∧
    (let i := Instr.vpmovzxdqVex256 1 (.mem (.base 0 (.disp32 0xFFFFFFFF)))
     let j := Instr.vpmovzxdqVex256 1 (.mem (.ripRel 0xFFFFFFF6))
     j.shape = i.shape.withSrc (.mem (.ripRel 0xFFFFFFF6)) ∧
     MemOp.hasDisp8 (.base 0 (.disp32 0xFFFFFFFF)) = false ∧ MemOp.hasDisp8 (.ripRel 0xFFFFFFF6) = false ∧
     stackBase (.base 0 (.disp32 0xFFFFFFFF)) = stackBase (.ripRel 0xFFFFFFF6) ∧
     let s := State.reset
     s.effectiveAddress 1 (s.pc + BitVec.ofNat 64 i.length) (.base 0 (.disp32 0xFFFFFFFF)) =
       s.effectiveAddress 1 (s.pc + BitVec.ofNat 64 j.length) (.ripRel 0xFFFFFFF6)) := by
  refine ⟨⟨rfl, rfl, .inl ⟨0, 0x80, rfl, rfl⟩⟩, rfl, .inl ⟨0, 0x7F, rfl, rfl⟩, .inr ⟨0, some ⟨12, .x8⟩, 0x80, rfl, rfl⟩, ?_⟩
  decide +kernel

/-- The state of vector M1 with its text. -/
def m1State : State := (setGreg (memStart maskK) 0 0x10000).loadText [0x66#8, 0x0F#8, 0x38#8, 0x30#8, 0x08#8]

theorem witness_StepRunsTheDecodedInstruction :
    m1State.fault = none ∧ m1State.pcInText = true ∧
    decode m1State.fetch = .instr (.pmovzxbw false 1 (.mem (.base 0 .none))) [] := by decide +kernel

/-- The last byte of the text. -/
theorem witness_FetchReadsTheTextAndNotMemory :
    m1State.pcInText = true ∧ m1State.cfg.text[m1State.pc.toNat + 4 - m1State.cfg.base.toNat]? = some 0x08#8 ∧
    m1State.cfg.text[m1State.pc.toNat + 5 - m1State.cfg.base.toNat]? = none := by decide +kernel

/-- Below the text, above it, a refusal (a text that ends too early) and `UD`. -/
theorem witness_VerdictsOtherThanAnInstruction :
    ((atPc m1State 0xFFF).fault = none ∧ (atPc m1State 0xFFF).pc.toNat ≠ (atPc m1State 0xFFF).textEnd ∧
      (atPc m1State 0xFFF).pc.toNat < (atPc m1State 0xFFF).cfg.base.toNat) ∧
    ((atPc m1State 0x1006).pc.toNat ≠ (atPc m1State 0x1006).textEnd ∧
      (atPc m1State 0x1006).textEnd < (atPc m1State 0x1006).pc.toNat) ∧
    (let s := start.loadText [0x66#8, 0x0F#8, 0x38#8, 0x30#8]
     s.fault = none ∧ s.pc.toNat ≠ s.textEnd ∧ s.pcInText = true ∧ decode s.fetch = .refused .runsOffText) ∧
    (let s := start.loadText [0x62#8, 0xF2#8, 0x7D#8, 0x18#8, 0x30#8, 0xCA#8]
     s.fault = none ∧ s.pc.toNat ≠ s.textEnd ∧ s.pcInText = true ∧ decode s.fetch = .ud) := by decide +kernel

theorem witness_NoStepAfterAFaultOrTheEnd :
    (start.raise .ud).fault = some ⟨.ud, 0x1000⟩ ∧ (atPc m1State 0x1005).EndedNormally := by
  refine ⟨by decide +kernel, by decide +kernel, by decide +kernel⟩

/-- An operand nothing of which is accessible. -/
theorem witness_ExceptionsArePreciseAndTerminal :
    ∃ t, step (setGreg m1State 0 0x20000) = .next t ∧ t.fault ≠ none := by
  have h : (match step (setGreg m1State 0 0x20000) with | .next t => t.fault.isSome | _ => false) = true := by
    decide +kernel
  split at h
  · exact ⟨_, by assumption, fun hn => by rw [hn] at h; cases h⟩
  · cases h

theorem witness_exec_answers (i : Instr) : ∃ t, exec i start = .next t := exec_next i start

theorem witness_MissingFeatureRaisesUd :
    (Instr.vpmovzxdqEvex512 .none 1 (.reg 2)).shape.requires
      (withFeatures start { allFeatures with avx512f := false }).cfg.features = false ∧
    (Instr.pmovzxbw false 1 (.reg 2)).shape.requires start.cfg.features = true ∧ start.fault = none := by decide +kernel

/-- The operands of F1, F5, F7, of a wrap past 2^64 and of M1: each clause at an edge of its range. -/
theorem witness_MemoryFaultsInTheirOrder :
    (let s := setGreg m1State 0 0xFFFFFFFFFFFFFFF9
     let ea := s.effectiveAddress 1 (s.pc + 5) (.base 0 .none)
     s.Counted 8 8 .none 0 ∧ 2 ^ 64 < ea.toNat + 8 ∧ ea = 0xFFFFFFFFFFFFFFF9) ∧
    (let s := setGreg m1State 0 0x00007FFFFFFFFFF9
     let ea := s.effectiveAddress 1 (s.pc + 5) (.base 0 .none)
     s.Counted 8 8 .none 7 ∧ ea.toNat + 8 ≤ 2 ^ 64 ∧ canonical (ea + 7) = false) ∧
    (let s := setGreg m1State 0 0x10039
     let ea := s.effectiveAddress 1 (s.pc + 5) (.base 0 .none)
     ea.toNat + 8 ≤ 2 ^ 64 ∧ s.Counted 8 8 .none 7 ∧ s.accessible (ea + 7) = false ∧
       ∀ j, j < 8 → canonical (ea + BitVec.ofNat 64 j) = true ∧ (j < 7 → s.accessible (ea + BitVec.ofNat 64 j) = true)) ∧
    (let s := setGreg m1State 0 0x10038
     let ea := s.effectiveAddress 1 (s.pc + 5) (.base 0 .none)
     ea.toNat + 8 ≤ 2 ^ 64 ∧
       ∀ j, j < 8 → canonical (ea + BitVec.ofNat 64 j) = true ∧ s.accessible (ea + BitVec.ofNat 64 j) = true) ∧
    ((Instr.pmovzxbw false 1 (.mem (.base 0 .none))).shape.requires m1State.cfg.features = true ∧
      (Instr.pmovzxbw false 1 (.reg 2)).shape.requires m1State.cfg.features = true) := by
  refine ⟨⟨⟨by decide, by decide +kernel⟩, by decide +kernel, by decide +kernel⟩,
    ⟨⟨by decide, by decide +kernel⟩, by decide +kernel, by decide +kernel⟩,
    ⟨by decide +kernel, ⟨by decide, by decide +kernel⟩, by decide +kernel, by decide +kernel⟩,
    ⟨by decide +kernel, by decide +kernel⟩, by decide +kernel⟩

/-- The bounds of the canonical ranges. -/
theorem witness_CanonicalMeansBits63To47AreEqual :
    canonical 0x00007FFFFFFFFFFF = true ∧ canonical 0x0000800000000000 = false ∧
    canonical 0xFFFF7FFFFFFFFFFF = false ∧ canonical 0xFFFF800000000000 = true := by decide

/-- F2 and a masked form complete with `FaultSuppression = false`. -/
theorem witness_FaultSuppressionKeepsTheResult :
    ∃ t, start.fault = none ∧ exec (.vpmovzxwdEvex256 (.merging 1) 1 (.reg 2)) (start.withSuppression false) = .next t ∧
      t.fault = none :=
  ⟨_, by decide +kernel, exec_completes (val := src) (by decide +kernel) (by rfl), by decide +kernel⟩

/-- A register operand always has a value. -/
theorem witness_register_operand (srcw nb n len : Nat) (m : Masking) : start.SourceIs srcw nb m n len (.reg 2) (start.vreg 2) :=
  rfl

/-- The memory operand of M1 has a value: the eight bytes at 10000h. -/
theorem witness_memory_operand :
    m1State.SourceIs 8 8 .none 1 5 (.mem (.base 0 .none)) 0x8786858483828180#512 := by
  refine ⟨fun i hi => ?_, fun i hi => ?_⟩
  · have h : ∀ i, i < 8 → ((0x10000 : Addr).toNat + 8 ≤ 2 ^ 64 ∧ canonical ((0x10000 : Addr) + BitVec.ofNat 64 i) = true ∧
        m1State.accessible ((0x10000 : Addr) + BitVec.ofNat 64 i) = true) := by decide +kernel
    have hea : m1State.effectiveAddress 1 (m1State.pc + BitVec.ofNat 64 5) (.base 0 .none) = 0x10000 := by decide +kernel
    rw [hea]
    exact h i hi.1
  · have h : ∀ i, i < 8 → (0x8786858483828180#512).extractLsb' (8 * i) 8 =
        m1State.mem.read ((0x10000 : Addr) + BitVec.ofNat 64 i).toNat := by decide +kernel
    have hea : m1State.effectiveAddress 1 (m1State.pc + BitVec.ofNat 64 5) (.base 0 .none) = 0x10000 := by decide +kernel
    rw [hea]
    exact h i hi.1

/-- The features of the four groups of forms are there in the start state. -/
theorem witness_forms_are_enabled :
    start.cfg.features.sse41 = true ∧ start.cfg.features.avx = true ∧ start.cfg.features.avx2 = true ∧
    (start.cfg.features.avx512bw && start.cfg.features.avx512vl) = true ∧
    (start.cfg.features.avx512f && start.cfg.features.avx512vl) = true ∧ m1State.cfg.features.sse41 = true := by
  decide +kernel

theorem witness_ZeroExtensionIsExact : 31 < elements .bw .v512 ∧ 1 < elements .dq .v128 ∧ ¬(2 < elements .dq .v128) := by
  decide

/-- One memory operand for both formats: `[rax + 16]` is a disp8 of 16 in VEX and of 1 in EVEX (`NB` = 16). -/
theorem witness_UnmaskedEvexWritesWhatVexWrites :
    let i := Instr.vpmovzxbwVex256 1 (.mem (.base 0 (.disp8 16)))
    let j := Instr.vpmovzxbwEvex256 .none 1 (.mem (.base 0 (.disp8 1)))
    i.shape = .vex .bw true 1 (.mem (.base 0 (.disp8 16))) ∧
    j.shape = .evex .bw .v256 .none 1 (.mem (.base 0 (.disp8 1))) ∧
    i.shape.requires start.cfg.features = true ∧ j.shape.requires start.cfg.features = true ∧
    stackBase (.base 0 (.disp8 16)) = stackBase (.base 0 (.disp8 1)) ∧
    start.effectiveAddress 1 (start.pc + BitVec.ofNat 64 i.length) (.base 0 (.disp8 16)) =
      start.effectiveAddress j.shape.dispScale (start.pc + BitVec.ofNat 64 j.length) (.base 0 (.disp8 1)) := by
  decide +kernel

theorem witness_SourceAsDestinationReadsTheOldValue :
    let i := Instr.vpmovzxdqEvex256 (.merging 1) 1 (.reg 1)
    i.shape.src = .reg i.shape.dest ∧ i.shape.requires start.cfg.features = true ∧
    3 < elements i.shape.conv i.shape.vlen ∧ start.maskBit i.shape.masking 3 = true := by decide +kernel

/-- Registers 16 and above changed, those below kept. -/
theorem witness_LegacyAndVexReachRegisters0To15 :
    decode [0x66#8, 0x45#8, 0x0F#8, 0x38#8, 0x30#8, 0xFF#8] = .instr (.pmovzxbw true 15 (.reg 15)) [] ∧
    (∀ c vl m d s, (Instr.pmovzxbw true 15 (.reg 15)).shape ≠ .evex c vl m d s) ∧
    (∀ r : VReg, r.val < 16 → (start.setVreg 16 src).v[r] = start.v[r]) ∧
    ∃ t, exec (.pmovzxbw true 15 (.reg 15)) start = .next t :=
  ⟨by decide, by simp [Instr.shape], by decide +kernel, exec_next _ _⟩

/-- Bit 127 is the last one read, bit 128 the first one ignored. -/
theorem witness_SourceBitsAboveNsrcAreIgnored :
    let i := Instr.vpmovzxbwVex256 1 (.reg 2)
    let val : Vec := src ^^^ (1#512 <<< 128)
    i.shape.src = .reg 2 ∧ val ≠ start.vreg 2 ∧
    (∀ b, b < 8 * sourceBytes i.shape.conv i.shape.vlen → val.getLsbD b = (start.vreg 2).getLsbD b) ∧
    (∃ t, exec i start = .next t) ∧ (∃ t, exec i (start.setVreg 2 val) = .next t) ∧
    i.shape.requires start.cfg.features = true ∧ 15 < elements i.shape.conv i.shape.vlen ∧
    start.maskBit i.shape.masking 15 = true :=
  ⟨rfl, by decide +kernel, by decide +kernel, exec_next _ _, exec_next _ _, by decide +kernel, by decide, rfl⟩

/-- Another mask in `k[1]` with the same bits 7:0, and other masks everywhere for a form without writemask. -/
theorem witness_OnlyTheNamedMaskBitsBelowKlAreRead :
    let i := Instr.vpmovzxwdEvex256 (.merging 1) 1 (.reg 2)
    (∀ j, j < elements i.shape.conv i.shape.vlen →
      ((Vector.replicate 8 (0x69#64 : KMask))[(1 : KReg)]).getLsbD j = (start.kreg 1).getLsbD j) ∧
    (Vector.replicate 8 (0x69#64 : KMask))[(1 : KReg)] ≠ start.kreg 1 ∧ ∃ t, exec i start = .next t :=
  ⟨by decide +kernel, by decide +kernel, exec_next _ _⟩

/-- Memory and accessibility changed outside 10000h to 10007h. -/
theorem witness_OnlyTheOperandsBytesAreRead :
    let i := Instr.pmovzxbw false 1 (.mem (.base 0 .none))
    let m : Memory := dataMem.take 8
    i.shape.src = .mem (.base 0 .none) ∧ m ≠ m1State.mem ∧
    (∀ j, j < sourceBytes i.shape.conv i.shape.vlen →
      let a := m1State.effectiveAddress i.shape.dispScale (m1State.pc + BitVec.ofNat 64 i.length) (.base 0 .none) +
        BitVec.ofNat 64 j
      m.read a.toNat = m1State.mem.read a.toNat ∧
        (m1State.withMemory m [⟨0x10000, 8⟩]).accessible a = m1State.accessible a) ∧
    ∃ t, exec i m1State = .next t :=
  ⟨rfl, by decide +kernel, by decide +kernel, exec_next _ _⟩

/-- A state in the invariant with a step to take. -/
theorem witness_StepKeepsTheInvariant : m1State.Inv ∧ ∃ t, step m1State = .next t := by
  refine ⟨⟨by decide +kernel, by decide +kernel, by decide +kernel, by decide +kernel, ?_⟩, ?_⟩
  · intro r h
    have : m1State.fault = none := by decide +kernel
    rw [this] at h
    cases h
  · have h : (match step m1State with | .next _ => true | _ => false) = true := by decide +kernel
    split at h
    · exact ⟨_, by assumption⟩
    · cases h

theorem witness_ARunChangesNoMemory : ∃ t, Sys2Proof.core.run 1 m1State = .next t := by
  obtain ⟨t, h⟩ := witness_StepKeepsTheInvariant.2
  have key : ∀ (M : Host.Core) (s t : M.State), M.step s = .next t → M.run 1 s = .next t := by
    intro M s t h
    rw [run_succ, h]
    rfl
  exact ⟨t, key Sys2Proof.core m1State t h⟩

theorem witness_IntrinsicsAreTheEvexForms :
    (Instr.vpmovzxwdEvex256 (.merging 1) 1 (.reg 2)).shape = .evex .wd .v256 (.merging 1) 1 (.reg 2) ∧
    (Instr.vpmovzxwdEvex256 (.zeroing 7) 1 (.reg 2)).shape = .evex .wd .v256 (.zeroing 7) 1 (.reg 2) ∧
    (Instr.vpmovzxwdEvex256 .none 1 (.reg 2)).shape = .evex .wd .v256 .none 1 (.reg 2) ∧
    (Instr.vpmovzxwdEvex256 .none 1 (.reg 2)).shape.requires start.cfg.features = true := by decide +kernel

/-- Lines 19, 20 and 49 as rule R107 prints them (line 49's name without its stray space). -/
theorem test_intrinsic_lines :
    (intrinsicLines.filter fun l => l.line = 19 || l.line = 20 || l.line = 49).map
        (fun l => (l.mnemonic, l.name, l.encodings)) =
      [("VPMOVZXBW", "_mm256_cvtepu8_epi16", [.vex, .evex]), ("VPMOVZXBW", "_mm256_mask_cvtepu8_epi16", [.evex]),
       ("PMOVZXBW", "_mm_cvtepu8_epi16", [.legacy, .vex, .evex])] := by decide +kernel

/-- A legacy, a VEX and a masked EVEX form, each for a line it can implement. -/
theorem witness_EachIntrinsicLineIsWhatItsFormsCompute :
    let line (n : Nat) (i : Instr) := intrinsicLines.any fun l => l.line == n && l.implementedBy i
    line 49 (.pmovzxbw false 1 (.reg 2)) ∧ line 34 (.vpmovzxwqVex256 1 (.reg 2)) ∧
    line 32 (.vpmovzxwdEvex256 (.merging 1) 1 (.reg 2)) ∧
    (Instr.pmovzxbw false 1 (.reg 2)).shape.requires start.cfg.features = true ∧
    (Instr.vpmovzxwqVex256 1 (.reg 2)).shape.requires start.cfg.features = true ∧
    (Instr.vpmovzxwdEvex256 (.merging 1) 1 (.reg 2)).shape.requires start.cfg.features = true := by decide +kernel

/-! ## Enabling (rules R28, R138) and a run from reset -/

/-- A processor with every CPUID bit of rule R23 set: the boot steps enable everything, and without them nothing is. -/
theorem test_boot_steps :
    let c := ControlBits.powerUp 0x10080000#32 0xC0010020#32
    c.features = ⟨false, false, false, false, false, false⟩ ∧
    c.enableLegacy.enableEvex.features = ⟨true, true, true, true, true, true⟩ ∧
    c.enableLegacy.enableVex.features = ⟨true, true, true, false, false, false⟩ := by decide +kernel

/-- Reset holds no program: the run is at its end; with a text loaded by `withFetchWord` the first step runs it. -/
theorem test_reset_and_first_instruction :
    State.reset.textEnd = State.reset.pc.toNat ∧
    (State.reset.withFetchWord 40 0xCA30380F66).verdict = .instr (.pmovzxbw false 1 (.reg 2)) (List.replicate 6 0#8) := by
  decide +kernel

/-! ## The names of the opcode table -/

/-- Mnemonic and operand form of each row of spec/opcode_table.json, in its order, with a form of that row. -/
def tableNames : List (Instr × String × String) :=
  [(.pmovzxbw false 0 (.reg 0), "PMOVZXBW", "xmm1, xmm2/m64"),
   (.pmovzxbd false 0 (.reg 0), "PMOVZXBD", "xmm1, xmm2/m32"),
   (.pmovzxbq false 0 (.reg 0), "PMOVZXBQ", "xmm1, xmm2/m16"),
   (.pmovzxwd false 0 (.reg 0), "PMOVZXWD", "xmm1, xmm2/m64"),
   (.pmovzxwq false 0 (.reg 0), "PMOVZXWQ", "xmm1, xmm2/m32"),
   (.pmovzxdq false 0 (.reg 0), "PMOVZXDQ", "xmm1, xmm2/m64"),
   (.vpmovzxbwVex128 0 (.reg 0), "VPMOVZXBW", "xmm1, xmm2/m64"),
   (.vpmovzxbdVex128 0 (.reg 0), "VPMOVZXBD", "xmm1, xmm2/m32"),
   (.vpmovzxbqVex128 0 (.reg 0), "VPMOVZXBQ", "xmm1, xmm2/m16"),
   (.vpmovzxwdVex128 0 (.reg 0), "VPMOVZXWD", "xmm1, xmm2/m64"),
   (.vpmovzxwqVex128 0 (.reg 0), "VPMOVZXWQ", "xmm1, xmm2/m32"),
   (.vpmovzxdqVex128 0 (.reg 0), "VPMOVZXDQ", "xmm1, xmm2/m64"),
   (.vpmovzxbwVex256 0 (.reg 0), "VPMOVZXBW", "ymm1, xmm2/m128"),
   (.vpmovzxbdVex256 0 (.reg 0), "VPMOVZXBD", "ymm1, xmm2/m64"),
   (.vpmovzxbqVex256 0 (.reg 0), "VPMOVZXBQ", "ymm1, xmm2/m32"),
   (.vpmovzxwdVex256 0 (.reg 0), "VPMOVZXWD", "ymm1, xmm2/m128"),
   (.vpmovzxwqVex256 0 (.reg 0), "VPMOVZXWQ", "ymm1, xmm2/m64"),
   (.vpmovzxdqVex256 0 (.reg 0), "VPMOVZXDQ", "ymm1, xmm2/m128"),
   (.vpmovzxbwEvex128 .none 0 (.reg 0), "VPMOVZXBW", "xmm1 " ++ inBraces "k1" ++ inBraces "z" ++ ", xmm2/m64"),
   (.vpmovzxbdEvex128 .none 0 (.reg 0), "VPMOVZXBD", "xmm1 " ++ inBraces "k1" ++ inBraces "z" ++ ", xmm2/m32"),
   (.vpmovzxbqEvex128 .none 0 (.reg 0), "VPMOVZXBQ", "xmm1 " ++ inBraces "k1" ++ inBraces "z" ++ ", xmm2/m16"),
   (.vpmovzxwdEvex128 .none 0 (.reg 0), "VPMOVZXWD", "xmm1 " ++ inBraces "k1" ++ inBraces "z" ++ ", xmm2/m64"),
   (.vpmovzxwqEvex128 .none 0 (.reg 0), "VPMOVZXWQ", "xmm1 " ++ inBraces "k1" ++ inBraces "z" ++ ", xmm2/m32"),
   (.vpmovzxdqEvex128 .none 0 (.reg 0), "VPMOVZXDQ", "xmm1 " ++ inBraces "k1" ++ inBraces "z" ++ ", xmm2/m64"),
   (.vpmovzxbwEvex256 .none 0 (.reg 0), "VPMOVZXBW", "ymm1 " ++ inBraces "k1" ++ inBraces "z" ++ ", xmm2/m128"),
   (.vpmovzxbdEvex256 .none 0 (.reg 0), "VPMOVZXBD", "ymm1 " ++ inBraces "k1" ++ inBraces "z" ++ ", xmm2/m64"),
   (.vpmovzxbqEvex256 .none 0 (.reg 0), "VPMOVZXBQ", "ymm1 " ++ inBraces "k1" ++ inBraces "z" ++ ", xmm2/m32"),
   (.vpmovzxwdEvex256 .none 0 (.reg 0), "VPMOVZXWD", "ymm1 " ++ inBraces "k1" ++ inBraces "z" ++ ", xmm2/m128"),
   (.vpmovzxwqEvex256 .none 0 (.reg 0), "VPMOVZXWQ", "ymm1 " ++ inBraces "k1" ++ inBraces "z" ++ ", xmm2/m64"),
   (.vpmovzxdqEvex256 .none 0 (.reg 0), "VPMOVZXDQ", "ymm1 " ++ inBraces "k1" ++ inBraces "z" ++ ", xmm2/m128"),
   (.vpmovzxbwEvex512 .none 0 (.reg 0), "VPMOVZXBW", "zmm1 " ++ inBraces "k1" ++ inBraces "z" ++ ", ymm2/m256"),
   (.vpmovzxbdEvex512 .none 0 (.reg 0), "VPMOVZXBD", "zmm1 " ++ inBraces "k1" ++ inBraces "z" ++ ", xmm2/m128"),
   (.vpmovzxbqEvex512 .none 0 (.reg 0), "VPMOVZXBQ", "zmm1 " ++ inBraces "k1" ++ inBraces "z" ++ ", xmm2/m64"),
   (.vpmovzxwdEvex512 .none 0 (.reg 0), "VPMOVZXWD", "zmm1 " ++ inBraces "k1" ++ inBraces "z" ++ ", ymm2/m256"),
   (.vpmovzxwqEvex512 .none 0 (.reg 0), "VPMOVZXWQ", "zmm1 " ++ inBraces "k1" ++ inBraces "z" ++ ", xmm2/m128"),
   (.vpmovzxdqEvex512 .none 0 (.reg 0), "VPMOVZXDQ", "zmm1 " ++ inBraces "k1" ++ inBraces "z" ++ ", ymm2/m256")]

theorem test_table_names : ∀ r ∈ tableNames, r.1.mnemonic = r.2.1 ∧ r.1.operandForm = r.2.2 := by decide +kernel

end Sys2Proof.Tests
end

section
/-! Rule R17: the register reach of the three formats. The decoder gives legacy and VEX forms operands below 16 only;
executing a form with such operands neither writes nor reads `v[16]` to `v[31]`; what the encoder writes for an EVEX form
decodes to it, whichever of the 32 registers it names. -/

namespace Sys2Proof

open Machine

/-! ## What decodes, and which registers it names -/

/-- An accepted byte string is a legacy, VEX or EVEX instruction after its legacy prefixes and REX (rule R61). -/
theorem decode_inv {bs : List Byte} {i : Instr} {rest : List Byte} (h : decode bs = .instr i rest) :
    ∃ rex b tl, splitRex (bs.dropWhile isLegacyPrefix) = (rex, b :: tl) ∧
      ((b = 0x0F#8 ∧ decodeLegacy (bs.takeWhile isLegacyPrefix) rex tl = .instr i rest) ∨
       (b = 0xC4#8 ∧ decodeVex (bs.takeWhile isLegacyPrefix) rex tl = .instr i rest) ∨
       (b = 0x62#8 ∧ decodeEvex (bs.takeWhile isLegacyPrefix) rex tl = .instr i rest)) := by
  unfold decode at h
  split at h
  next => cases h
  next rex b tl hsplit =>
    refine ⟨rex, b, tl, hsplit, ?_⟩
    split at h
    next hb => exact .inl ⟨hb, h⟩
    next =>
      split at h
      next hb => exact .inr (.inl ⟨hb, h⟩)
      next =>
        split at h
        next hb => exact .inr (.inr ⟨hb, h⟩)
        next => cases h

/-- The legacy and VEX extension bits have no fifth register bit (rule R54). -/
theorem legacyExt_fifthBits (rex : Option Byte) : (legacyExt rex).r4 = false ∧ (legacyExt rex).s4 = false := by
  cases rex <;> exact ⟨rfl, rfl⟩

/-- A decoded instruction that is no EVEX form names registers 0 to 15. -/
theorem decode_reach {bs rest : List Byte} {i : Instr} (h : decode bs = .instr i rest)
    (hne : ∀ c vl m d src, i.shape ≠ .evex c vl m d src) :
    i.shape.dest.val < 16 ∧ i.shape.src.vregBelow 16 = true := by
  obtain ⟨rex, b, tl, -, ⟨-, hl⟩ | ⟨-, hv⟩ | ⟨-, he⟩⟩ := decode_inv h
  · obtain ⟨op, c, tl', d, s, -, -, -, hops, rfl⟩ := decodeLegacy_inv hl
    obtain ⟨-, -, hd, hs, -, -⟩ := readOperands_spec hops
    rw [mkLegacy_shape]
    exact ⟨hd (legacyExt_fifthBits rex).1, hs (legacyExt_fifthBits rex).2⟩
  · obtain ⟨v1, v2, op, c, tl', d, s, -, -, -, -, hops, rfl, -⟩ := decodeVex_inv hv
    obtain ⟨-, -, hd, hs, -, -⟩ := readOperands_spec hops
    rw [mkVex_shape]
    exact ⟨hd rfl, hs rfl⟩
  · obtain ⟨p0, p1, p2, op, c, tl', d, s, vl, -, -, -, -, -, -, -, rfl⟩ := decodeEvex_inv he
    exact absurd (mkEvex_shape _ _ _ _ _) (hne _ _ _ _ _)

/-- What the encoder writes for a well-formed EVEX form decodes to that form, whatever bytes follow. -/
theorem decode_encode_evex (c : Conversion) (vl : VLen) (m : Masking) (d : VReg) (s : Src) (rest : List Byte)
    (hw : (Shape.evex c vl m d s).wf = true) :
    decode ((Shape.evex c vl m d s).encode ++ rest) = .instr (mkEvex c vl m d s) rest := by
  simp only [Shape.wf, Bool.and_eq_true] at hw
  obtain ⟨hm, hs⟩ := hw
  obtain ⟨hp02, hp22, -⟩ := evex0_bits (!numBit d.val 3) (!s.fields.x) (!s.fields.b) (!numBit d.val 4)
  have hp0 : bits (evexByte0 d s.fields) 0 2 = 2#2 ∧ bits evexByte1 0 2 = 1#2 := ⟨hp02, by decide⟩
  have hp1 : bits (evexByte0 d s.fields) 2 2 = 0#2 ∧ bit evexByte1 2 = true := ⟨hp22, by decide⟩
  obtain ⟨hll, hz, haaa, -, -⟩ := evex2_bits vl m
  have hops := readOperands_bytes _ d s rest hs (agrees_evex d s)
  have hform : evexForm c (evexByte0 d s.fields) evexByte1 (evexByte2 vl m) (operandBytes d s.fields ++ rest) =
      .instr (mkEvex c vl m d s) rest := by
    simp only [evexForm, hops, hll, vlenOf_llOf, evexFieldsOk_encoded c vl m hm, hz, haaa, maskingOf_bits m hm, if_true]
  simp only [Shape.encode, List.cons_append, decode_62, decodeEvex, conversionOf_opcodeOf, if_pos hp0, if_pos hp1,
    and_self, if_true, hform]

/-! ## Executing with other vector registers -/

namespace Machine

/-- The state with other vector registers. -/
def State.withVregs (s : State) (w : Vector Vec 32) : State := { s with v := w }

@[simp] theorem withVregs_vreg (s : State) (w : Vector Vec 32) (r : VReg) : (s.withVregs w).vreg r = w[r] := rfl

/-- The result of a form is a function of its two arguments and the masks, not of the state's vector registers. -/
@[simp] theorem result_withVregs (sh : Shape) (s : State) (w : Vector Vec 32) :
    sh.result (s.withVregs w) = sh.result s := by cases sh <;> rfl

/-- The operand read depends on the vector registers through a register source alone. -/
theorem operand_withVregs {i : Instr} {s : State} {w : Vector Vec 32}
    (h : ∀ r, i.shape.src = .reg r → w[r] = s.vreg r) : (s.withVregs w).operand i = s.operand i := by
  cases hs : i.shape.src with
  | reg r => simp only [State.operand, hs, State.sourceValue, withVregs_vreg, h r hs]
  | mem op => rw [operand_mem hs, operand_mem hs]; rfl

/-- Executing an instruction writes no vector register but its destination. -/
theorem exec_vreg_ne {i : Instr} {s t : State} (h : exec i s = .next t) {r : VReg} (hr : r ≠ i.shape.dest) :
    t.vreg r = s.vreg r := by
  obtain ⟨-, rfl⟩ | ⟨e, -, -, rfl⟩ | ⟨val, -, -, rfl⟩ := exec_cases h
  · rfl
  · rfl
  · exact complete_vreg_ne _ _ _ _ _ hr

/-- Vector registers that agree on a set holding both operands agree on it after the instruction, and `pc` and the fault
record are the same. -/
theorem exec_withVregs {i : Instr} {s t : State} {w : Vector Vec 32} {p : VReg → Prop}
    (hw : ∀ r, p r → w[r] = s.vreg r) (hd : p i.shape.dest) (hs : ∀ r, i.shape.src = .reg r → p r)
    (h : exec i s = .next t) :
    ∃ t', exec i (s.withVregs w) = .next t' ∧ (∀ r, p r → t'.vreg r = t.vreg r) ∧ t'.pc = t.pc ∧ t'.fault = t.fault := by
  have hop : (s.withVregs w).operand i = s.operand i := operand_withVregs fun r hr => hw r (hs r hr)
  obtain ⟨hf, rfl⟩ | ⟨e, hf, he, rfl⟩ | ⟨val, hf, hv, rfl⟩ := exec_cases h
  · exact ⟨_, exec_disabled hf, hw, rfl, rfl⟩
  · exact ⟨_, exec_faults hf (hop.trans he), hw, rfl, rfl⟩
  · refine ⟨_, exec_completes hf (hop.trans hv), fun r hr => ?_, rfl, rfl⟩
    rw [result_withVregs, withVregs_vreg, hw _ hd]
    by_cases hrd : r = i.shape.dest
    · subst hrd
      simp
    · simp [hrd, hw r hr]

end Machine

/-! ## Rule R17 -/

/-- Settles O37: the reach of the decoder's extension bits bounds both operands by 16; execution depends on and changes
the operands only; and the encoder reaches every pair of EVEX registers. -/
theorem legacyAndVexReachRegisters0To15 : Obligations.LegacyAndVexReachRegisters0To15 := by
  refine ⟨fun bs rest i hdec hne => ?_, fun c vl d s => ?_⟩
  · obtain ⟨hd, hs⟩ := decode_reach hdec hne
    have hsrc : ∀ r, i.shape.src = .reg r → r.val < 16 := fun r hr => by simpa [hr, Src.vregBelow] using hs
    refine ⟨hd, hsrc, fun s t w hw h => ⟨fun r hr => ?_, exec_withVregs hw hd hsrc h⟩⟩
    have hrd : r ≠ i.shape.dest := fun e => by rw [e] at hr; omega
    exact exec_vreg_ne h hrd
  · have hdec := decode_encode_evex c vl .none d (.reg s) [] rfl
    rw [List.append_nil] at hdec
    exact ⟨_, _, hdec, mkEvex_shape ..⟩

end Sys2Proof
end

section
/-! Rule R63: the length of an instruction is the sum of its parts, and the encoder writes that many bytes. -/

namespace Sys2Proof

/-- `S + D` of rule R63 is the length of what follows ModRM. -/
theorem tailLength_eq_sib_add_disp (s : Src) : s.tailLength = s.sibCount + s.dispCount := by
  cases s with
  | reg r => rfl
  | mem m => cases m <;> simp [Src.tailLength, Src.sibCount, Src.dispCount]

@[simp] theorem operandBytes_length (d : VReg) (s : Src) : (operandBytes d s.fields).length = 1 + s.tailLength := by
  simp [operandBytes, fields_tail_length, Nat.add_comm]

/-- The bytes of a form: prefixes and escapes, opcode, ModRM, and what the source operand adds (rule R63). -/
theorem shape_encode_length (sh : Shape) : sh.encode.length = sh.prefixCount + 1 + 1 + sh.src.tailLength := by
  cases sh with
  | legacy c rex d s => cases rex <;> simp [Shape.encode, Shape.prefixCount, Shape.src] <;> omega
  | vex c wide d s => simp [Shape.encode, Shape.prefixCount, Shape.src]; omega
  | evex c vl m d s => simp [Shape.encode, Shape.prefixCount, Shape.src]; omega

/-- The length of an instruction, by its format (rule R63). -/
theorem instr_length_eq (i : Instr) : i.length = i.shape.prefixCount + 1 + 1 + i.shape.src.tailLength := by
  unfold Instr.length
  cases i.shape <;> rfl

theorem prefixCount_bounds (sh : Shape) : 3 ≤ sh.prefixCount ∧ sh.prefixCount ≤ 4 := by
  cases sh with
  | legacy c rex d s => cases rex <;> simp [Shape.prefixCount]
  | vex c wide d s => simp [Shape.prefixCount]
  | evex c vl m d s => simp [Shape.prefixCount]

/-- Settles O3: both lengths are the sum of rule R63, whose parts are bounded by 4 and 5; the two longest forms are
written out. -/
theorem encodedLengthIsTheSumOfItsParts : Obligations.EncodedLengthIsTheSumOfItsParts := by
  refine ⟨fun i => ?_, ⟨.bw, 0, .mem (.sib 0 none (.disp32 0)), by decide⟩,
    ⟨.bw, .v128, .none, 0, .mem (.sib 0 none (.disp32 0)), by decide⟩⟩
  have hlen := instr_length_eq i
  have henc : (encode i).length = i.shape.prefixCount + 1 + 1 + i.shape.src.tailLength := shape_encode_length i.shape
  have hprefix := prefixCount_bounds i.shape
  have htail := tailLength_le i.shape.src
  have hsum := tailLength_eq_sib_add_disp i.shape.src
  refine ⟨by omega, by omega, by omega, by omega, fun r hr => ?_⟩
  rw [hr] at hlen
  cases hs : i.shape with
  | legacy c rex d s => cases rex <;> simpa [hs, Shape.prefixCount, Src.tailLength] using hlen
  | vex c wide d s => simpa [hs, Shape.prefixCount, Src.tailLength] using hlen
  | evex c vl m d s => simpa [hs, Shape.prefixCount, Src.tailLength] using hlen

end Sys2Proof
end

section
/-! What the decoder answers for a byte string that begins as a form of one of the three formats (rules R47 to R49): the
fields it reads where the answer is an instruction, and the verdict where the operands are complete. -/

namespace Sys2Proof

open Machine

/-! ## The fields -/

/-- A conversion is selected by its own opcode byte alone (rule R51). -/
theorem conversionOf_eq_some_iff (op : Byte) (c : Conversion) : conversionOf op = some c ↔ op = opcodeOf c := by
  cases c <;> revert op <;> decide

/-- `L'L = 11b` alone selects no length (rule R60). -/
theorem vlenOf_eq_none_iff (ll : BitVec 2) : vlenOf ll = none ↔ ll = 3#2 := by revert ll; decide

/-- The length `L'L` selects (rule R60). -/
theorem vlenOf_bits {ll : BitVec 2} {vl : VLen} (h : vlenOf ll = some vl) : vl.bits = 128 * 2 ^ ll.toNat := by
  revert ll; cases vl <;> decide

/-- The writemask `aaa` and `z` name (rules R18, R96). -/
theorem maskingOf_eq_none_iff (z : Bool) (a : BitVec 3) : maskingOf z a = .none ↔ a = 0#3 := by
  revert z a; decide

theorem maskingOf_eq_merging {z : Bool} {a : BitVec 3} {k : KReg} (h : maskingOf z a = .merging k) :
    k.val = a.toNat ∧ z = false := by
  revert z a k; decide

theorem maskingOf_eq_zeroing {z : Bool} {a : BitVec 3} {k : KReg} (h : maskingOf z a = .zeroing k) :
    k.val = a.toNat ∧ z = true := by
  revert z a k; decide

/-- The fields whose other values raise `#UD` in an EVEX form (rules R57 to R59). -/
theorem evexFieldsOk_iff (c : Conversion) (p1 p2 : Byte) : evexFieldsOk c p1 p2 = true ↔
    bits p1 3 4 = 15#4 ∧ ¬(c = .dq ∧ bit p1 7 = true) ∧ bit p2 3 = true ∧ bit p2 4 = false ∧
      ¬(bit p2 7 = true ∧ bits p2 0 3 = 0#3) := by
  simp only [evexFieldsOk, Bool.and_eq_true, Bool.not_eq_true', ← Bool.not_eq_true, beq_iff_eq, and_assoc]

/-! ## The leading bytes -/

theorem rex_not_legacyPrefix : ∀ b : Byte, isRex b = true → isLegacyPrefix b = false := by decide

/-- 66h and a REX byte before `0F` (rule R61). -/
theorem decode_66_rex {rex : Byte} (h : isRex rex = true) (bs : List Byte) :
    decode (0x66#8 :: rex :: 0x0F#8 :: bs) = decodeLegacy [0x66#8] (some rex) bs :=
  decode_66_rex_0F rex bs h (rex_not_legacyPrefix rex h)

/-! ## The instruction a form answers -/

/-- A decoded legacy form, by its opcode byte and the bytes from ModRM on. -/
theorem legacy_fields {run : List Byte} {rex : Option Byte} {op : Byte} {bs rest : List Byte} {i : Instr}
    (h : decodeLegacy run rex (0x38#8 :: op :: bs) = .instr i rest) :
    ∃ c d s, conversionOf op = some c ∧ readOperands (legacyExt rex) bs = some (d, s, rest) ∧
      i.shape = .legacy c rex.isSome d s := by
  obtain ⟨op, c, tl, d, s, ⟨⟩, hc, -, hops, rfl⟩ := decodeLegacy_inv h
  exact ⟨c, d, s, hc, hops, mkLegacy_shape ..⟩

/-- A decoded VEX3 form, by its bytes V1, V2 and those from the opcode on. -/
theorem vex_fields {v1 v2 : Byte} {bs rest : List Byte} {i : Instr}
    (h : decode (0xC4#8 :: v1 :: v2 :: bs) = .instr i rest) :
    ∃ op tl c d s, bs = op :: tl ∧ conversionOf op = some c ∧ readOperands (vexExt v1) tl = some (d, s, rest) ∧
      i.shape = .vex c (bit v2 2) d s := by
  rw [decode_C4] at h
  obtain ⟨v1, v2, op, c, tl, d, s, ⟨⟩, hc, -, -, hops, rfl, -⟩ := decodeVex_inv h
  exact ⟨op, tl, c, d, s, rfl, hc, hops, mkVex_shape ..⟩

/-- A decoded EVEX form, by its bytes P0 to P2 and those from the opcode on. -/
theorem evex_fields {p0 p1 p2 : Byte} {bs rest : List Byte} {i : Instr}
    (h : decode (0x62#8 :: p0 :: p1 :: p2 :: bs) = .instr i rest) :
    ∃ op tl c vl d s, bs = op :: tl ∧ conversionOf op = some c ∧ readOperands (evexExt p0) tl = some (d, s, rest) ∧
      vlenOf (bits p2 5 2) = some vl ∧ i.shape = .evex c vl (maskingOf (bit p2 7) (bits p2 0 3)) d s := by
  rw [decode_62] at h
  obtain ⟨p0, p1, p2, op, c, tl, d, s, vl, ⟨⟩, hc, -, -, hops, hvl, -, rfl⟩ := decodeEvex_inv h
  exact ⟨op, tl, c, vl, d, s, rfl, hc, hops, hvl, mkEvex_shape ..⟩

/-! ## The verdict on a form of the family -/

theorem decode_vexForm {v1 v2 op : Byte} {c : Conversion} (hc : conversionOf op = some c) (hv1 : bits v1 0 5 = 2#5)
    (hv2 : bits v2 0 2 = 1#2) (rest : List Byte) :
    decode (0xC4#8 :: v1 :: v2 :: op :: rest) = vexForm c v1 v2 rest := by
  simp [decode_C4, decodeVex, hc, hv1, hv2]

theorem decode_evexForm {p0 p1 p2 op : Byte} {c : Conversion} (hc : conversionOf op = some c) (hp0 : bits p0 0 4 = 2#4)
    (hp1 : bits p1 0 3 = 5#3) (rest : List Byte) :
    decode (0x62#8 :: p0 :: p1 :: p2 :: op :: rest) = evexForm c p0 p1 p2 rest := by
  simp [decode_62, decodeEvex, hc, (bits4 p0).mp hp0, (bits3 p1).mp hp1]

/-- The two fields of later extensions refuse an EVEX form (rule R58). -/
theorem decode_evexExtension {p0 p1 p2 op : Byte} {c : Conversion} (hc : conversionOf op = some c)
    (hp0 : bits p0 0 2 = 2#2) (hp1 : bits p1 0 2 = 1#2) (h : bits p0 2 2 ≠ 0#2 ∨ bit p1 2 = false) (rest : List Byte) :
    decode (0x62#8 :: p0 :: p1 :: p2 :: op :: rest) = .refused .evexExtension := by
  have hext : ¬(bits p0 2 2 = 0#2 ∧ bit p1 2 = true) := fun ⟨h0, h1⟩ => by simp [h0, h1] at h
  simp only [decode_62, decodeEvex, hc, if_pos (And.intro hp0 hp1), if_neg hext]

/-- A VEX3 form with complete operands is an instruction or `#UD`, by `vvvv` alone (rules R57, R58). -/
theorem vexForm_verdict (c : Conversion) {v1 v2 : Byte} {bs : List Byte} (h : (readOperands (vexExt v1) bs).isSome) :
    (bits v2 3 4 = 15#4 ∧ ∃ i rest, vexForm c v1 v2 bs = .instr i rest) ∨
      (bits v2 3 4 ≠ 15#4 ∧ vexForm c v1 v2 bs = .ud) := by
  obtain ⟨⟨d, s, rest⟩, hops⟩ := Option.isSome_iff_exists.mp h
  by_cases hv : bits v2 3 4 = 15#4
  · exact .inl ⟨hv, mkVex c (bit v2 2) d s, rest, by simp [vexForm, hops, hv]⟩
  · exact .inr ⟨hv, by simp [vexForm, hops, hv]⟩

/-- An EVEX form with complete operands is an instruction or `#UD`, by its reserved fields (rules R57 to R60). -/
theorem evexForm_verdict (c : Conversion) {p0 p1 p2 : Byte} {bs : List Byte}
    (h : (readOperands (evexExt p0) bs).isSome) :
    ((bits p2 5 2 ≠ 3#2 ∧ evexFieldsOk c p1 p2 = true) ∧ ∃ i rest, evexForm c p0 p1 p2 bs = .instr i rest) ∨
      (¬(bits p2 5 2 ≠ 3#2 ∧ evexFieldsOk c p1 p2 = true) ∧ evexForm c p0 p1 p2 bs = .ud) := by
  obtain ⟨⟨d, s, rest⟩, hops⟩ := Option.isSome_iff_exists.mp h
  cases hll : vlenOf (bits p2 5 2) with
  | none =>
    exact .inr ⟨fun hok => hok.1 ((vlenOf_eq_none_iff _).mp hll), by simp only [evexForm, hops, hll]⟩
  | some vl =>
    have hne : bits p2 5 2 ≠ 3#2 := fun e => by simp [(vlenOf_eq_none_iff _).mpr e] at hll
    by_cases hok : evexFieldsOk c p1 p2 = true
    · exact .inl ⟨⟨hne, hok⟩, _, rest, by simp only [evexForm, hops, hll, if_pos hok]; rfl⟩
    · exact .inr ⟨fun h => hok h.2, by simp only [evexForm, hops, hll, if_neg hok]⟩

theorem vexForm_eq_ud_iff (c : Conversion) {v1 v2 : Byte} {bs : List Byte} (h : (readOperands (vexExt v1) bs).isSome) :
    vexForm c v1 v2 bs = .ud ↔ bits v2 3 4 ≠ 15#4 := by
  obtain ⟨hv, i, rest, heq⟩ | ⟨hv, heq⟩ := vexForm_verdict c (v2 := v2) h <;> simp [heq, hv]

theorem vexForm_ne_refused (c : Conversion) {v1 v2 : Byte} {bs : List Byte} (h : (readOperands (vexExt v1) bs).isSome)
    (r : RefuseReason) : vexForm c v1 v2 bs ≠ .refused r := by
  obtain ⟨-, i, rest, heq⟩ | ⟨-, heq⟩ := vexForm_verdict c (v2 := v2) h <;> simp [heq]

theorem evexForm_eq_ud_iff (c : Conversion) {p0 p1 p2 : Byte} {bs : List Byte}
    (h : (readOperands (evexExt p0) bs).isSome) :
    evexForm c p0 p1 p2 bs = .ud ↔ ¬(bits p2 5 2 ≠ 3#2 ∧ evexFieldsOk c p1 p2 = true) := by
  obtain ⟨hok, i, rest, heq⟩ | ⟨hok, heq⟩ := evexForm_verdict c (p1 := p1) (p2 := p2) h
  · exact iff_of_false (by simp [heq]) (not_not_intro hok)
  · exact iff_of_true heq hok

theorem evexForm_ne_refused (c : Conversion) {p0 p1 p2 : Byte} {bs : List Byte}
    (h : (readOperands (evexExt p0) bs).isSome) (r : RefuseReason) : evexForm c p0 p1 p2 bs ≠ .refused r := by
  obtain ⟨-, i, rest, heq⟩ | ⟨-, heq⟩ := evexForm_verdict c (p1 := p1) (p2 := p2) h <;> simp [heq]

end Sys2Proof
end

section
/-! Rules R51, R54 and R60: the conversion, the register numbers and the vector length of a decoded instruction. -/

namespace Sys2Proof

open Machine

/-- Settles O5: the opcode byte of each format is the one its conversion was looked up from. -/
theorem opcodeSelectsTheConversion : Obligations.OpcodeSelectsTheConversion := by
  refine ⟨by decide, by decide, by decide, by decide, by decide, by decide, by decide, ?legacy, ?legacyRex, ?vex, ?evex,
    fun c d src => ⟨fun rex => ⟨_, mkLegacy_shape ..⟩, fun wide => ⟨_, mkVex_shape ..⟩, fun vl m => ⟨_, mkEvex_shape ..⟩⟩⟩
  case legacy =>
    intro op rest i rest' h
    rw [decode_66_0F] at h
    obtain ⟨c, d, s, hc, -, hshape⟩ := legacy_fields h
    rw [hshape]; exact hc
  case legacyRex =>
    intro rex op rest i rest' hrex h
    rw [decode_66_rex hrex] at h
    obtain ⟨c, d, s, hc, -, hshape⟩ := legacy_fields h
    rw [hshape]; exact hc
  case vex =>
    intro v1 v2 op rest i rest' h
    obtain ⟨op, tl, c, d, s, ⟨⟩, hc, -, hshape⟩ := vex_fields h
    rw [hshape]; exact hc
  case evex =>
    intro p0 p1 p2 op rest i rest' h
    obtain ⟨op, tl, c, vl, d, s, ⟨⟩, hc, -, -, hshape⟩ := evex_fields h
    rw [hshape]; exact hc

/-! ## Register numbers (rule R54) -/

/-- The number of an index register (rules R53, R54). -/
theorem sibIndex_val {x : Bool} {sib : Byte} {ix : Index} (h : sibIndex x sib = some ix) :
    ix.reg.val = 8 * x.toNat + (bits sib 3 3).toNat := by
  unfold sibIndex at h
  split at h
  · cases h
  · cases h; exact gregOf_val ..

/-- The operand a SIB byte names: with a base register or without (rule R53). -/
theorem readSib_eq {mod : BitVec 2} {e : Ext} {sib : Byte} {bs : List Byte} {p : MemOp × List Byte}
    (h : readSib mod e sib bs = some p) :
    (∃ disp, p.1 = .sibNoBase (sibIndex e.x sib) disp) ∨
      ∃ disp, p.1 = .sib (gregOf e.b (bits sib 0 3)) (sibIndex e.x sib) disp := by
  unfold readSib at h
  split at h <;> (rw [Option.map_eq_some_iff] at h; obtain ⟨q, -, rfl⟩ := h)
  · exact .inl ⟨_, rfl⟩
  · exact .inr ⟨_, rfl⟩

/-- The memory operand ModRM names, and the SIB byte it comes from if there is one (rule R52). -/
theorem readMem_eq {mod : BitVec 2} {rm : BitVec 3} {e : Ext} {bs : List Byte} {p : MemOp × List Byte}
    (h : readMem mod rm e bs = some p) :
    (∃ disp, p.1 = .ripRel disp) ∨ (∃ disp, p.1 = .base (gregOf e.b rm) disp) ∨
      ∃ sib tail, bs = sib :: tail ∧ ((∃ disp, p.1 = .sibNoBase (sibIndex e.x sib) disp) ∨
        ∃ disp, p.1 = .sib (gregOf e.b (bits sib 0 3)) (sibIndex e.x sib) disp) := by
  unfold readMem at h
  split at h
  · split at h
    · exact .inr (.inr ⟨_, _, rfl, readSib_eq h⟩)
    · cases h
  · split at h <;> (rw [Option.map_eq_some_iff] at h; obtain ⟨q, -, rfl⟩ := h)
    · exact .inl ⟨_, rfl⟩
    · exact .inr (.inl ⟨_, rfl⟩)

/-- The operands ModRM names: the destination, and a register or memory source by `mod` (rules R52, R54). -/
theorem readOperands_cons {e : Ext} {modrm : Byte} {bs rest : List Byte} {d : VReg} {src : Src}
    (h : readOperands e (modrm :: bs) = some (d, src, rest)) :
    d = vregOf e.r4 e.r (bits modrm 3 3) ∧
      ((bits modrm 6 2 = 3#2 ∧ src = .reg (vregOf e.s4 e.b (bits modrm 0 3))) ∨
        (bits modrm 6 2 ≠ 3#2 ∧ ∃ op, src = .mem op ∧
          readMem (bits modrm 6 2) (bits modrm 0 3) e bs = some (op, rest))) := by
  simp only [readOperands] at h
  split at h
  next hmod => cases h; exact ⟨rfl, .inl ⟨hmod, rfl⟩⟩
  next hmod =>
    rw [Option.map_eq_some_iff] at h
    obtain ⟨⟨op, rest'⟩, hmem, ⟨⟩⟩ := h
    exact ⟨rfl, .inr ⟨hmod, op, rfl, hmem⟩⟩

/-- The register numbers of the operands read, by the kind of source (rule R54). -/
theorem readOperands_numbers {e : Ext} {modrm : Byte} {bs rest : List Byte} {d : VReg} {src : Src}
    (h : readOperands e (modrm :: bs) = some (d, src, rest)) :
    d.val = 16 * e.r4.toNat + 8 * e.r.toNat + (bits modrm 3 3).toNat ∧
    (bits modrm 6 2 = 3#2 → ∃ s, src = .reg s ∧ s.val = 16 * e.s4.toNat + 8 * e.b.toNat + (bits modrm 0 3).toNat) ∧
    (∀ b disp, src = .mem (.base b disp) → b.val = 8 * e.b.toNat + (bits modrm 0 3).toNat) ∧
    (∀ b ix disp, src = .mem (.sib b ix disp) → ∃ sib tail, bs = sib :: tail ∧
      b.val = 8 * e.b.toNat + (bits sib 0 3).toNat ∧
      ∀ x, ix = some x → x.reg.val = 8 * e.x.toNat + (bits sib 3 3).toNat) ∧
    (∀ ix disp, src = .mem (.sibNoBase ix disp) → ∃ sib tail, bs = sib :: tail ∧
      ∀ x, ix = some x → x.reg.val = 8 * e.x.toNat + (bits sib 3 3).toNat) := by
  obtain ⟨rfl, hsrc⟩ := readOperands_cons h
  refine ⟨vregOf_val .., ?_⟩
  obtain ⟨hmod, rfl⟩ | ⟨hmod, op, rfl, hmem⟩ := hsrc
  · exact ⟨fun _ => ⟨_, rfl, vregOf_val ..⟩, nofun, nofun, nofun⟩
  refine ⟨fun h3 => absurd h3 hmod, ?_⟩
  obtain ⟨disp, rfl⟩ | ⟨disp, rfl⟩ | ⟨sib, tail, rfl, ⟨disp, rfl⟩ | ⟨disp, rfl⟩⟩ := readMem_eq hmem
  · exact ⟨nofun, nofun, nofun⟩
  · exact ⟨by rintro b disp ⟨⟩; exact gregOf_val .., nofun, nofun⟩
  · exact ⟨nofun, nofun, by rintro ix disp ⟨⟩; exact ⟨sib, tail, rfl, fun _ hx => sibIndex_val hx⟩⟩
  · exact ⟨nofun, by rintro b ix disp ⟨⟩; exact ⟨sib, tail, rfl, gregOf_val .., fun _ hx => sibIndex_val hx⟩, nofun⟩

/-- Settles O12: the numbers of the operands read, then the extension bits each format reads them with. -/
theorem registerNumbersAreAssembledFromTheirBits : Obligations.RegisterNumbersAreAssembledFromTheirBits := by
  refine ⟨fun e modrm bs rest d src => readOperands_numbers, ?legacy, ?legacyRex, ?vex, ?evex⟩
  case legacy =>
    intro op bs i rest h
    rw [decode_66_0F] at h
    obtain ⟨c, d, s, -, hops, hshape⟩ := legacy_fields h
    rw [hshape]; exact hops
  case legacyRex =>
    intro rex op bs i rest hrex h
    rw [decode_66_rex hrex] at h
    obtain ⟨c, d, s, -, hops, hshape⟩ := legacy_fields h
    rw [hshape]; exact hops
  case vex =>
    intro v1 v2 op bs i rest h
    obtain ⟨op, tl, c, d, s, ⟨⟩, -, hops, hshape⟩ := vex_fields h
    rw [hshape]; exact hops
  case evex =>
    intro p0 p1 p2 op bs i rest h
    obtain ⟨op, tl, c, vl, d, s, ⟨⟩, -, hops, -, hshape⟩ := evex_fields h
    rw [hshape]
    exact ⟨hops, maskingOf_eq_none_iff .., fun _ => maskingOf_eq_merging, fun _ => maskingOf_eq_zeroing⟩

/-! ## The vector length (rule R60) -/

/-- A decoded instruction whose first byte is 66h is a legacy form (rule R61). -/
theorem decode_66_shape {bs rest : List Byte} {i : Instr} (h : decode (0x66#8 :: bs) = .instr i rest) :
    ∃ c rex d s, i.shape = .legacy c rex d s := by
  have hrun : (0x66#8 :: bs).takeWhile isLegacyPrefix ≠ [] := by
    rw [List.takeWhile_cons_of_pos (by decide)]; exact List.cons_ne_nil _ _
  obtain ⟨rex, b, tl, -, ⟨-, hl⟩ | ⟨-, hv⟩ | ⟨-, he⟩⟩ := decode_inv h
  · obtain ⟨op, c, tl, d, s, -, -, -, -, rfl⟩ := decodeLegacy_inv hl
    exact ⟨_, _, _, _, mkLegacy_shape ..⟩
  · obtain ⟨v1, v2, op, c, tl, d, s, -, -, hnil, -⟩ := decodeVex_inv hv
    exact absurd hnil hrun
  · obtain ⟨p0, p1, p2, op, c, tl, d, s, vl, -, -, hnil, -⟩ := decodeEvex_inv he
    exact absurd hnil hrun

/-- Settles O9: the length is a field of the shape the decoder gives each format; `L'L = 11b` selects none. -/
theorem vectorLengthIsSelectedByTheEncoding : Obligations.VectorLengthIsSelectedByTheEncoding := by
  refine ⟨?legacy, ?vex, ?evex, ?reserved, by decide, ?dwords, ?qwords⟩
  case legacy =>
    intro bs i rest h
    obtain ⟨c, rex, d, s, hshape⟩ := decode_66_shape h
    rw [hshape]; rfl
  case vex =>
    intro v1 v2 bs i rest h
    obtain ⟨op, tl, c, d, s, -, -, -, hshape⟩ := vex_fields h
    rw [hshape]
    cases bit v2 2 <;> rfl
  case evex =>
    intro p0 p1 p2 bs i rest h
    obtain ⟨op, tl, c, vl, d, s, -, -, -, hvl, hshape⟩ := evex_fields h
    rw [hshape]
    exact ⟨fun h3 => by simp [(vlenOf_eq_none_iff _).mpr h3] at hvl, vlenOf_bits hvl⟩
  case reserved =>
    intro p0 p1 p2 op rest hop hp0 hp1 hops hll
    obtain ⟨c, hc⟩ := Option.isSome_iff_exists.mp hop
    rw [decode_evexForm hc hp0 hp1, evexForm_eq_ud_iff c hops]
    exact fun hok => hok.1 hll
  case dwords => rintro c (rfl | rfl) <;> decide
  case qwords => rintro c (rfl | rfl | rfl) <;> decide

end Sys2Proof
end

section
/-! Rules R57 to R59: the reserved and the ignored fields. -/

namespace Sys2Proof

open Machine

/-! ## Reserved fields (rules R57, R58) -/

/-- Settles O7: each format's verdict with complete operands, its fields spelled out. -/
theorem reservedFieldsDecideTheVerdict : Obligations.ReservedFieldsDecideTheVerdict := by
  refine ⟨fun p0 p1 p2 op rest hop hp0 hp1 => ?evex, fun v1 v2 op rest hop hv1 hv2 hops => ?vex⟩
  case evex =>
    obtain ⟨c, hc⟩ := Option.isSome_iff_exists.mp hop
    refine ⟨fun hext => ⟨_, decode_evexExtension hc hp0 hp1 hext rest⟩, fun hp0' hp1' hops => ?_⟩
    have hdq : op = 0x35#8 ↔ c = .dq := by
      rw [(conversionOf_eq_some_iff op c).mp hc]; cases c <;> decide
    rw [decode_evexForm hc ((bits4 p0).mpr ⟨hp0, hp0'⟩) ((bits3 p1).mpr ⟨hp1, hp1'⟩)]
    refine ⟨?_, evexForm_ne_refused c hops⟩
    rw [evexForm_eq_ud_iff c hops, evexFieldsOk_iff, hdq]
    simp only [← Bool.not_eq_true]
    tauto
  case vex =>
    obtain ⟨c, hc⟩ := Option.isSome_iff_exists.mp hop
    rw [decode_vexForm hc hv1 hv2]
    exact ⟨vexForm_eq_ud_iff c hops, vexForm_ne_refused c hops⟩

/-- A step on bytes whose verdict is UD raises `#UD` (rule R62). -/
theorem step_raises_ud {s : State} (hf : s.fault = none) (hpc : s.pcInText = true) (hd : decode s.fetch = .ud) :
    Raises s .ud (step s) := by
  have hend : s.pc.toNat ≠ s.textEnd := by
    simp only [State.pcInText, Bool.and_eq_true, decide_eq_true_eq] at hpc; omega
  simp only [Raises, step, hf, if_neg hend, State.verdict, if_pos hpc, hd]
  rfl

/-- Settles O6: by the verdict on the form, `vvvv` alone makes the step raise `#UD`. -/
theorem vvvvNotAllOnesRaisesUd : Obligations.VvvvNotAllOnesRaisesUd := by
  refine ⟨fun s v1 v2 op rest hf hpc hfetch hop hv1 hv2 hops hvvvv => step_raises_ud hf hpc ?vex,
    fun s p0 p1 p2 op rest hf hpc hfetch hop hp0 hp12 hp1 hops hvvvv => step_raises_ud hf hpc ?evex⟩
  case vex =>
    obtain ⟨c, hc⟩ := Option.isSome_iff_exists.mp hop
    rw [hfetch, decode_vexForm hc hv1 hv2]
    exact (vexForm_eq_ud_iff c hops).mpr hvvvv
  case evex =>
    obtain ⟨c, hc⟩ := Option.isSome_iff_exists.mp hop
    rw [hfetch, decode_evexForm hc hp0 ((bits3 p1).mpr ⟨hp1, hp12⟩), evexForm_eq_ud_iff c hops]
    exact fun hok => hvvvv ((evexFieldsOk_iff ..).mp hok.2).1

/-! ## Ignored bits (rule R59) -/

theorem isRex_xor_w : ∀ rex : Byte, isRex rex = true → isRex (rex ^^^ 8#8) = true := by decide

theorem isRex_xor_x : ∀ rex : Byte, isRex rex = true → isRex (rex ^^^ 2#8) = true := by decide

/-- REX.W is no extension bit. -/
theorem legacyExt_xor_w : ∀ rex : Byte, legacyExt (some (rex ^^^ 8#8)) = legacyExt (some rex) := by decide

/-- Inverting REX.X inverts X and nothing else. -/
theorem legacyExt_xor_x : ∀ rex : Byte,
    legacyExt (some (rex ^^^ 2#8)) = { legacyExt (some rex) with x := !bit rex 1 } := by decide

/-- Inverting VEX.X inverts X and nothing else. -/
theorem vexExt_xor_x : ∀ v1 : Byte, vexExt (v1 ^^^ 0x40#8) = { vexExt v1 with x := bit v1 6 } := by decide

/-- Inverting EVEX.X inverts X and the fifth bit of a source register. -/
theorem evexExt_xor_x : ∀ p0 : Byte, evexExt (p0 ^^^ 0x40#8) = { evexExt p0 with x := bit p0 6, s4 := bit p0 6 } := by
  decide

/-- Bit 7 of V2 is in no field the decoder reads. -/
theorem vex2_xor_w : ∀ v2 : Byte, bits (v2 ^^^ 0x80#8) 0 2 = bits v2 0 2 ∧ bit (v2 ^^^ 0x80#8) 2 = bit v2 2 ∧
    bits (v2 ^^^ 0x80#8) 3 4 = bits v2 3 4 := by decide

theorem vex1_xor_x : ∀ v1 : Byte, bits (v1 ^^^ 0x40#8) 0 5 = bits v1 0 5 := by decide

theorem evex1_xor_w : ∀ p1 : Byte, bits (p1 ^^^ 0x80#8) 0 2 = bits p1 0 2 ∧ bit (p1 ^^^ 0x80#8) 2 = bit p1 2 ∧
    bits (p1 ^^^ 0x80#8) 3 4 = bits p1 3 4 := by decide

theorem evex0_xor_x : ∀ p0 : Byte, bits (p0 ^^^ 0x40#8) 0 2 = bits p0 0 2 ∧ bits (p0 ^^^ 0x40#8) 2 2 = bits p0 2 2 := by
  decide

/-- W is checked for opcode 35h only. -/
theorem evexFieldsOk_xor_w {c : Conversion} (hc : c ≠ .dq) (p1 p2 : Byte) :
    evexFieldsOk c (p1 ^^^ 0x80#8) p2 = evexFieldsOk c p1 p2 := by
  obtain ⟨-, -, hvvvv⟩ := evex1_xor_w p1
  simp only [evexFieldsOk, hvvvv, beq_false_of_ne hc, Bool.false_and]

/-- Without a SIB byte X takes no part in reading the operands. -/
theorem readOperands_without_sib {modrm : Byte} (h : hasSib modrm = false) (e : Ext) (x : Bool) (bs : List Byte) :
    readOperands { e with x := x } (modrm :: bs) = readOperands e (modrm :: bs) := by
  by_cases hmod : bits modrm 6 2 = 3#2
  · simp only [readOperands, if_pos hmod]
  · have hrm : bits modrm 0 3 ≠ 4#3 := fun e => by simp [hasSib, hmod, e] at h
    simp only [readOperands, readMem, if_neg hmod, if_neg hrm]

/-- A memory operand has no source register, so no fifth bit of one. -/
theorem readOperands_memory_s4 {modrm : Byte} (h : bits modrm 6 2 ≠ 3#2) (e : Ext) (s4 : Bool) (bs : List Byte) :
    readOperands { e with s4 := s4 } (modrm :: bs) = readOperands e (modrm :: bs) := by
  simp only [readOperands, if_neg h]
  rfl

/-- A legacy form depends on REX through the extension bits and the operands read with them. -/
theorem decodeLegacy_rex_congr {rex rex' : Byte} {bs : List Byte}
    (h : readOperands (legacyExt (some rex')) bs = readOperands (legacyExt (some rex)) bs) (run : List Byte)
    (esc op : Byte) :
    decodeLegacy run (some rex') (esc :: op :: bs) = decodeLegacy run (some rex) (esc :: op :: bs) := by
  simp only [decodeLegacy, legacyForm, h, Option.isSome_some]

/-- Settles O8: an ignored bit is in no field the decoder reads; X is in one that is read with a SIB byte, or with a
register source of an EVEX form, alone. -/
theorem ignoredBitsEncodeTheSameInstruction : Obligations.IgnoredBitsEncodeTheSameInstruction := by
  refine ⟨?rexW, ?vexW, ?evexW, ?evexWdq, ?rexX, ?vexX, ?evexX⟩
  case rexW =>
    intro rex op rest hrex
    rw [decode_66_rex (isRex_xor_w rex hrex), decode_66_rex hrex]
    exact decodeLegacy_rex_congr (by rw [legacyExt_xor_w]) ..
  case vexW =>
    intro v1 v2 op rest
    obtain ⟨hpp, hL, hvvvv⟩ := vex2_xor_w v2
    simp only [decode_C4, decodeVex, vexForm, hpp, hL, hvvvv]
  case evexW =>
    intro p0 p1 p2 op rest hop
    obtain ⟨hpp, hone, -⟩ := evex1_xor_w p1
    simp only [decode_62, decodeEvex, evexForm, hpp, hone]
    cases hc : conversionOf op with
    | none => rfl
    | some c =>
      have hne : c ≠ .dq := fun e => hop (by rw [(conversionOf_eq_some_iff op c).mp hc, e]; rfl)
      simp only [evexFieldsOk_xor_w hne]
  case evexWdq =>
    intro p0 p1 p2 rest hp0 hp1 hops hW
    rw [decode_evexForm (c := .dq) rfl hp0 hp1, evexForm_eq_ud_iff _ hops, evexFieldsOk_iff]
    exact fun ⟨_, _, hok, _⟩ => hok ⟨rfl, hW⟩
  case rexX =>
    intro rex op modrm rest hrex hsib
    rw [decode_66_rex (isRex_xor_x rex hrex), decode_66_rex hrex]
    exact decodeLegacy_rex_congr (by rw [legacyExt_xor_x, readOperands_without_sib hsib]) ..
  case vexX =>
    intro v1 v2 op modrm rest hsib
    simp only [decode_C4, decodeVex, vexForm, vex1_xor_x, vexExt_xor_x, readOperands_without_sib hsib]
  case evexX =>
    intro p0 p1 p2 op modrm rest hsib hmem
    obtain ⟨hmm, hzero⟩ := evex0_xor_x p0
    have hops : readOperands (evexExt (p0 ^^^ 0x40#8)) (modrm :: rest) = readOperands (evexExt p0) (modrm :: rest) := by
      rw [evexExt_xor_x]
      exact (readOperands_without_sib hsib { evexExt p0 with s4 := bit p0 6 } _ rest).trans
        (readOperands_memory_s4 hmem ..)
    simp only [decode_62, decodeEvex, evexForm, hmm, hzero, hops]

end Sys2Proof
end

section
/-! Rule R56: an 8-bit displacement is scaled by NB in EVEX format, and nothing else is scaled. -/

namespace Sys2Proof

open Machine

/-- An 8-bit displacement times a factor of at most 32 fits 32 bits, so widening it after the product or before it gives
one value. -/
theorem signExtend_scaled (d : BitVec 8) {n : Nat} (hn : n ≤ 32) :
    (d.signExtend 32 * BitVec.ofNat 32 n).signExtend 64 = d.signExtend 64 * BitVec.ofNat 64 n := by
  have hd : -128 ≤ d.toInt := BitVec.le_toInt d
  have hd' : d.toInt < 128 := d.toInt_lt
  have hlo : -4096 ≤ d.toInt * n := by nlinarith
  have hhi : d.toInt * n ≤ 4096 := by nlinarith
  have h32 : (BitVec.ofNat 32 n).toInt = n := by rw [BitVec.toInt_ofNat', Int.bmod_eq_of_le] <;> omega
  have h64 : (BitVec.ofNat 64 n).toInt = n := by rw [BitVec.toInt_ofNat', Int.bmod_eq_of_le] <;> omega
  apply BitVec.eq_of_toInt_eq
  rw [BitVec.toInt_signExtend_of_le (by decide), BitVec.toInt_mul, BitVec.toInt_mul, h32, h64,
    BitVec.toInt_signExtend_of_le (by decide), BitVec.toInt_signExtend_of_le (by decide), Int.bmod_eq_of_le,
    Int.bmod_eq_of_le] <;> omega

/-- The value of a widened displacement does not depend on the factor any more. -/
theorem dispValue_scaledDisp32 (d : BitVec 8) {n : Nat} (hn : n ≤ 32) (n' : Nat) :
    dispValue n' (scaledDisp32 n d) = dispValue n (.disp8 d) :=
  signExtend_scaled d hn

/-- Widening an 8-bit displacement by its factor keeps the effective address, which then is independent of the length of
the instruction. -/
theorem effectiveAddress_widened {n : Nat} {op op' : MemOp} (hw : WidensDisp8 n op op') (hn : n ≤ 32) (s : State)
    (next next' : Addr) : s.effectiveAddress n next' op' = s.effectiveAddress n next op := by
  obtain ⟨b, d, rfl, rfl⟩ | ⟨b, i, d, rfl, rfl⟩ := hw <;>
    simp only [State.effectiveAddress, dispValue_scaledDisp32 d hn]

theorem stackBase_widened {n : Nat} {op op' : MemOp} (hw : WidensDisp8 n op op') : stackBase op' = stackBase op := by
  obtain ⟨b, d, rfl, rfl⟩ | ⟨b, i, d, rfl, rfl⟩ := hw <;> rfl

/-- Without an 8-bit displacement nothing is scaled. -/
theorem effectiveAddress_unscaled {op : MemOp} (h : op.hasDisp8 = false) (s : State) (n n' : Nat) (next : Addr) :
    s.effectiveAddress n next op = s.effectiveAddress n' next op := by
  cases op with
  | ripRel d => rfl
  | base b disp => cases disp with
    | none => rfl
    | disp8 d => cases h
    | disp32 d => rfl
  | sib b i disp => cases disp with
    | none => rfl
    | disp8 d => cases h
    | disp32 d => rfl
  | sibNoBase i d => rfl

/-- Two memory operands of one form at the same address, alike in `#SS` or `#GP`, have the same effect but for `pc`. -/
theorem exec_sameButPc_of_address {i j : Instr} {op op' : MemOp} {s : State} (hi : i.shape.src = .mem op)
    (hj : j.shape = i.shape.withSrc (.mem op')) (hstack : stackBase op' = stackBase op)
    (hea : s.effectiveAddress i.shape.dispScale (s.pc + BitVec.ofNat 64 j.length) op' =
      s.effectiveAddress i.shape.dispScale (s.pc + BitVec.ofNat 64 i.length) op) :
    SameButPc (exec i s) (exec j s) := by
  have hjsrc : j.shape.src = .mem op' := by rw [hj, withSrc_src]
  apply exec_sameButPc hj
  rw [operand_mem hi, operand_mem hjsrc, hj]
  simp only [withSrc_dispScale, withSrc_conv, withSrc_vlen, withSrc_masking, hea, hstack]

/-- A form with its 8-bit displacement widened by the form's own factor has the same effect but for `pc`. -/
theorem exec_sameButPc_of_widened {i j : Instr} {op op' : MemOp} {n : Nat} (hi : i.shape.src = .mem op)
    (hj : j.shape = i.shape.withSrc (.mem op')) (hscale : i.shape.dispScale = n) (hn : n ≤ 32)
    (hw : WidensDisp8 n op op') (s : State) : SameButPc (exec i s) (exec j s) :=
  exec_sameButPc_of_address hi hj (stackBase_widened hw) (by rw [hscale]; exact effectiveAddress_widened hw hn ..)

/-- Only EVEX forms scale (rule R56). -/
theorem dispScale_of_not_evex {sh : Shape} (h : ∀ c vl m d src, sh ≠ .evex c vl m d src) : sh.dispScale = 1 := by
  cases sh with
  | legacy c rex d s => rfl
  | vex c wide d s => rfl
  | evex c vl m d s => exact absurd rfl (h c vl m d s)

/-- Settles O14: both kinds of operand reach `exec` through the effective address alone, which widening keeps. -/
theorem disp8IsCompressedInEvexOnly : Obligations.Disp8IsCompressedInEvexOnly := by
  refine ⟨?evex, ?others, ?halves, ?quarters, by decide, ?unscaled, ?anyScale, ?formulas,
    ⟨fun _ _ _ _ _ => rfl, fun _ _ _ _ => rfl, fun _ _ _ _ => rfl⟩, ?vpmovzxbw⟩
  case evex =>
    intro i j c vl m d op op' s hi hj hw
    exact exec_sameButPc_of_widened (by rw [hi]; rfl) hj (by rw [hi]; rfl) (sourceBytes_le c vl) hw s
  case others =>
    intro i j op op' s hne hi hj hw
    exact exec_sameButPc_of_widened hi hj (dispScale_of_not_evex hne) (by decide) hw s
  case halves => rintro c (rfl | rfl | rfl) <;> decide
  case quarters => rintro c (rfl | rfl) <;> decide
  case unscaled =>
    intro i j op op' s hi hj hop hop' hstack hea
    refine exec_sameButPc_of_address hi hj hstack.symm ?_
    rw [effectiveAddress_unscaled hop' s _ 1, effectiveAddress_unscaled hop s _ 1, hea]
  case anyScale => exact fun s n n' next op hop => effectiveAddress_unscaled hop s n n' next
  case formulas => exact fun _ _ _ _ _ _ _ => ⟨rfl, rfl, rfl, rfl⟩
  case vpmovzxbw =>
    refine ⟨.vpmovzxbwEvex512 .none 1 (.mem (.base 0 (.disp8 8))), by decide, fun s => ?_⟩
    exact exec_sameButPc_of_widened (n := sourceBytes .bw .v512) rfl rfl rfl (sourceBytes_le ..) (.inl ⟨0, 8, rfl, rfl⟩) s

end Sys2Proof
end

section
/-! Rules R66 to R71: every field of the six helpers. Each helper writes its fields side by side, the highest first; the
induction over that shape is done once, for any field width and number of fields. -/

namespace Sys2Proof

open Machine

/-- The width of `n + 1` fields of width `w`. -/
def joinedWidth (w : Nat) : Nat → Nat
  | 0 => w
  | n + 1 => joinedWidth w n + w

/-- The fields `f n` to `f 0` side by side, `f n` the highest. -/
def joinFields {w : Nat} (f : Nat → BitVec w) : (n : Nat) → BitVec (joinedWidth w n)
  | 0 => f 0
  | n + 1 => joinFields (fun j => f (j + 1)) n ++ f 0

/-- Field `j` of the joined fields is `f j`: the lowest field ends the value, the others lie `w` bits higher than they do
without it. -/
theorem joinFields_extractLsb' {w : Nat} (f : Nat → BitVec w) {n j : Nat} (hj : j ≤ n) :
    (joinFields f n).extractLsb' (w * j) w = f j := by
  induction n generalizing f j with
  | zero =>
    obtain rfl : j = 0 := Nat.le_zero.mp hj
    exact BitVec.extractLsb'_eq_self
  | succ n ih =>
    cases j with
    | zero => exact BitVec.extractLsb'_append_eq_right
    | succ j =>
      have hskip : w * (j + 1) - w = w * j := by rw [Nat.mul_succ, Nat.add_sub_cancel]
      have hpeel : (joinFields f (n + 1)).extractLsb' (w * (j + 1)) w =
          (joinFields (fun j => f (j + 1)) n).extractLsb' (w * (j + 1) - w) w :=
        BitVec.extractLsb'_append_eq_of_le (Nat.le_mul_of_pos_right w j.succ_pos)
      rw [hpeel, hskip]
      exact ih (fun j => f (j + 1)) (Nat.le_of_succ_le_succ hj)

/-- Field `j` of a value known to be `n + 1` joined fields. -/
theorem extractLsb'_of_eq_joinFields {w n j : Nat} {f : Nat → BitVec w} {x : BitVec (joinedWidth w n)}
    (h : x = joinFields f n) (hj : j < n + 1) : x.extractLsb' (w * j) w = f j := by
  rw [h, joinFields_extractLsb' f (Nat.le_of_lt_succ hj)]

/-! ## The six helpers as joined fields -/

theorem bytesToWords_eq_joinFields (src : BitVec 64) :
    bytesToWords src = joinFields (fun j => (src.extractLsb' (8 * j) 8).setWidth 16) 7 := rfl

theorem bytesToDwords_eq_joinFields (src : BitVec 32) :
    bytesToDwords src = joinFields (fun j => (src.extractLsb' (8 * j) 8).setWidth 32) 3 := rfl

theorem bytesToQwords_eq_joinFields (src : BitVec 16) :
    bytesToQwords src = joinFields (fun j => (src.extractLsb' (8 * j) 8).setWidth 64) 1 := rfl

theorem wordsToDwords_eq_joinFields (src : BitVec 64) :
    wordsToDwords src = joinFields (fun j => (src.extractLsb' (16 * j) 16).setWidth 32) 3 := rfl

theorem wordsToQwords_eq_joinFields (src : BitVec 32) :
    wordsToQwords src = joinFields (fun j => (src.extractLsb' (16 * j) 16).setWidth 64) 1 := rfl

theorem dwordsToQwords_eq_joinFields (src : BitVec 64) :
    dwordsToQwords src = joinFields (fun j => (src.extractLsb' (32 * j) 32).setWidth 64) 1 := rfl

/-- Settles O32: each helper joins its zero-extended source fields, and a field of the join is the field that was put
there. -/
theorem helpersZeroExtendEachField : Obligations.HelpersZeroExtendEachField :=
  ⟨fun src _ hj => extractLsb'_of_eq_joinFields (bytesToWords_eq_joinFields src) hj,
   fun src _ hj => extractLsb'_of_eq_joinFields (bytesToDwords_eq_joinFields src) hj,
   fun src _ hj => extractLsb'_of_eq_joinFields (bytesToQwords_eq_joinFields src) hj,
   fun src _ hj => extractLsb'_of_eq_joinFields (wordsToDwords_eq_joinFields src) hj,
   fun src _ hj => extractLsb'_of_eq_joinFields (wordsToQwords_eq_joinFields src) hj,
   fun src _ hj => extractLsb'_of_eq_joinFields (dwordsToQwords_eq_joinFields src) hj⟩

end Sys2Proof
end

section
/-! Rules R76 to R82: what a VEX form does. A form whose operand has a value writes what its shape makes of that value; for
a VEX form this is ZX, and so every VEX form satisfies `VexRule` with the parameters of its conversion and length. -/

namespace Sys2Proof

open Machine

/-- A form whose feature is there completes with the result of any value `S` of its operand: the value read may differ
from `S`, but only in elements the result does not depend on. -/
theorem exec_completes_of_sourceIs {i : Instr} {s : State} {S : Vec} (hen : i.shape.requires s.cfg.features = true)
    (hS : s.SourceIs i.shape.conv.srcw (sourceBytes i.shape.conv i.shape.vlen) i.shape.masking i.shape.dispScale i.length
      i.shape.src S) :
    exec i s = .next (s.complete i.shape.dest (i.shape.result s (s.vreg i.shape.dest) S) i.length) := by
  obtain ⟨val, hread, helem⟩ := operand_ok hS
  rw [exec_completes hen hread, result_congr helem]

/-- The vector length of the VEX length bit L (rule R48). -/
def vexVLen (wide : Bool) : VLen := if wide then .v256 else .v128

/-- Rule R76: a VEX form writes ZX of its operand. -/
theorem exec_mkVex {c : Conversion} {wide : Bool} {d : VReg} {src : Src} {s : State} {S : Vec}
    (hen : (if wide then s.cfg.features.avx2 else s.cfg.features.avx) = true)
    (hS : s.SourceIs c.srcw (sourceBytes c (vexVLen wide)) .none 1 (vexLength src) src S) :
    exec (mkVex c wide d src) s = .next (s.complete d (zx c (vexVLen wide) S) (vexLength src)) := by
  have hshape := mkVex_shape c wide d src
  have hlen := length_mkVex c wide d src
  have hresult : (Shape.vex c wide d src).result s (s.vreg d) S = zx c (vexVLen wide) S :=
    vexMerge_zx c (vexVLen wide) S
  have h := exec_completes_of_sourceIs (i := mkVex c wide d src) (s := s) (S := S)
    (by rw [hshape]; exact hen) (by rw [hshape, hlen]; exact hS)
  rwa [hshape, hlen, Shape.dest, hresult] at h

/-- Rule R48: the bytes of a VEX form up to its ModRM byte, and their fixed fields. -/
theorem encode_mkVex (c : Conversion) (wide : Bool) (d : VReg) (src : Src) :
    ∃ v1 v2 modrm tail, encode (mkVex c wide d src) = 0xC4#8 :: v1 :: v2 :: opcodeOf c :: modrm :: tail ∧
      bits v1 0 5 = 2#5 ∧ bits v2 3 4 = 15#4 ∧ bit v2 2 = wide ∧ bits v2 0 2 = 1#2 := by
  obtain ⟨hmap, -, -, -⟩ := vex1_bits (!numBit d.val 3) (!src.fields.x) (!src.fields.b)
  obtain ⟨hpp, hvvvv, hl⟩ := vex2_bits wide
  have hbytes : encode (mkVex c wide d src) = (Shape.vex c wide d src).encode := congrArg _ (mkVex_shape c wide d src)
  exact ⟨_, _, _, _, hbytes, hmap, hvvvv, hl, hpp⟩

/-- Rules R76 to R88: every VEX form does what its rule says, with the opcode, the widths and the counts of its conversion
and length. -/
theorem vexRule_mkVex (c : Conversion) (wide : Bool) :
    VexRule (mkVex c wide) (opcodeOf c) wide (fun f => if wide then f.avx2 else f.avx) c.srcw c.dstw
      (elements c (vexVLen wide)) (sourceBytes c (vexVLen wide)) (vexVLen wide).bits := by
  refine ⟨encode_mkVex c wide, fun d src s S hen hS => ⟨_, exec_mkVex hen hS, ?_, ?_, rfl, rfl, complete_sameBut ..⟩⟩
  · intro j hj
    rw [complete_vreg_self]
    exact elem_zx c (vexVLen wide) S hj
  · intro i hi
    rw [complete_vreg_self]
    exact zx_upper c (vexVLen wide) S hi

/-- Settles O30: each of the six forms is the VEX form of its conversion with L = 1. -/
theorem vex256FormsConvert : Obligations.Vex256FormsConvert :=
  ⟨vexRule_mkVex .bw true, vexRule_mkVex .bd true, vexRule_mkVex .bq true,
   vexRule_mkVex .wd true, vexRule_mkVex .wq true, vexRule_mkVex .dq true⟩

end Sys2Proof
end

section
/-! Rules R96 to R103: what an EVEX form does. Its bytes carry the fields of its conversion, length and writemask;
`EVEX.W = 1` is one bit flipped in them; and the merge under the writemask, element by element, is the rule's loop. So every
EVEX form satisfies `EvexRule` with the parameters of its conversion and length. -/

namespace Sys2Proof

open Machine

/-! ## The bytes (rule R49) -/

theorem encode_mkEvex (c : Conversion) (vl : VLen) (m : Masking) (d : VReg) (src : Src) :
    encode (mkEvex c vl m d src) = 0x62#8 :: evexByte0 d src.fields :: evexByte1 :: evexByte2 vl m :: opcodeOf c ::
      operandBytes d src.fields :=
  congrArg Shape.encode (mkEvex_shape c vl m d src)

/-- The low four bits of P0 hold the map field, whatever registers the form names. -/
theorem bits_evexByte0 (d : VReg) (f : RmFields) : bits (evexByte0 d f) 0 4 = 2#4 := by
  obtain ⟨hmap, hzero, -⟩ := evex0_bits (!numBit d.val 3) (!f.x) (!f.b) (!numBit d.val 4)
  exact (bits4 _).mpr ⟨hmap, hzero⟩

/-- The fields `b = 0` and `V' = 1` (stored) of a byte P2, read together. -/
theorem bits_evexBV : ∀ p2 : Byte, bit p2 3 = true → bit p2 4 = false → bits p2 3 2 = 1#2 := by decide

theorem low3_kreg (k : KReg) : low3 k.val = BitVec.ofFin k := by revert k; decide

/-- The bytes of an EVEX form up to its ModRM byte, with their fixed fields, its length and its writemask. -/
theorem encode_mkEvex_fields (c : Conversion) (vl : VLen) (m : Masking) (d : VReg) (src : Src) :
    ∃ p0 p1 p2 modrm tail, encode (mkEvex c vl m d src) = 0x62#8 :: p0 :: p1 :: p2 :: opcodeOf c :: modrm :: tail ∧
      bits p0 0 4 = 2#4 ∧ bits p1 3 4 = 15#4 ∧ bits p1 0 3 = 5#3 ∧ bits p2 5 2 = llOf vl ∧ bits p2 3 2 = 1#2 ∧
      bit p2 7 = isZeroing m ∧
      bits p2 0 3 = (match m with | .none => 0 | .merging k => BitVec.ofFin k | .zeroing k => BitVec.ofFin k) := by
  obtain ⟨hll, hz, haaa, hv', hb⟩ := evex2_bits vl m
  refine ⟨_, _, _, _, _, encode_mkEvex c vl m d src, bits_evexByte0 d src.fields, by decide, by decide, hll,
    bits_evexBV _ hv' hb, ?_, ?_⟩
  · rw [hz]
    cases m <;> rfl
  · rw [haaa]
    cases m with
    | none => rfl
    | merging k => exact low3_kreg k
    | zeroing k => exact low3_kreg k

/-! ## `EVEX.W = 1` (rule R59) -/

theorem opcodeOf_eq_dq_iff (c : Conversion) : opcodeOf c = 0x35#8 ↔ c = .dq := by cases c <;> decide

/-- The encoder writes W = 0, so setting the bit is flipping it. -/
theorem setEvexW_encode_mkEvex (c : Conversion) (vl : VLen) (m : Masking) (d : VReg) (src : Src) :
    setEvexW (encode (mkEvex c vl m d src)) = 0x62#8 :: evexByte0 d src.fields :: (evexByte1 ^^^ 0x80#8) ::
      evexByte2 vl m :: opcodeOf c :: operandBytes d src.fields := by
  have hbit : evexByte1 ||| 0x80#8 = evexByte1 ^^^ 0x80#8 := by decide
  rw [encode_mkEvex, ← hbit]
  rfl

/-- With W = 1 a well-formed EVEX form decodes as with W = 0, but for opcode 35h, where it is `#UD`. -/
theorem decode_setEvexW_mkEvex {c : Conversion} {vl : VLen} {m : Masking} {d : VReg} {src : Src}
    (hw : (mkEvex c vl m d src).wf = true) (rest : List Byte) :
    decode (setEvexW (encode (mkEvex c vl m d src)) ++ rest) =
      if (c != .dq) = true then .instr (mkEvex c vl m d src) rest else .ud := by
  obtain ⟨-, -, hignored, hdq, -⟩ := ignoredBitsEncodeTheSameInstruction
  have hwf : (Shape.evex c vl m d src).wf = true := mkEvex_shape c vl m d src ▸ hw
  rw [setEvexW_encode_mkEvex]
  simp only [List.cons_append]
  by_cases hc : c = .dq
  · subst hc
    have hsrc : src.wf = true := ((Bool.and_eq_true _ _).mp hwf).2
    have hops := readOperands_bytes _ d src rest hsrc (agrees_evex d src)
    exact hdq _ _ _ _ (bits_evexByte0 d src.fields) (by decide) (Option.isSome_of_eq_some hops) (by decide)
  · rw [hignored _ _ _ _ _ (mt (opcodeOf_eq_dq_iff c).mp hc), if_pos (bne_iff_ne.mpr hc)]
    exact decode_encode_evex c vl m d src rest hwf

/-! ## The result (rules R96, R97) -/

/-- Rule R96, the loop over the elements: what the merge under the writemask puts in element `j`. An equation with
a choice on its right is a choice of equations. -/
theorem elementMasked_evexMerge (c : Conversion) (vl : VLen) (m : Masking) (s : State) (old S : Vec) {j : Nat}
    (hj : j < elements c vl) :
    ElementMasked c.srcw c.dstw s m S old (evexMerge c vl (s.maskBit m) (isZeroing m) old (zx c vl S)) j := by
  have helem := elem_evexMerge c vl (s.maskBit m) (isZeroing m) old (zx c vl S) hj
  rw [elem_zx c vl S hj] at helem
  cases m with
  | none => exact helem
  | merging k => exact (apply_ite (Eq _) _ _ _).mp helem
  | zeroing k => exact (apply_ite (Eq _) _ _ _).mp helem

/-! ## The forms -/

/-- The table of rule R123 for the EVEX forms: the feature depends on conversion and length alone. -/
def evexFeature (c : Conversion) (vl : VLen) (f : Features) : Bool := (Shape.evex c vl .none 0 (.reg 0)).requires f

theorem requires_evex (c : Conversion) (vl : VLen) (m : Masking) (d : VReg) (src : Src) (f : Features) :
    (Shape.evex c vl m d src).requires f = evexFeature c vl f := by
  cases c <;> cases vl <;> rfl

/-- Rules R96 and R97: an EVEX form writes the merge of its operand's ZX under the writemask. -/
theorem exec_mkEvex {c : Conversion} {vl : VLen} {m : Masking} {d : VReg} {src : Src} {s : State} {S : Vec}
    (hen : evexFeature c vl s.cfg.features = true)
    (hS : s.SourceIs c.srcw (sourceBytes c vl) m (sourceBytes c vl) (evexLength src) src S) :
    exec (mkEvex c vl m d src) s =
      .next (s.complete d (evexMerge c vl (s.maskBit m) (isZeroing m) (s.vreg d) (zx c vl S)) (evexLength src)) := by
  have hshape := mkEvex_shape c vl m d src
  have hlen := length_mkEvex c vl m d src
  have h := exec_completes_of_sourceIs (i := mkEvex c vl m d src) (s := s) (S := S)
    (by rw [hshape, requires_evex]; exact hen) (by rw [hshape, hlen]; exact hS)
  rwa [hshape, hlen] at h

/-- Rules R96 to R103: every EVEX form does what its rule says, with the opcode, the widths and the counts of its conversion
and length; `EVEX.W` is ignored for every conversion but dword to qword. -/
theorem evexRule_mkEvex (c : Conversion) (vl : VLen) :
    EvexRule (mkEvex c vl) (opcodeOf c) (llOf vl) (c != .dq) (evexFeature c vl) c.srcw c.dstw (elements c vl)
      (sourceBytes c vl) vl.bits := by
  refine ⟨encode_mkEvex_fields c vl, fun m d src rest hw => decode_setEvexW_mkEvex hw rest,
    fun m d src s S hen hS => ⟨_, exec_mkEvex hen hS, ?_, ?_, rfl, rfl, complete_sameBut ..⟩⟩
  · intro j hj
    rw [complete_vreg_self]
    exact elementMasked_evexMerge c vl m s (s.vreg d) S hj
  · intro i hi
    rw [complete_vreg_self]
    exact evexMerge_upper c vl _ _ _ _ hi

/-- Settles O31: each of the eighteen forms is the EVEX form of its conversion at its length. -/
theorem evexFormsConvertUnderMask : Obligations.EvexFormsConvertUnderMask :=
  ⟨⟨evexRule_mkEvex .bw .v128, evexRule_mkEvex .bw .v256, evexRule_mkEvex .bw .v512⟩,
   ⟨evexRule_mkEvex .bd .v128, evexRule_mkEvex .bd .v256, evexRule_mkEvex .bd .v512⟩,
   ⟨evexRule_mkEvex .bq .v128, evexRule_mkEvex .bq .v256, evexRule_mkEvex .bq .v512⟩,
   ⟨evexRule_mkEvex .wd .v128, evexRule_mkEvex .wd .v256, evexRule_mkEvex .wd .v512⟩,
   ⟨evexRule_mkEvex .wq .v128, evexRule_mkEvex .wq .v256, evexRule_mkEvex .wq .v512⟩,
   ⟨evexRule_mkEvex .dq .v128, evexRule_mkEvex .dq .v256, evexRule_mkEvex .dq .v512⟩⟩

end Sys2Proof
end

section
/-! Rules R123 and R130: which exceptions an instruction raises for a missing feature, and what raising one changes. By the
cases of a step, a fault appears only through `State.raise`; and `#UD` comes from the feature check alone, because a failing
operand read raises a memory fault. -/

namespace Sys2Proof

open Machine

/-! ## Exceptions are precise and end the run (rule R130) -/

/-- An instruction either raises an exception, and does nothing else, or leaves the fault record as it was. -/
theorem exec_raises_or_keeps_fault {i : Instr} {s t : State} (h : exec i s = .next t) :
    (∃ e, t = s.raise e) ∨ t.fault = s.fault := by
  obtain ⟨-, ht⟩ | ⟨e, -, -, ht⟩ | ⟨val, -, -, ht⟩ := exec_cases h
  · exact .inl ⟨.ud, ht⟩
  · exact .inl ⟨e, ht⟩
  · exact .inr (by rw [ht, complete_fault])

/-- A step that answers a faulted state has raised an exception and done nothing else. -/
theorem step_eq_raise_of_fault {s t : State} (h : step s = .next t) (ht : t.fault ≠ none) : ∃ e, t = s.raise e := by
  obtain ⟨hs, -, ⟨i, rest, -, hexec⟩ | ⟨-, hud⟩⟩ := step_cases h
  · obtain hraise | hkeep := exec_raises_or_keeps_fault hexec
    · exact hraise
    · exact absurd (hkeep.trans hs) ht
  · exact ⟨.ud, hud⟩

/-- Rule R29: a faulted state has no successor. -/
theorem not_steps_of_fault {s : State} (h : s.fault ≠ none) : ¬Steps (step s) := by
  rintro ⟨t, ht⟩
  obtain ⟨hs, -, -⟩ := step_cases ht
  exact h hs

/-- Settles O20: the only way to a faulted state is `State.raise`; the record itself bars a further step and a normal
end. -/
theorem exceptionsArePreciseAndTerminal : Obligations.ExceptionsArePreciseAndTerminal := fun _ _ h ht =>
  ⟨step_eq_raise_of_fault h ht, not_steps_of_fault ht, fun hend => ht hend.1⟩

/-! ## `#UD` for a missing feature (rule R123) -/

/-- The address check raises `#SS` or `#GP`, by the base register, or `#PF` at a byte it checks (rule R126). -/
theorem memoryFault_eq_some {s : State} {onStack : Bool} {ea : Addr} {nb : Nat} {offs : List Nat} {e : Exception}
    (h : s.memoryFault onStack ea nb offs = some e) :
    e = (if onStack then .ss else .gp) ∨ ∃ j ∈ offs, e = .pf (ea + BitVec.ofNat 64 j) := by
  unfold State.memoryFault at h
  split at h
  next => cases h
  next =>
    split at h
    next => exact .inl (Option.some.inj h).symm
    next =>
      split at h
      next j hj => exact .inr ⟨j, List.mem_of_find?_eq_some hj, (Option.some.inj h).symm⟩
      next => cases h

theorem memoryFault_ne_ud (s : State) (onStack : Bool) (ea : Addr) (nb : Nat) (offs : List Nat) :
    s.memoryFault onStack ea nb offs ≠ some .ud := by
  intro h
  obtain he | ⟨j, -, he⟩ := memoryFault_eq_some h
  · cases onStack <;> cases he
  · cases he

/-- Reading the source operand does not raise `#UD`: a register source raises nothing, a memory source what its address
check raises. -/
theorem operand_ne_ud (i : Instr) (s : State) : s.operand i ≠ .error .ud := by
  intro h
  cases hsrc : i.shape.src with
  | reg r =>
    rw [State.operand, hsrc] at h
    cases h
  | mem op =>
    rw [operand_mem hsrc] at h
    split at h
    next e he =>
      cases h
      exact memoryFault_ne_ud _ _ _ _ _ he
    next => cases h

/-- A form whose feature is there records no `#UD`. -/
theorem exec_fault_ne_ud {i : Instr} {s t : State} (hen : i.shape.requires s.cfg.features = true)
    (hs : s.fault = none) (h : exec i s = .next t) (a : Addr) : t.fault ≠ some ⟨.ud, a⟩ := by
  intro ht
  obtain ⟨hdis, -⟩ | ⟨e, -, hop, rfl⟩ | ⟨val, -, -, rfl⟩ := exec_cases h
  · rw [hen] at hdis
    cases hdis
  · cases ht
    exact operand_ne_ud i s hop
  · rw [complete_fault, hs] at ht
    cases ht

/-- Settles O23: the feature check comes before the operand is read, and is the only source of `#UD`. -/
theorem missingFeatureRaisesUd : Obligations.MissingFeatureRaisesUd :=
  ⟨fun _ _ => exec_disabled, fun _ _ _ => exec_fault_ne_ud⟩

end Sys2Proof
end

section
/-! Rules R46 to R63: the decoder and the encoder agree. What the encoder writes for a well-formed instruction is read back
as that instruction; what the decoder answers is well formed and as long as the bytes it consumed. -/

namespace Sys2Proof

open Machine

/-! ## Decoding what the encoder wrote -/

/-- An instruction is the one of its shape. -/
theorem toInstr_shape (i : Instr) : i.shape.toInstr = i := by cases i <;> rfl

theorem decode_encode_vex (c : Conversion) (wide : Bool) (d : VReg) (s : Src) (rest : List Byte)
    (hw : (Shape.vex c wide d s).wf = true) :
    decode ((Shape.vex c wide d s).encode ++ rest) = .instr (mkVex c wide d s) rest := by
  simp only [Shape.wf, Bool.and_eq_true, decide_eq_true_eq] at hw
  obtain ⟨⟨hd, hreach⟩, hs⟩ := hw
  obtain ⟨hmap, -⟩ := vex1_bits (!numBit d.val 3) (!s.fields.x) (!s.fields.b)
  obtain ⟨hpp, hvvvv, hl⟩ := vex2_bits wide
  have hops := readOperands_bytes _ d s rest hs (agrees_vex d s hd hreach)
  calc decode ((Shape.vex c wide d s).encode ++ rest)
      = vexForm c (vexByte1 d s.fields) (vexByte2 wide) (operandBytes d s.fields ++ rest) :=
        decode_vexForm (conversionOf_opcodeOf c) hmap hpp _
    _ = .instr (mkVex c wide d s) rest := by simp only [vexForm, hops, hvvvv, hl, if_true]

/-- After the run 66 and `0F 38`, a legacy form whose operands can be read is an instruction. -/
theorem decodeLegacy_encoded {c : Conversion} {rex : Option Byte} {d : VReg} {s : Src} {rest : List Byte}
    (hs : s.wf = true) (he : (legacyExt rex).Agrees d s) :
    decodeLegacy [0x66#8] rex (0x38#8 :: opcodeOf c :: (operandBytes d s.fields ++ rest)) =
      .instr (mkLegacy c rex.isSome d s) rest := by
  simp only [decodeLegacy, legacyForm, conversionOf_opcodeOf, if_true, readOperands_bytes _ d s rest hs he]

theorem decode_encode_legacy (c : Conversion) (rex : Bool) (d : VReg) (s : Src) (rest : List Byte)
    (hw : (Shape.legacy c rex d s).wf = true) :
    decode ((Shape.legacy c rex d s).encode ++ rest) = .instr (mkLegacy c rex d s) rest := by
  simp only [Shape.wf, Bool.and_eq_true, Bool.or_eq_true, decide_eq_true_eq] at hw
  obtain ⟨⟨⟨hd, hreach⟩, hs⟩, hrex⟩ := hw
  cases rex with
  | false =>
    obtain ⟨hd8, hlow⟩ : d.val < 8 ∧ s.low = true := by simpa using hrex
    exact (decode_66_0F _).trans (decodeLegacy_encoded hs (agrees_legacy_plain d s hd8 hlow))
  | true =>
    obtain ⟨hisRex, -⟩ := rex_bits (numBit d.val 3) s.fields.x s.fields.b
    exact (decode_66_rex hisRex _).trans (decodeLegacy_encoded hs (agrees_legacy_rex d s hd hreach))

/-- What the encoder writes for a well-formed shape decodes to the instruction of that shape. -/
theorem decode_encode_shape (sh : Shape) (rest : List Byte) (hw : sh.wf = true) :
    decode (sh.encode ++ rest) = .instr sh.toInstr rest := by
  cases sh with
  | legacy c rex d s => exact decode_encode_legacy c rex d s rest hw
  | vex c wide d s => exact decode_encode_vex c wide d s rest hw
  | evex c vl m d s => exact decode_encode_evex c vl m d s rest hw

/-- Settles O1: the shape's encoding is read back format by format, and the shape says which instruction it is. -/
theorem decodeOfEncodeIsTheInstruction : Obligations.DecodeOfEncodeIsTheInstruction := fun i rest hw =>
  (decode_encode_shape i.shape rest hw).trans (by rw [toInstr_shape i])

/-! ## What the decoder answers -/

theorem mkLegacy_wf_and_length {c : Conversion} {rex : Option Byte} {bs rest : List Byte} {d : VReg} {s : Src}
    (h : readOperands (legacyExt rex) bs = some (d, s, rest)) :
    (mkLegacy c rex.isSome d s).wf = true ∧
      ∃ used, bs = used ++ rest ∧ 3 + rex.toList.length + 1 + used.length = (mkLegacy c rex.isSome d s).length := by
  obtain ⟨hs, ⟨used, hbs, hlen⟩, hd16, hreach, hd8, hlow⟩ := readOperands_spec h
  rw [length_mkLegacy, Instr.wf, mkLegacy_shape]
  cases rex with
  | none =>
    exact ⟨by simp [Shape.wf, hs, hd16 rfl, hreach rfl, hd8 rfl rfl, hlow rfl rfl rfl], used, hbs,
      show 3 + 0 + 1 + used.length = 3 + 1 + 1 + s.tailLength by omega⟩
  | some r =>
    exact ⟨by simp [Shape.wf, hs, hd16 rfl, hreach rfl], used, hbs,
      show 3 + 1 + 1 + used.length = 4 + 1 + 1 + s.tailLength by omega⟩

theorem mkVex_wf_and_length {c : Conversion} {wide : Bool} {v1 : Byte} {bs rest : List Byte} {d : VReg} {s : Src}
    (h : readOperands (vexExt v1) bs = some (d, s, rest)) :
    (mkVex c wide d s).wf = true ∧ ∃ used, bs = used ++ rest ∧ 4 + used.length = (mkVex c wide d s).length := by
  obtain ⟨hs, ⟨used, hbs, hlen⟩, hd16, hreach, -⟩ := readOperands_spec h
  rw [length_mkVex, Instr.wf, mkVex_shape]
  exact ⟨by simp [Shape.wf, hs, hd16 rfl, hreach rfl], used, hbs, by rw [vexLength]; omega⟩

theorem mkEvex_wf_and_length {c : Conversion} {vl : VLen} {z : Bool} {aaa : BitVec 3} {e : Ext} {bs rest : List Byte}
    {d : VReg} {s : Src} (h : readOperands e bs = some (d, s, rest)) :
    (mkEvex c vl (maskingOf z aaa) d s).wf = true ∧
      ∃ used, bs = used ++ rest ∧ 5 + used.length = (mkEvex c vl (maskingOf z aaa) d s).length := by
  obtain ⟨hs, ⟨used, hbs, hlen⟩, -⟩ := readOperands_spec h
  rw [length_mkEvex, Instr.wf, mkEvex_shape]
  exact ⟨by simp [Shape.wf, hs, maskingOf_wf], used, hbs, by rw [evexLength]; omega⟩

/-- A byte string consumed its legacy prefixes, its REX byte and what stands before `rest` in the remaining bytes. -/
theorem consumed_of_splitRex {bs lead used rest : List Byte} {rex : Option Byte} {n : Nat}
    (hsplit : splitRex (bs.dropWhile isLegacyPrefix) = (rex, lead ++ (used ++ rest)))
    (hlen : (bs.takeWhile isLegacyPrefix).length + rex.toList.length + lead.length + used.length = n) :
    ∃ used', bs = used' ++ rest ∧ used'.length = n := by
  have hparts : rex.toList ++ (lead ++ (used ++ rest)) = bs.dropWhile isLegacyPrefix := by
    simpa only [hsplit] using splitRex_spec (bs.dropWhile isLegacyPrefix)
  refine ⟨bs.takeWhile isLegacyPrefix ++ (rex.toList ++ (lead ++ used)), ?_, by simp only [List.length_append]; omega⟩
  calc bs = bs.takeWhile isLegacyPrefix ++ bs.dropWhile isLegacyPrefix := List.takeWhile_append_dropWhile.symm
    _ = bs.takeWhile isLegacyPrefix ++ (rex.toList ++ (lead ++ used)) ++ rest := by rw [← hparts]; simp

/-- Settles O2: the three formats read well-formed operands, and the bytes before the operands are those the length of
each format counts. -/
theorem decodedInstructionIsWellFormed : Obligations.DecodedInstructionIsWellFormed := by
  intro bs i rest h
  obtain ⟨rex, b, tl, hsplit, ⟨rfl, hl⟩ | ⟨rfl, hv⟩ | ⟨rfl, he⟩⟩ := decode_inv h
  case inl =>
    obtain ⟨op, c, tl, d, s, rfl, -, hrun, hops, rfl⟩ := decodeLegacy_inv hl
    obtain ⟨hwf, used, rfl, hlen⟩ := mkLegacy_wf_and_length (c := c) hops
    refine ⟨hwf, consumed_of_splitRex (lead := [0x0F#8, 0x38#8, op]) hsplit ?_⟩
    simp only [hrun, List.length_cons, List.length_nil]
    omega
  case inr.inl =>
    obtain ⟨v1, v2, op, c, tl, d, s, rfl, -, hrun, rfl, hops, rfl, -⟩ := decodeVex_inv hv
    obtain ⟨hwf, used, rfl, hlen⟩ := mkVex_wf_and_length (c := c) (wide := bit v2 2) hops
    refine ⟨hwf, consumed_of_splitRex (lead := [0xC4#8, v1, v2, op]) hsplit ?_⟩
    simp only [hrun, List.length_cons, List.length_nil, Option.toList_none]
    omega
  case inr.inr =>
    obtain ⟨p0, p1, p2, op, c, tl, d, s, vl, rfl, -, hrun, rfl, hops, -, -, rfl⟩ := decodeEvex_inv he
    obtain ⟨hwf, used, rfl, hlen⟩ :=
      mkEvex_wf_and_length (c := c) (vl := vl) (z := bit p2 7) (aaa := bits p2 0 3) hops
    refine ⟨hwf, consumed_of_splitRex (lead := [0x62#8, p0, p1, p2, op]) hsplit ?_⟩
    simp only [hrun, List.length_cons, List.length_nil, Option.toList_none]
    omega

/-- Settles O4: the three words, their fields in binary, evaluated by the decoder. -/
theorem wordsOfTheThreeFormatsDecode : Obligations.WordsOfTheThreeFormatsDecode := by
  unfold Obligations.WordsOfTheThreeFormatsDecode
  decide

end Sys2Proof
end

section
/-! Rule R61: what each combination of legacy prefixes, REX and following bytes is, form of the family or not. -/

namespace Sys2Proof

open Machine

/-! ## Legacy forms -/

/-- The legacy prefixes and REX before `0F 38 op` (rule R61, rows 1 to 3). -/
theorem decode_legacy_tail {run : List Byte} {rex : Option Byte} {op : Byte} {c : Conversion}
    (hrun : ∀ b ∈ run, isLegacyPrefix b = true) (hrex : ∀ r, rex = some r → isRex r = true)
    (hc : conversionOf op = some c) (rest : List Byte) :
    decode (run ++ rex.toList ++ 0x0F#8 :: 0x38#8 :: op :: rest) =
      if run = [0x66#8] then legacyForm c rex rest
      else if run.any isLockOrRep then .ud
      else .refused .unsupportedPrefixes := by
  have hstart : StartsRest (0x0F#8 :: 0x38#8 :: op :: rest) := ⟨by decide, by decide⟩
  rw [decode_split run rex _ hrun hrex fun _ => hstart]
  simp only [if_true, decodeLegacy, hc]

/-- LOCK, F2h or F3h is in the run (rule R61). -/
theorem any_isLockOrRep_iff (run : List Byte) :
    run.any isLockOrRep = true ↔ 0xF0#8 ∈ run ∨ 0xF2#8 ∈ run ∨ 0xF3#8 ∈ run := by
  simp [isLockOrRep, and_or_left, exists_or, or_assoc]

/-- Settles O10: the three rows for `0F 38 op` are the three branches of the decoder. -/
theorem prefixesOfALegacyForm : Obligations.PrefixesOfALegacyForm := by
  intro run rex op c rest hrun hrex hc
  rw [decode_legacy_tail hrun hrex hc, ← any_isLockOrRep_iff]
  refine ⟨fun h66 => ?form, fun hlock => ?lock, fun h66 hlock => ⟨_, by rw [if_neg h66, if_neg hlock]⟩⟩
  case form =>
    rw [if_pos h66, legacyForm]
    cases readOperands (legacyExt rex) rest with
    | none => rfl
    | some p => exact ⟨_, rfl, mkLegacy_shape ..⟩
  case lock =>
    have h66 : run ≠ [0x66#8] := by
      rintro rfl
      exact absurd hlock (by decide)
    rw [if_neg h66, if_pos hlock]

/-! ## VEX3 and EVEX forms -/

/-- A VEX3 or EVEX form behind legacy prefixes or REX (rule R61, rows 4 to 9). -/
theorem decode_prefixed_tail {run : List Byte} {rex : Option Byte} {bs : List Byte}
    (hrun : ∀ b ∈ run, isLegacyPrefix b = true) (hrex : ∀ r, rex = some r → isRex r = true)
    (hbs : rex = none → StartsRest bs) (hfam : FamilyTail bs) (hhead : bs.head? = some 0xC4#8 ∨ bs.head? = some 0x62#8)
    (hne : ¬(run = [] ∧ rex = none)) : decode (run ++ rex.toList ++ bs) = prefixedVector run rex := by
  rw [decode_split run rex bs hrun hrex hbs]
  obtain ⟨op, rest, rfl, -⟩ | ⟨v1, v2, op, rest, rfl, hop, hmap, hpp⟩ | ⟨p0, p1, p2, op, rest, rfl, hop, hp0, hone, hpp⟩ :=
    hfam
  · simp at hhead
  · obtain ⟨c, hc⟩ := Option.isSome_iff_exists.mp hop
    simp [decodeVex, hc, hmap, hpp, hne]
  · obtain ⟨c, hc⟩ := Option.isSome_iff_exists.mp hop
    obtain ⟨hmap, hzero⟩ := (bits4 p0).mp hp0
    simp [decodeEvex, hc, hmap, hzero, hone, hpp, hne]

/-! ## Bytes that are no form of the family -/

theorem decodeLegacy_refused {run bs : List Byte} {rex : Option Byte} (h : ¬FamilyTail (0x0F#8 :: bs)) :
    ∃ r, decodeLegacy run rex bs = .refused r := by
  unfold decodeLegacy
  split
  next esc op rest =>
    split
    next hesc =>
      split
      next => exact ⟨_, rfl⟩
      next c hc => exact absurd (.inl ⟨op, rest, by rw [hesc], Option.isSome_of_eq_some hc⟩) h
    next => exact ⟨_, rfl⟩
  next => exact ⟨_, rfl⟩

theorem decodeVex_refused {run bs : List Byte} {rex : Option Byte} (h : ¬FamilyTail (0xC4#8 :: bs)) :
    ∃ r, decodeVex run rex bs = .refused r := by
  unfold decodeVex
  split
  next v1 v2 op rest =>
    split
    next => exact ⟨_, rfl⟩
    next c hc =>
      split
      next hf => exact absurd (.inr (.inl ⟨v1, v2, op, rest, rfl, Option.isSome_of_eq_some hc, hf⟩)) h
      next => exact ⟨_, rfl⟩
  next => exact ⟨_, rfl⟩

theorem decodeEvex_refused {run bs : List Byte} {rex : Option Byte} (h : ¬FamilyTail (0x62#8 :: bs)) :
    ∃ r, decodeEvex run rex bs = .refused r := by
  unfold decodeEvex
  split
  next p0 p1 p2 op rest =>
    split
    next => exact ⟨_, rfl⟩
    next c hc =>
      split
      next hf =>
        split
        next he =>
          exact absurd (.inr (.inr ⟨p0, p1, p2, op, rest, rfl, Option.isSome_of_eq_some hc,
            (bits4 p0).mpr ⟨hf.1, he.1⟩, he.2, hf.2⟩)) h
        next => exact ⟨_, rfl⟩
      next => exact ⟨_, rfl⟩
  next => exact ⟨_, rfl⟩

/-- Rule R61, its last row: whatever stands before them, bytes that begin no form of the family are refused. -/
theorem decode_not_family {run : List Byte} {rex : Option Byte} {bs : List Byte}
    (hrun : ∀ b ∈ run, isLegacyPrefix b = true) (hrex : ∀ r, rex = some r → isRex r = true)
    (hbs : rex = none → StartsRest bs) (h : ¬FamilyTail bs) : ∃ r, decode (run ++ rex.toList ++ bs) = .refused r := by
  rw [decode_split run rex bs hrun hrex hbs]
  cases bs with
  | nil => exact ⟨_, rfl⟩
  | cons b rest =>
    dsimp only
    split
    next hb => subst hb; exact decodeLegacy_refused h
    next =>
      split
      next hb => subst hb; exact decodeVex_refused h
      next =>
        split
        next hb => subst hb; exact decodeEvex_refused h
        next => exact ⟨_, rfl⟩

/-- Settles O11: behind legacy prefixes or REX the verdict on a vector form is that of the prefixes alone. -/
theorem prefixesOfAVectorFormAndOtherBytes : Obligations.PrefixesOfAVectorFormAndOtherBytes := by
  intro run rex bs hrun hrex hbs
  refine ⟨fun hfam hhead => ⟨fun hud => ?ud, fun hne hother => ?refused⟩, decode_not_family hrun hrex hbs⟩
  case ud =>
    have hne : ¬(run = [] ∧ rex = none) := by
      rintro ⟨rfl, rfl⟩
      simp at hud
    rw [decode_prefixed_tail hrun hrex hbs hfam hhead hne]
    exact prefixed_ud run rex hud
  case refused =>
    rw [decode_prefixed_tail hrun hrex hbs hfam hhead fun h => hne h.1]
    exact prefixed_ref run rex hother

end Sys2Proof
end

section
/-! Rules R52 to R55: the effective address of a memory operand that was read, from the raw ModRM, SIB and displacement
bytes. -/

namespace Sys2Proof

open Machine

/-! ## Displacements and registers -/

theorem rawDisp8_of_readDisp8 {bs : List Byte} {p : BitVec 8 × List Byte} (h : readDisp8 bs = some p) (n : Nat) :
    rawDisp8 n bs = some (dispValue n (.disp8 p.1)) := by
  rw [readDisp8_eq h]
  rfl

theorem rawDisp32_of_readDisp32 {bs : List Byte} {p : BitVec 32 × List Byte} (h : readDisp32 bs = some p) :
    rawDisp32 bs = some (p.1.signExtend 64) := by
  obtain ⟨a, b, c, d, hbs, hp⟩ := readDisp32_eq h
  rw [hbs, hp]
  rfl

/-- The displacement read has the value of its raw bytes (rules R52, R55). -/
theorem rawDisp_of_readDisp {mod : BitVec 2} {bs : List Byte} {p : Disp × List Byte} (h : readDisp mod bs = some p)
    (hmod : mod ≠ 3#2) (n : Nat) : rawDisp n mod bs = some (dispValue n p.1) := by
  unfold readDisp at h
  split at h
  next h1 =>
    obtain ⟨q, hq, rfl⟩ := Option.map_eq_some_iff.mp h
    rw [rawDisp, if_neg (by rw [h1]; decide), if_pos h1, rawDisp8_of_readDisp8 hq]
  next h1 =>
    split at h
    next h2 =>
      obtain ⟨q, hq, rfl⟩ := Option.map_eq_some_iff.mp h
      rw [rawDisp, if_neg (by rw [h2]; decide), if_neg h1, rawDisp32_of_readDisp32 hq]
      rfl
    next h2 =>
      cases h
      rw [rawDisp, if_pos (mod_cases mod h1 h2 hmod)]
      rfl

/-- The register with the assembled number (rule R54). -/
theorem rawReg_eq_greg (s : State) (h : Bool) (lo : BitVec 3) : s.rawReg h lo = s.greg (gregOf h lo) := by
  have hlt : 8 * h.toNat + lo.toNat < s.x.toList.length := by
    rw [Vector.length_toList, ← gregOf_val]
    exact (gregOf h lo).isLt
  simp only [State.rawReg, State.greg, Fin.getElem_fin, gregOf_val, List.getD_eq_getElem _ _ hlt, Vector.getElem_toList]

theorem scaleFactor_scaleOf : ∀ ss : BitVec 2, scaleFactor (scaleOf ss) = BitVec.ofNat 64 (2 ^ ss.toNat) := by decide

theorem gregOf_eq_four_iff : ∀ (x : Bool) (lo : BitVec 3), gregOf x lo = 4 ↔ x = false ∧ lo = 4#3 := by decide

/-- `index * scale` of the index register a SIB byte names (rule R53). -/
theorem rawIndex_eq_indexValue (s : State) (x : Bool) (sib : Byte) : s.rawIndex x sib = s.indexValue (sibIndex x sib) := by
  rw [State.rawIndex, sibIndex]
  simp only [gregOf_eq_four_iff]
  split
  next => rfl
  next => rw [State.indexValue, rawReg_eq_greg, scaleFactor_scaleOf]

/-! ## Memory operands -/

/-- The address of the operand a SIB byte names (rule R53). -/
theorem rawAddress_of_readSib {mod : BitVec 2} {e : Ext} {sib : Byte} {bs : List Byte} {p : MemOp × List Byte}
    (h : readSib mod e sib bs = some p) (hmod : mod ≠ 3#2) (s : State) (n : Nat) (next : Addr) :
    s.rawAddress n next mod 4#3 e.x e.b (sib :: bs) = some (s.effectiveAddress n next p.1) := by
  rw [State.rawAddress, if_pos rfl]
  unfold readSib at h
  split at h <;> obtain ⟨q, hq, rfl⟩ := Option.map_eq_some_iff.mp h
  next hbase =>
    simp only [if_pos hbase, rawDisp32_of_readDisp32 hq, rawIndex_eq_indexValue, Option.map_some, State.effectiveAddress]
  next hbase =>
    simp only [if_neg hbase, rawDisp_of_readDisp hq hmod, rawIndex_eq_indexValue, rawReg_eq_greg, Option.map_some,
      State.effectiveAddress]

/-- The address of the operand `mod` and `rm` name (rule R52). -/
theorem rawAddress_of_readMem {mod : BitVec 2} {rm : BitVec 3} {e : Ext} {bs : List Byte} {p : MemOp × List Byte}
    (h : readMem mod rm e bs = some p) (hmod : mod ≠ 3#2) (s : State) (n : Nat) (next : Addr) :
    s.rawAddress n next mod rm e.x e.b bs = some (s.effectiveAddress n next p.1) := by
  unfold readMem at h
  split at h
  next hsib =>
    subst hsib
    cases bs with
    | nil => cases h
    | cons sib rest => exact rawAddress_of_readSib h hmod s n next
  next hsib =>
    unfold State.rawAddress
    rw [if_neg hsib]
    split at h <;> obtain ⟨q, hq, rfl⟩ := Option.map_eq_some_iff.mp h
    next hrip => simp only [if_pos hrip, rawDisp32_of_readDisp32 hq, Option.map_some, State.effectiveAddress]
    next hrip =>
      simp only [if_neg hrip, rawDisp_of_readDisp hq hmod, rawReg_eq_greg, Option.map_some, State.effectiveAddress]

/-- Settles O13: the operand read came from `readMem`, each of whose cases has its address formula. -/
theorem effectiveAddressFollowsTheBytes : Obligations.EffectiveAddressFollowsTheBytes := by
  intro s n next e modrm bs rest d op h
  obtain ⟨-, ⟨-, hreg⟩ | ⟨hmod, op, ⟨⟩, hmem⟩⟩ := readOperands_cons h
  · cases hreg
  · exact rawAddress_of_readMem hmem hmod s n next

end Sys2Proof
end

section
/-! Rules R26, R29, R62 and R139: what one step does. The verdict at `pc` decides it; an instruction changes the fault
record alone, or its destination and `pc` alone. -/

namespace Sys2Proof

open Machine

/-! ## The frame (rule R26) -/

/-- Settles O21: the two ways of raising an exception change the record alone; completing has the frame of `complete`. -/
theorem execChangesDestinationAndPcOnly : Obligations.ExecChangesDestinationAndPcOnly := by
  intro i s t h
  obtain ⟨-, rfl⟩ | ⟨e, -, -, rfl⟩ | ⟨val, -, -, rfl⟩ := exec_cases h
  · exact .inl ⟨.ud, rfl⟩
  · exact .inl ⟨e, rfl⟩
  · exact .inr ⟨complete_sameBut .., rfl, rfl⟩

/-! ## The verdict at `pc` (rules R44, R62) -/

theorem pcInText_iff (s : State) :
    s.pcInText = true ↔ s.cfg.base.toNat ≤ s.pc.toNat ∧ s.pc.toNat < s.textEnd := by
  simp [State.pcInText]

/-- Inside the text the verdict is the decoder's. -/
theorem verdict_inText {s : State} (h : s.pcInText = true) : s.verdict = decode s.fetch := if_pos h

theorem verdict_outsideText {s : State} (h : ¬s.pcInText = true) : s.verdict = .refused .outsideText := if_neg h

/-- An instruction is decoded inside the text only. -/
theorem verdict_instr {s : State} {i : Instr} {rest : List Byte} (h : s.verdict = .instr i rest) :
    s.pcInText = true ∧ decode s.fetch = .instr i rest := by
  by_cases hin : s.pcInText = true
  · exact ⟨hin, (verdict_inText hin).symm.trans h⟩
  · rw [verdict_outsideText hin] at h
    cases h

/-- With no fault recorded and before END, the instruction of the verdict is executed. -/
theorem step_of_verdict_instr {s : State} {i : Instr} {rest : List Byte} (hf : s.fault = none)
    (hend : s.pc.toNat ≠ s.textEnd) (h : s.verdict = .instr i rest) : step s = exec i s := by
  simp only [step, hf, if_neg hend, h]

theorem step_of_verdict_refused {s : State} {r : RefuseReason} (hf : s.fault = none) (hend : s.pc.toNat ≠ s.textEnd)
    (h : s.verdict = .refused r) : step s = .refused (.undecoded r) := by
  simp only [step, hf, if_neg hend, h]

/-- Settles O16: inside the text the decoder's answer is the verdict, and the step runs it. -/
theorem stepRunsTheDecodedInstruction : Obligations.StepRunsTheDecodedInstruction := by
  intro s i rest hf hin hdec
  have hend : s.pc.toNat ≠ s.textEnd := Nat.ne_of_lt ((pcInText_iff s).mp hin).2
  exact step_of_verdict_instr hf hend ((verdict_inText hin).trans hdec)

/-- Settles O17: the bytes fetched are the text from `pc - BASE` on, in which memory has no part. -/
theorem fetchReadsTheTextAndNotMemory : Obligations.FetchReadsTheTextAndNotMemory := by
  refine ⟨fun s n hin => ?_, fun s m => rfl⟩
  have hbase := ((pcInText_iff s).mp hin).1
  rw [State.fetch, List.getElem?_drop, Nat.sub_add_comm hbase]

/-- Settles O18: each verdict that is not an instruction has its own branch of the step. -/
theorem verdictsOtherThanAnInstruction : Obligations.VerdictsOtherThanAnInstruction := by
  intro s hf hend
  refine ⟨fun hout => ?outside, fun r hin hdec => ?refused, fun hin hdec => step_raises_ud hf hin hdec⟩
  case outside =>
    have hnot : ¬s.pcInText = true := by
      rw [pcInText_iff]
      omega
    exact step_of_verdict_refused hf hend (verdict_outsideText hnot)
  case refused => exact step_of_verdict_refused hf hend ((verdict_inText hin).trans hdec)

/-- Settles O19: a step needs an empty fault record and a `pc` other than END. -/
theorem noStepAfterAFaultOrTheEnd : Obligations.NoStepAfterAFaultOrTheEnd := by
  refine ⟨fun s r hr => not_steps_of_fault (by simp [hr]), fun s hended => ?_⟩
  rintro ⟨t, ht⟩
  obtain ⟨-, hend, -⟩ := step_cases ht
  exact hend hended.2

end Sys2Proof
end

section
/-! Rules R20, R41, R63, R130 and R139: the invariant of every step, and what follows for runs. A completed instruction lies
inside the text, so `pc` advances by its length, at least 5, and stays at or below END. -/

namespace Sys2Proof

open Machine

/-! ## One step from the invariant -/

/-- The instruction at `pc` ends inside the text (rule R62, step 2). -/
theorem verdict_instr_fits {s : State} {i : Instr} {rest : List Byte} (h : s.verdict = .instr i rest) :
    s.pc.toNat + i.length ≤ s.textEnd := by
  obtain ⟨hin, hdec⟩ := verdict_instr h
  obtain ⟨-, used, hfetch, hlen⟩ := decodedInstructionIsWellFormed _ _ _ hdec
  have hbytes : i.length + rest.length = s.cfg.text.length - (s.pc.toNat - s.cfg.base.toNat) := by
    rw [← hlen, ← List.length_append, ← hfetch, State.fetch, List.length_drop]
  obtain ⟨hlow, hhigh⟩ := (pcInText_iff s).mp hin
  unfold State.textEnd at hhigh ⊢
  omega

/-- What a step from the invariant does to `pc` and the fault record: an exception is recorded at a `pc` that stays, or an
instruction of at least 5 bytes completes and `pc` passes over it, not beyond END. -/
theorem step_pc_and_fault {s t : State} (hinv : s.Inv) (h : step s = .next t) :
    (∃ e, t = s.raise e) ∨
      (t.fault = none ∧ s.pc.toNat + 5 ≤ t.pc.toNat ∧ t.pc.toNat ≤ s.textEnd ∧ t.mem = s.mem ∧ t.cfg = s.cfg) := by
  obtain ⟨hfault, -, ⟨i, rest, hverdict, hexec⟩ | ⟨-, hud⟩⟩ := step_cases h
  case inr => exact .inl ⟨.ud, hud⟩
  obtain ⟨-, ht⟩ | ⟨e, -, -, ht⟩ | ⟨val, -, -, rfl⟩ := exec_cases hexec
  · exact .inl ⟨.ud, ht⟩
  · exact .inl ⟨e, ht⟩
  · have hfits := verdict_instr_fits hverdict
    have htext := hinv.textFits
    obtain ⟨-, -, hlen, -⟩ := encodedLengthIsTheSumOfItsParts.1 i
    have hpc : (s.pc + BitVec.ofNat 64 i.length).toNat = s.pc.toNat + i.length := by
      rw [BitVec.toNat_add, BitVec.toNat_ofNat]
      omega
    refine .inr ⟨hfault, ?_, ?_, rfl, rfl⟩ <;> rw [complete_pc, hpc] <;> omega

/-- Settles O42: raising an exception keeps all but the record, which names `pc`; completing moves `pc` inside the text. -/
theorem stepKeepsTheInvariant : Obligations.StepKeepsTheInvariant := by
  intro s t hinv h
  obtain ⟨e, rfl⟩ | ⟨hfault, hlow, hhigh, hmem, hcfg⟩ := step_pc_and_fault hinv h
  · refine ⟨hinv.mem, hinv.textFits, hinv.pcLow, hinv.pcHigh, fun r hr => ?_⟩
    rw [raise_fault] at hr
    cases hr
    rfl
  · have hend : t.textEnd = s.textEnd := by rw [State.textEnd, hcfg, State.textEnd]
    refine ⟨hmem ▸ hinv.mem, hend ▸ hinv.textFits, ?_, hend ▸ hhigh, fun r hr => by rw [hfault] at hr; cases hr⟩
    have := hinv.pcLow
    rw [hcfg]
    omega

/-! ## Reset (notes/assumptions/1.md) -/

/-- Settles O43: the reset state lists no memory, has an empty text at `pc = BASE = 0`, and no fault record. -/
theorem invariantHoldsAtReset : Obligations.InvariantHoldsAtReset :=
  ⟨rfl, by decide, by decide, by decide, nofun⟩

/-- Settles O46: every register of the reset state is an entry of a constant vector. -/
theorem resetIsAnEmptyStartState : Obligations.ResetIsAnEmptyStartState := by
  refine ⟨⟨rfl, by decide, by decide⟩, ⟨rfl, rfl⟩, fun r => ?_, fun r => ?_, fun r => ?_, rfl, fun a => rfl, rfl, rfl⟩
  · exact Vector.getElem_replicate r.isLt
  · exact Vector.getElem_replicate r.isLt
  · exact Vector.getElem_replicate r.isLt

/-! ## Runs -/

/-- With fewer than `5 * n` bytes of the text ahead no run takes `n + 1` steps. -/
theorem run_stops {n : Nat} {s : State} (hinv : s.Inv) (hroom : s.textEnd - s.pc.toNat < 5 * n) (t : State) :
    Sys2Proof.core.run (n + 1) s ≠ .next t := by
  induction n generalizing s with
  | zero => omega
  | succ n ih =>
    intro hrun
    obtain ⟨u, hstep, hrun⟩ := run_next hrun
    obtain ⟨e, rfl⟩ | ⟨-, hlow, hhigh, -, hcfg⟩ := step_pc_and_fault hinv hstep
    · obtain ⟨v, hstep', -⟩ := run_next hrun
      exact not_steps_of_fault (by simp) ⟨v, hstep'⟩
    · have hend : u.textEnd = s.textEnd := by rw [State.textEnd, hcfg, State.textEnd]
      exact ih (stepKeepsTheInvariant _ _ hinv hstep) (by omega) hrun

/-- Settles O44: the bound counts the instructions of 5 bytes that fit, one exception and the stop. -/
theorem everyRunStops : Obligations.EveryRunStops := by
  rintro s hinv ⟨t, hrun⟩
  exact run_stops hinv (by omega) t hrun

/-- A step changes no memory, no mask, no general register and no parameter (rules R18, R19, R41). -/
theorem step_keeps {s t : State} (h : step s = .next t) : t.mem = s.mem ∧ t.k = s.k ∧ t.x = s.x ∧ t.cfg = s.cfg := by
  obtain ⟨-, -, ⟨i, rest, -, hexec⟩ | ⟨-, rfl⟩⟩ := step_cases h
  · obtain ⟨-, rfl⟩ | ⟨e, -, -, rfl⟩ | ⟨val, -, -, rfl⟩ := exec_cases hexec <;> exact ⟨rfl, rfl, rfl, rfl⟩
  · exact ⟨rfl, rfl, rfl, rfl⟩

/-- Rule R41, along a run. -/
theorem run_keeps {n : Nat} {s t : State} (h : Sys2Proof.core.run n s = .next t) :
    t.mem = s.mem ∧ t.k = s.k ∧ t.x = s.x ∧ t.cfg = s.cfg := by
  induction n generalizing s with
  | zero => cases h; exact ⟨rfl, rfl, rfl, rfl⟩
  | succ n ih =>
    obtain ⟨u, hstep, hrun⟩ := run_next h
    obtain ⟨hmem, hk, hx, hcfg⟩ := step_keeps hstep
    obtain ⟨hmem', hk', hx', hcfg'⟩ := ih hrun
    exact ⟨hmem'.trans hmem, hk'.trans hk, hx'.trans hx, hcfg'.trans hcfg⟩

/-- Settles O45: the four fields stay as they are, so every read of them does. -/
theorem aRunChangesNoMemory : Obligations.ARunChangesNoMemory := by
  intro n s t h
  obtain ⟨hmem, hk, hx, hcfg⟩ := run_keeps h
  exact ⟨fun a => by rw [hmem], fun r => by rw [State.kreg, hk, State.kreg],
    fun r => by rw [State.greg, hx, State.greg], hcfg⟩

end Sys2Proof
end

section
/-! Rules R40 and R126: the canonical check, and the order of the memory faults. -/

namespace Sys2Proof

open Machine

/-! ## Canonical addresses (rule R40) -/

/-- Bits 63:47 as a number. -/
theorem upperBits_toNat (a : Addr) : (a.extractLsb' 47 17).toNat = a.toNat / 2 ^ 47 := by
  have := a.isLt
  rw [BitVec.extractLsb'_toNat, Nat.shiftRight_eq_div_pow]
  omega

theorem upperBits_eq_zero_iff (a : Addr) : a.extractLsb' 47 17 = 0#17 ↔ a.toNat < 2 ^ 47 := by
  rw [← BitVec.toNat_inj, upperBits_toNat, BitVec.toNat_ofNat]
  omega

theorem upperBits_eq_allOnes_iff (a : Addr) : a.extractLsb' 47 17 = BitVec.allOnes 17 ↔ 2 ^ 64 - 2 ^ 47 ≤ a.toNat := by
  have := a.isLt
  rw [← BitVec.toNat_inj, upperBits_toNat, BitVec.toNat_allOnes]
  omega

theorem canonical_iff (a : Addr) :
    canonical a = true ↔ a.extractLsb' 47 17 = 0#17 ∨ a.extractLsb' 47 17 = BitVec.allOnes 17 := by
  simp only [canonical, Bool.or_eq_true, beq_iff_eq]

/-- A value whose bits are all equal is 0 or all ones, and only such a value. -/
theorem eq_zero_or_allOnes_iff {w : Nat} (x : BitVec w) :
    (x = 0#w ∨ x = BitVec.allOnes w) ↔ ∀ i j, i < w → j < w → x.getLsbD i = x.getLsbD j := by
  constructor
  · rintro (rfl | rfl) i j hi hj
    · simp
    · simp [hi, hj]
  · intro h
    by_cases hset : ∃ i, i < w ∧ x.getLsbD i = true
    · obtain ⟨i, hi, hx⟩ := hset
      right
      exact BitVec.eq_of_getLsbD_eq fun j hj => by rw [h j i hj hi, hx, BitVec.getLsbD_allOnes, decide_eq_true hj]
    · left
      refine BitVec.eq_of_getLsbD_eq fun j hj => ?_
      rw [BitVec.getLsbD_zero, ← Bool.not_eq_true]
      exact fun hx => hset ⟨j, hj, hx⟩

/-- Settles O26: bits 63:47 are a 17-bit value that is 0 or all ones, in bits and as a number. -/
theorem canonicalMeansBits63To47AreEqual : Obligations.CanonicalMeansBits63To47AreEqual := by
  refine fun a => ⟨?_, by rw [canonical_iff, upperBits_eq_zero_iff, upperBits_eq_allOnes_iff]⟩
  rw [canonical_iff, eq_zero_or_allOnes_iff]
  simp only [BitVec.getLsbD_extractLsb']
  constructor
  · intro h i j hi hi' hj hj'
    have := h (i - 47) (j - 47) (by omega) (by omega)
    simpa [show i - 47 < 17 by omega, show j - 47 < 17 by omega, Nat.add_sub_cancel' hi, Nat.add_sub_cancel' hj] using this
  · intro h i j hi hj
    simp only [hi, hj, decide_true, Bool.true_and]
    exact h (47 + i) (47 + j) (by omega) (by omega) (by omega) (by omega)

/-! ## The memory fault of an operand (rule R126) -/

/-- Settles O25: the base register is a field of two of the four address recipes. -/
theorem stackFaultNeedsBaseRspOrRbp : Obligations.StackFaultNeedsBaseRspOrRbp := by
  intro op
  cases op with
  | ripRel d => simp [stackBase]
  | base b d => simp [stackBase, exists_or]
  | sib b i d => simp [stackBase, exists_or]
  | sibNoBase i d => simp [stackBase]

/-- The first kind of fault: the operand passes 2^64 or a checked byte is not canonical. -/
theorem memoryFault_of_range {s : State} {ea : Addr} {nb : Nat} {offs : List Nat} (onStack : Bool) (hne : offs ≠ [])
    (h : 2 ^ 64 < ea.toNat + nb ∨ ∃ j ∈ offs, canonical (ea + BitVec.ofNat 64 j) = false) :
    s.memoryFault onStack ea nb offs = some (if onStack then .ss else .gp) := by
  rw [State.memoryFault, if_neg (by simpa using hne), if_pos (by simpa using h)]

/-- In a rising list the search finds the least element that satisfies the predicate. -/
theorem find?_eq_some_of_least {p : Nat → Bool} {l : List Nat} {j : Nat} (hsorted : l.Pairwise (· < ·)) (hj : j ∈ l)
    (hp : p j = true) (hleast : ∀ j' ∈ l, j' < j → p j' = false) : l.find? p = some j := by
  obtain ⟨as, bs, rfl⟩ := List.append_of_mem hj
  obtain ⟨-, -, hlt⟩ := List.pairwise_append.mp hsorted
  refine List.find?_eq_some_iff_append.mpr ⟨hp, as, bs, rfl, fun a ha => ?_⟩
  rw [hleast a (List.mem_append_left _ ha) (hlt a ha j (List.mem_cons_self ..))]
  rfl

/-- The second kind of fault: the lowest checked byte that is not accessible. -/
theorem memoryFault_of_inaccessible {s : State} {ea : Addr} {nb j : Nat} {offs : List Nat} (onStack : Bool)
    (hsorted : offs.Pairwise (· < ·)) (hfit : ea.toNat + nb ≤ 2 ^ 64)
    (hcan : ∀ j ∈ offs, canonical (ea + BitVec.ofNat 64 j) = true) (hj : j ∈ offs)
    (hacc : s.accessible (ea + BitVec.ofNat 64 j) = false)
    (hleast : ∀ j' ∈ offs, j' < j → s.accessible (ea + BitVec.ofNat 64 j') = true) :
    s.memoryFault onStack ea nb offs = some (.pf (ea + BitVec.ofNat 64 j)) := by
  have hfind : offs.find? (fun i => !s.accessible (ea + BitVec.ofNat 64 i)) = some j :=
    find?_eq_some_of_least hsorted hj (by simp [hacc]) fun j' hj' hlt => by simp [hleast j' hj' hlt]
  rw [State.memoryFault, if_neg (by simpa using List.ne_nil_of_mem hj), if_neg (by simpa using ⟨hfit, hcan⟩), hfind]

/-- The operand of a register source is the register. -/
theorem operand_reg {i : Instr} {r : VReg} (h : i.shape.src = .reg r) (s : State) : s.operand i = .ok (s.vreg r) := by
  rw [State.operand, h]
  rfl

/-- The fault of the address check is the fault of the operand. -/
theorem operand_error {i : Instr} {s : State} {op : MemOp} {e : Exception} (h : i.shape.src = .mem op)
    (hf : s.memoryFault (stackBase op) (s.effectiveAddress i.shape.dispScale (s.pc + BitVec.ofNat 64 i.length) op)
      (sourceBytes i.shape.conv i.shape.vlen) (s.checkedOffsets i.shape.conv i.shape.vlen i.shape.masking) = some e) :
    s.operand i = .error e := by
  rw [operand_mem h, hf]

/-- Settles O24: each clause decides the address check of the operand, and with it what `exec` does. -/
theorem memoryFaultsInTheirOrder : Obligations.MemoryFaultsInTheirOrder := by
  refine ⟨?mem, fun i s r hreg hen => ⟨_, exec_completes hen (operand_reg hreg s), rfl⟩⟩
  rintro i s op ea nb hmem hen rfl rfl
  simp only [← mem_checkedOffsets]
  refine ⟨?range, ?inaccessible, ?readable⟩
  case range =>
    rintro ⟨j, hj⟩ h
    exact exec_faults hen (operand_error hmem (memoryFault_of_range _ (List.ne_nil_of_mem hj) h))
  case inaccessible =>
    intro hfit hcan j hj hacc hleast
    have hfault := memoryFault_of_inaccessible (stackBase op) (checkedOffsets_sorted ..) hfit hcan hj hacc
      fun j' hj' hlt => hleast j' hlt hj'
    exact exec_faults hen (operand_error hmem hfault)
  case readable =>
    intro hok
    have hnone := (memoryFault_eq_none s (stackBase op) _ _ _).mpr hok
    exact ⟨_, exec_completes hen (by rw [operand_mem hmem, hnone]), rfl⟩

end Sys2Proof
end

section
/-! Rules R34, R72 and R73: the operand sizes, the chain of helper calls, and zero extension as numbers. A chain is blocks
of 128 bits side by side, each one helper call; its elements are those of ZX, and elements determine a value. -/

namespace Sys2Proof

open Machine

/-- Settles O15: the table of rule R34, by conversion and length. -/
theorem operandSizesAreTheTable : Obligations.OperandSizesAreTheTable := by
  refine ⟨?bytes, ?wider, by decide, by decide, by decide, by decide, by decide, by decide⟩
  case bytes => intro vl; cases vl <;> decide
  case wider => intro vl; cases vl <;> decide

/-- Settles O34: widening a source element to `dstw >= srcw` bits keeps its number. -/
theorem zeroExtensionIsExact : Obligations.ZeroExtensionIsExact := by
  intro c vl src j hj
  have hw : c.srcw ≤ c.dstw := by cases c <;> decide
  have hnum : (elem c.dstw (zx c vl src) j).toNat = (elem c.srcw src j).toNat := by
    rw [elem_zx c vl src hj, BitVec.toNat_setWidth_of_le hw]
  exact ⟨hnum, hnum ▸ (elem c.srcw src j).isLt⟩

/-! ## Elements determine a value -/

/-- A value with the elements `f 0` to `f (n-1)` and no bit above them is their packing. -/
theorem eq_pack_of_elem {w n : Nat} {f : Nat → BitVec w} {x : Vec} (hw : 0 < w) (helem : ∀ j, j < n → elem w x j = f j)
    (hupper : ∀ i, n * w ≤ i → x.getLsbD i = false) : x = pack w f n := by
  refine BitVec.eq_of_getLsbD_eq fun i hi => ?_
  rw [pack_getLsbD, decide_eq_true hi, Bool.true_and]
  by_cases hlt : i < n * w
  · have hpos : i / w * w + i % w = i := by rw [Nat.mul_comm]; exact Nat.div_add_mod i w
    rw [← helem (i / w) ((Nat.div_lt_iff_lt_mul hw).mpr hlt), elem_getLsbD, hpos, decide_eq_true hlt,
      decide_eq_true (Nat.mod_lt i hw)]
    rfl
  · rw [hupper i (Nat.le_of_not_lt hlt), decide_eq_false hlt, Bool.false_and]

/-! ## One helper call -/

/-- A field of a field, counted from the whole value. -/
theorem extractLsb'_extractLsb'_add {n start len off len' : Nat} (x : BitVec n) (h : start + len ≤ len') :
    (x.extractLsb' off len').extractLsb' start len = x.extractLsb' (off + start) len := by
  refine BitVec.eq_of_getLsbD_eq fun i hi => ?_
  simp only [BitVec.getLsbD_extractLsb', hi, show start + i < len' by omega, decide_true, Bool.true_and, Nat.add_assoc]

/-- Element `j` of `n` elements of width `w` ends at or below bit `n * w`. -/
theorem element_end_le {n j : Nat} (w : Nat) (hj : j < n) : w * j + w ≤ n * w := by
  calc w * j + w = (j + 1) * w := by ring
    _ ≤ n * w := Nat.mul_le_mul_right w hj

/-- A helper call consumes the source bits of the elements it makes (rule R72). -/
theorem helperBits_eq (c : Conversion) : helperBits c = elements c .v128 * c.srcw := by cases c <;> rfl

/-- Field `j` of a helper call on the source bits from `lo` upward (rules R66 to R71). -/
theorem helper_field (c : Conversion) (src : Vec) (lo : Nat) {j : Nat} (hj : j < elements c .v128) :
    (helper c src lo).extractLsb' (c.dstw * j) c.dstw = (src.extractLsb' (lo + c.srcw * j) c.srcw).setWidth c.dstw := by
  have hfit : c.srcw * j + c.srcw ≤ helperBits c := helperBits_eq c ▸ element_end_le c.srcw hj
  obtain ⟨hbw, hbd, hbq, hwd, hwq, hdq⟩ := helpersZeroExtendEachField
  rw [← extractLsb'_extractLsb'_add src hfit]
  cases c with
  | bw => exact hbw _ j hj
  | bd => exact hbd _ j hj
  | bq => exact hbq _ j hj
  | wd => exact hwd _ j hj
  | wq => exact hwq _ j hj
  | dq => exact hdq _ j hj

/-! ## The chain -/

/-- The number of helper calls of a chain, less one. -/
def callsBelowTop : VLen → Nat
  | .v128 => 0
  | .v256 => 1
  | .v512 => 3

/-- The helper calls of a chain on consecutive source bits, side by side. -/
def joinedCalls (c : Conversion) (vl : VLen) (src : Vec) : BitVec (joinedWidth 128 (callsBelowTop vl)) :=
  joinFields (fun k => helper c src (k * helperBits c)) (callsBelowTop vl)

theorem helperChain_eq_joinedCalls (c : Conversion) (vl : VLen) (src : Vec) :
    helperChain c vl src = (joinedCalls c vl src).setWidth 512 := by
  have h0 : 0 * helperBits c = 0 := Nat.zero_mul _
  have h1 : (0 + 1) * helperBits c = helperBits c := Nat.one_mul _
  cases vl with
  | v128 => simp only [helperChain, joinedCalls, callsBelowTop, joinFields, h0]; rfl
  | v256 => simp only [helperChain, joinedCalls, callsBelowTop, joinFields, h0, h1]; rfl
  | v512 =>
    simp only [helperChain, joinedCalls, callsBelowTop, joinFields, h0, h1]
    exact (BitVec.setWidth_eq _).symm

/-- The calls fill the vector length (rule R72). -/
theorem joinedWidth_calls (vl : VLen) : joinedWidth 128 (callsBelowTop vl) = vl.bits := by cases vl <;> rfl

theorem elements_eq_calls (c : Conversion) (vl : VLen) : elements c vl = (callsBelowTop vl + 1) * elements c .v128 := by
  cases c <;> cases vl <;> rfl

/-- Element `j` of a chain is element `r` of a call `k`. -/
theorem element_of_call {c : Conversion} {vl : VLen} {j : Nat} (hj : j < elements c vl) :
    ∃ k r, k ≤ callsBelowTop vl ∧ r < elements c .v128 ∧ j = k * elements c .v128 + r := by
  have hq : 0 < elements c .v128 := by cases c <;> decide
  rw [elements_eq_calls] at hj
  exact ⟨j / elements c .v128, j % elements c .v128, Nat.le_of_lt_succ ((Nat.div_lt_iff_lt_mul hq).mpr hj),
    Nat.mod_lt j hq, by rw [Nat.mul_comm, Nat.div_add_mod]⟩

theorem elem_helperChain (c : Conversion) (vl : VLen) (src : Vec) {j : Nat} (hj : j < elements c vl) :
    elem c.dstw (helperChain c vl src) j = (elem c.srcw src j).setWidth c.dstw := by
  have hfit : j * c.dstw + c.dstw ≤ 512 := by
    rw [Nat.mul_comm]
    exact (element_end_le c.dstw hj).trans (elements_fit c vl)
  obtain ⟨k, r, hk, hr, hjkr⟩ := element_of_call hj
  have hcall : c.dstw * r + c.dstw ≤ 128 := (element_end_le c.dstw hr).trans_eq (elements_dstw c .v128)
  have hdst : j * c.dstw = 128 * k + c.dstw * r := by
    calc j * c.dstw = (elements c .v128 * c.dstw) * k + c.dstw * r := by rw [hjkr]; ring
      _ = 128 * k + c.dstw * r := by rw [elements_dstw, VLen.bits]
  have hsrc : j * c.srcw = k * helperBits c + c.srcw * r := by rw [hjkr, helperBits_eq]; ring
  calc elem c.dstw (helperChain c vl src) j
      = (joinedCalls c vl src).extractLsb' (j * c.dstw) c.dstw := by
        rw [helperChain_eq_joinedCalls, elem, BitVec.extractLsb'_setWidth_of_le hfit]
    _ = (helper c src (k * helperBits c)).extractLsb' (c.dstw * r) c.dstw := by
        rw [hdst, ← extractLsb'_extractLsb'_add _ hcall, joinedCalls, joinFields_extractLsb' _ hk]
    _ = (elem c.srcw src j).setWidth c.dstw := by rw [helper_field c src _ hr, elem, hsrc]

/-- Rule R72: the chain of helper calls is ZX. -/
theorem helperChain_eq_zx (c : Conversion) (vl : VLen) (src : Vec) : helperChain c vl src = zx c vl src := by
  refine eq_pack_of_elem (dstw_pos c) (fun j hj => elem_helperChain c vl src hj) fun i hi => ?_
  rw [elements_dstw] at hi
  rw [helperChain_eq_joinedCalls, BitVec.getLsbD_setWidth,
    BitVec.getLsbD_of_ge _ _ ((joinedWidth_calls vl).trans_le hi), Bool.and_false]

/-- Settles O33: the chain at 128 bits is the single helper. -/
theorem helperChainIsZx : Obligations.HelperChainIsZx :=
  ⟨helperChain_eq_zx, fun c src => helperChain_eq_zx c .v128 src⟩

end Sys2Proof
end

section
/-! Rules R83 to R95: the legacy and the VEX.128 forms. -/

namespace Sys2Proof

open Machine

/-- Settles O29: each of the six forms is the VEX form of its conversion with L = 0. -/
theorem vex128FormsConvert : Obligations.Vex128FormsConvert :=
  ⟨vexRule_mkVex .bw false, vexRule_mkVex .bd false, vexRule_mkVex .bq false,
   vexRule_mkVex .wd false, vexRule_mkVex .wq false, vexRule_mkVex .dq false⟩

/-- Rule R89: a legacy form writes ZX of its operand below bit 128 and keeps the bits above. -/
theorem exec_mkLegacy {c : Conversion} {rex : Bool} {d : VReg} {src : Src} {s : State} {S : Vec}
    (hen : s.cfg.features.sse41 = true)
    (hS : s.SourceIs c.srcw (sourceBytes c .v128) .none 1 (legacyLength rex src) src S) :
    exec (mkLegacy c rex d src) s =
      .next (s.complete d (legacyMerge (s.vreg d) (zx c .v128 S)) (legacyLength rex src)) := by
  have hshape := mkLegacy_shape c rex d src
  have hlen := length_mkLegacy c rex d src
  have h := exec_completes_of_sourceIs (i := mkLegacy c rex d src) (s := s) (S := S)
    (by rw [hshape]; exact hen) (by rw [hshape, hlen]; exact hS)
  rwa [hshape, hlen] at h

/-- Rule R47: the bytes of a legacy form up to its ModRM byte. -/
theorem encode_mkLegacy (c : Conversion) (rex : Bool) (d : VReg) (src : Src) :
    ∃ r modrm tail, isRex r = true ∧ encode (mkLegacy c rex d src) =
      0x66#8 :: ((if rex then [r] else []) ++ 0x0F#8 :: 0x38#8 :: opcodeOf c :: modrm :: tail) := by
  obtain ⟨hrex, -⟩ := rex_bits (numBit d.val 3) src.fields.x src.fields.b
  have hbytes : encode (mkLegacy c rex d src) = (Shape.legacy c rex d src).encode := congrArg _ (mkLegacy_shape c rex d src)
  exact ⟨_, _, _, hrex, hbytes⟩

/-- An element of a legacy result is the source element, zero-extended (rule R90 to R95). -/
theorem elem_legacyMerge_zx (c : Conversion) (old S : Vec) {j : Nat} (hj : j < elements c .v128) :
    elem c.dstw (legacyMerge old (zx c .v128 S)) j = (elem c.srcw S j).setWidth c.dstw := by
  have hlow : (j + 1) * c.dstw ≤ 128 := (Nat.mul_le_mul_right _ hj).trans_eq (elements_dstw c .v128)
  rw [elem_legacyMerge _ _ _ hlow, elem_zx c .v128 S hj]

/-- The bits a legacy form keeps (rule R89). -/
theorem legacyMerge_upper (old t : Vec) : (legacyMerge old t).extractLsb' 128 384 = old.extractLsb' 128 384 :=
  BitVec.extractLsb'_append_eq_left

/-- Rules R89 to R95: every legacy form does what its rule says, with the opcode, the widths and the counts of its
conversion. -/
theorem legacyRule_mkLegacy (c : Conversion) :
    LegacyRule (mkLegacy c) (opcodeOf c) c.srcw c.dstw (elements c .v128) (sourceBytes c .v128) := by
  refine ⟨encode_mkLegacy c, fun rex d src s S hen hS => ⟨_, exec_mkLegacy hen hS, ?_, ?_, rfl, rfl, complete_sameBut ..⟩⟩
  · intro j hj
    rw [complete_vreg_self]
    exact elem_legacyMerge_zx c (s.vreg d) S hj
  · rw [complete_vreg_self, legacyMerge_upper]

/-- Settles O28: each of the six forms is the legacy form of its conversion. -/
theorem legacyFormsConvert : Obligations.LegacyFormsConvert :=
  ⟨legacyRule_mkLegacy .bw, legacyRule_mkLegacy .bd, legacyRule_mkLegacy .bq,
   legacyRule_mkLegacy .wd, legacyRule_mkLegacy .wq, legacyRule_mkLegacy .dq⟩

end Sys2Proof
end

section
/-! Rules R18, R34, R38, R74, R104 and R140: what the result of a form depends on. The operand read and the result are
functions of the source elements, mask bits, bytes and parameters that the rules name; whatever agrees on those has the
same effect. -/

namespace Sys2Proof

open Machine

/-! ## Elements of the result -/

/-- A written element whose mask bit is 1 is the source element, zero-extended, in every form. -/
theorem elem_result {sh : Shape} {s : State} {j : Nat} (hj : j < elements sh.conv sh.vlen)
    (ha : s.maskBit sh.masking j = true) (old val : Vec) :
    elem sh.conv.dstw (sh.result s old val) j = (elem sh.conv.srcw val j).setWidth sh.conv.dstw := by
  cases sh with
  | legacy c rex d src => exact elem_legacyMerge_zx c old val hj
  | vex c wide d src =>
    simp only [Shape.result, vexMerge_zx]
    exact elem_zx c _ val hj
  | evex c vl m d src =>
    exact (elem_evexMerge c vl (s.maskBit m) (isZeroing m) old _ hj).trans ((if_pos ha).trans (elem_zx c vl val hj))

/-- Settles O36: the register is read before it is written. -/
theorem sourceAsDestinationReadsTheOldValue : Obligations.SourceAsDestinationReadsTheOldValue := by
  intro i s hsrc hen
  refine ⟨_, exec_completes hen (operand_reg hsrc s), fun j hj ha => ?_⟩
  rw [complete_vreg_self]
  exact elem_result hj ha _ _

/-! ## Source bits (rule R74) -/

/-- Elements below KL lie in the low `NSRC` bits. -/
theorem elem_eq_of_low_bits {c : Conversion} {vl : VLen} {x y : Vec}
    (h : ∀ b, b < 8 * sourceBytes c vl → x.getLsbD b = y.getLsbD b) {j : Nat} (hj : j < elements c vl) :
    elem c.srcw x j = elem c.srcw y j := by
  have hbits : 8 * sourceBytes c vl = elements c vl * c.srcw := by
    rw [sourceBytes_eq, Nat.mul_left_comm, ← srcw_bytes]
  have hend := element_end_le c.srcw hj
  refine BitVec.eq_of_getLsbD_eq fun b hb => ?_
  rw [elem_getLsbD, elem_getLsbD, h _ (by rw [hbits, Nat.mul_comm j]; omega)]

/-- Settles O38: with its feature the form completes in both states, and its elements come from equal source elements. -/
theorem sourceBitsAboveNsrcAreIgnored : Obligations.SourceBitsAboveNsrcAreIgnored := by
  intro i s t t' r val hsrc hlow ht ht'
  cases hen : i.shape.requires s.cfg.features with
  | false =>
    obtain rfl : s.raise .ud = t := by simpa [exec_disabled hen] using ht
    obtain rfl : (s.setVreg r val).raise .ud = t' := by
      simpa [exec_disabled (s := s.setVreg r val) hen] using ht'
    exact ⟨rfl, rfl, nofun⟩
  | true =>
    rw [exec_completes hen (operand_reg hsrc s)] at ht
    rw [exec_completes (s := s.setVreg r val) hen (operand_reg hsrc _), setVreg_vreg_self] at ht'
    cases ht
    cases ht'
    refine ⟨by rw [complete_pc, complete_pc, setVreg_pc], by rw [complete_fault, complete_fault, setVreg_fault],
      fun _ j hj ha => ?_⟩
    rw [complete_vreg_self, complete_vreg_self, elem_result hj ha, elem_result (s := s.setVreg r val) hj ha,
      elem_eq_of_low_bits hlow hj]

/-! ## Two forms on one operand (rule R104) -/

/-- The length of an instruction has no part in what it writes. -/
theorem complete_vreg_length_irrel (s : State) (d r : VReg) (val : Vec) (n n' : Nat) :
    (s.complete d val n).vreg r = (s.complete d val n').vreg r := rfl

/-- Two enabled forms with one destination, operands that read alike and one result write the same registers and record
the same fault. -/
theorem exec_same_effect {i j : Instr} {s : State} (hi : i.shape.requires s.cfg.features = true)
    (hj : j.shape.requires s.cfg.features = true) (hd : j.shape.dest = i.shape.dest) (hop : s.operand j = s.operand i)
    (hres : ∀ old val, j.shape.result s old val = i.shape.result s old val) :
    ∃ t t', exec i s = .next t ∧ exec j s = .next t' ∧ (∀ r, t.vreg r = t'.vreg r) ∧ t.fault = t'.fault := by
  cases hval : s.operand i with
  | error e => exact ⟨_, _, exec_faults hi hval, exec_faults hj (hop.trans hval), fun r => rfl, rfl⟩
  | ok val =>
    refine ⟨_, _, exec_completes hi hval, exec_completes hj (hop.trans hval), fun r => ?_,
      by rw [complete_fault, complete_fault]⟩
    rw [hres, hd]
    exact complete_vreg_length_irrel ..

/-- Settles O35: without a writemask an EVEX form checks and reads the bytes the VEX form does, and both write ZX. -/
theorem unmaskedEvexWritesWhatVexWrites : Obligations.UnmaskedEvexWritesWhatVexWrites := by
  intro i j c wide d src src' s hi hj hieq hjeq hsrc
  refine exec_same_effect hieq hjeq (by rw [hi, hj]; rfl) ?operand fun old val => ?result
  case operand =>
    obtain ⟨r, rfl, rfl⟩ | ⟨op, op', rfl, rfl, hstack, hea⟩ := hsrc
    · have hisrc : i.shape.src = .reg r := by rw [hi]; rfl
      have hjsrc : j.shape.src = .reg r := by rw [hj]; rfl
      rw [operand_reg hisrc, operand_reg hjsrc]
    · have hisrc : i.shape.src = .mem op := by rw [hi]; rfl
      have hjsrc : j.shape.src = .mem op' := by rw [hj]; rfl
      rw [operand_mem hisrc, operand_mem hjsrc, ← hea, ← hstack, hi, hj]
      rfl
  case result =>
    rw [hi, hj]
    exact (evexMerge_unmasked ..).trans (vexMerge_zx ..).symm

/-! ## FaultSuppression (rule R38) -/

/-- With suppression no more bytes are checked, so what could be read without it still can, with the same value. -/
theorem sourceIs_withSuppression {s : State} {srcw nb n len : Nat} {m : Masking} {src : Src} {S : Vec}
    (h : (s.withSuppression false).SourceIs srcw nb m n len src S) :
    (s.withSuppression true).SourceIs srcw nb m n len src S := by
  cases src with
  | reg r => exact h
  | mem op =>
    obtain ⟨hread, hbyte⟩ := h
    exact ⟨fun i hi => hread i ⟨hi.1, nofun⟩, fun i hi => hbyte i ⟨hi.1, nofun⟩⟩

/-- Settles O27: a form that completes has read a value of its operand, which is one under suppression as well. -/
theorem faultSuppressionKeepsTheResult : Obligations.FaultSuppressionKeepsTheResult := by
  intro i s t hs h ht
  obtain ⟨-, rfl⟩ | ⟨e, -, -, rfl⟩ | ⟨val, hen, hop, rfl⟩ := exec_cases h
  · cases ht
  · cases ht
  · rw [exec_completes_of_sourceIs (s := s.withSuppression true) hen (sourceIs_withSuppression (operand_sourceIs hop))]
    cases i.shape <;> rfl

/-! ## States that differ in what is not read -/

/-- A change `g` of the state that the feature check, the operand and the result do not see, and that commutes with the two
ways of answering a next state, commutes with the execution. -/
theorem exec_commutes {i : Instr} {s t : State} (g : State → State) (hcfg : (g s).cfg.features = s.cfg.features)
    (hop : (g s).operand i = s.operand i)
    (hres : ∀ val, i.shape.result (g s) ((g s).vreg i.shape.dest) val = i.shape.result s (s.vreg i.shape.dest) val)
    (hraise : ∀ e, (g s).raise e = g (s.raise e))
    (hcomplete : ∀ val, (g s).complete i.shape.dest val i.length = g (s.complete i.shape.dest val i.length))
    (h : exec i s = .next t) : exec i (g s) = .next (g t) := by
  obtain ⟨hen, rfl⟩ | ⟨e, hen, he, rfl⟩ | ⟨val, hen, hv, rfl⟩ := exec_cases h <;> rw [← hcfg] at hen
  · rw [exec_disabled hen, hraise]
  · rw [exec_faults hen (hop.trans he), hraise]
  · rw [exec_completes hen (hop.trans hv), hres, hcomplete]

/-! ## Masks (rule R18) -/

/-- Other masks that agree on the bits an operand's elements need change no bit that is read. -/
theorem maskBit_withMasks {s : State} {m : Masking} {k : Vector KMask 8} {n : Nat}
    (h : ∀ (r : KReg) (j : Nat), m = .merging r ∨ m = .zeroing r → j < n → (k[r]).getLsbD j = (s.kreg r).getLsbD j)
    {j : Nat} (hj : j < n) : (s.withMasks k).maskBit m j = s.maskBit m j := by
  cases m with
  | none => rfl
  | merging r => exact h r j (.inl rfl) hj
  | zeroing r => exact h r j (.inr rfl) hj

theorem checkedOffsets_withMasks {s : State} {c : Conversion} {vl : VLen} {m : Masking} {k : Vector KMask 8}
    (h : ∀ j, j < elements c vl → (s.withMasks k).maskBit m j = s.maskBit m j) :
    (s.withMasks k).checkedOffsets c vl m = s.checkedOffsets c vl m := by
  have hfilter : (List.range (sourceBytes c vl)).filter (fun i => (s.withMasks k).maskBit m (i / (c.srcw / 8))) =
      (List.range (sourceBytes c vl)).filter (fun i => s.maskBit m (i / (c.srcw / 8))) := by
    refine List.filter_congr fun i hi => h _ ?_
    rw [List.mem_range, sourceBytes_eq] at hi
    exact (Nat.div_lt_iff_lt_mul (bytewidth_pos c)).mpr hi
  rw [State.checkedOffsets, State.checkedOffsets, hfilter]
  rfl

theorem operand_withMasks {i : Instr} {s : State} {k : Vector KMask 8}
    (h : ∀ j, j < elements i.shape.conv i.shape.vlen →
      (s.withMasks k).maskBit i.shape.masking j = s.maskBit i.shape.masking j) :
    (s.withMasks k).operand i = s.operand i := by
  cases hsrc : i.shape.src with
  | reg r => rw [operand_reg hsrc, operand_reg hsrc]; rfl
  | mem op => rw [operand_mem hsrc, operand_mem hsrc, checkedOffsets_withMasks h]; rfl

theorem result_withMasks {sh : Shape} {s : State} {k : Vector KMask 8}
    (h : ∀ j, j < elements sh.conv sh.vlen → (s.withMasks k).maskBit sh.masking j = s.maskBit sh.masking j)
    (old val : Vec) : sh.result (s.withMasks k) old val = sh.result s old val := by
  cases sh with
  | legacy c rex d src => rfl
  | vex c wide d src => rfl
  | evex c vl m d src =>
    refine pack_congr fun j hj => ?_
    have hbit : (s.withMasks k).maskBit m j = s.maskBit m j := h j hj
    rw [hbit]

/-- Settles O39: operand and result read the masks through the mask bits of elements below KL alone. -/
theorem onlyTheNamedMaskBitsBelowKlAreRead : Obligations.OnlyTheNamedMaskBitsBelowKlAreRead := by
  intro i s t k h ht
  have hmask : ∀ j, j < elements i.shape.conv i.shape.vlen →
      (s.withMasks k).maskBit i.shape.masking j = s.maskBit i.shape.masking j := fun j hj => maskBit_withMasks h hj
  exact exec_commutes (·.withMasks k) rfl (operand_withMasks hmask) (fun val => result_withMasks hmask _ val)
    (fun _ => rfl) (fun _ => rfl) ht

/-! ## Memory (rule R34) -/

/-- The address check depends on the accessibility of the checked bytes alone. -/
theorem memoryFault_congr {s s' : State} {ea : Addr} {offs : List Nat} (onStack : Bool) (nb : Nat)
    (h : ∀ i ∈ offs, s'.accessible (ea + BitVec.ofNat 64 i) = s.accessible (ea + BitVec.ofNat 64 i)) :
    s'.memoryFault onStack ea nb offs = s.memoryFault onStack ea nb offs := by
  have hfind : offs.find? (fun i => !s'.accessible (ea + BitVec.ofNat 64 i)) =
      offs.find? (fun i => !s.accessible (ea + BitVec.ofNat 64 i)) :=
    List.find?_congr fun i hi => by rw [h i hi]
  simp only [State.memoryFault, hfind]

/-- The value read depends on the bytes read alone. -/
theorem readBytes_congr {s s' : State} {ea : Addr} {offs : List Nat} (nb : Nat)
    (h : ∀ i ∈ offs, s'.mem.read (ea + BitVec.ofNat 64 i).toNat = s.mem.read (ea + BitVec.ofNat 64 i).toNat) :
    s'.readBytes ea nb offs = s.readBytes ea nb offs := by
  refine pack_congr fun i _ => ?_
  split
  next hi => exact h i hi
  next => rfl

@[simp] theorem withMemory_effectiveAddress (s : State) (m : Memory) (acc : List Region) (n : Nat) (next : Addr)
    (op : MemOp) : (s.withMemory m acc).effectiveAddress n next op = s.effectiveAddress n next op := by cases op <;> rfl

@[simp] theorem withMemory_checkedOffsets (s : State) (m : Memory) (acc : List Region) (c : Conversion) (vl : VLen)
    (mask : Masking) : (s.withMemory m acc).checkedOffsets c vl mask = s.checkedOffsets c vl mask := rfl

@[simp] theorem withMemory_pc (s : State) (m : Memory) (acc : List Region) : (s.withMemory m acc).pc = s.pc := rfl

@[simp] theorem result_withMemory (sh : Shape) (s : State) (m : Memory) (acc : List Region) (old val : Vec) :
    sh.result (s.withMemory m acc) old val = sh.result s old val := by cases sh <;> rfl

/-- An operand reads alike in memories that agree on its bytes and on which of them are accessible. -/
theorem operand_withMemory {i : Instr} {s : State} {op : MemOp} {m : Memory} {acc : List Region} {ea : Addr}
    (hsrc : i.shape.src = .mem op)
    (hea : s.effectiveAddress i.shape.dispScale (s.pc + BitVec.ofNat 64 i.length) op = ea)
    (h : ∀ j, j < sourceBytes i.shape.conv i.shape.vlen →
      m.read (ea + BitVec.ofNat 64 j).toNat = s.mem.read (ea + BitVec.ofNat 64 j).toNat ∧
        (s.withMemory m acc).accessible (ea + BitVec.ofNat 64 j) = s.accessible (ea + BitVec.ofNat 64 j)) :
    (s.withMemory m acc).operand i = s.operand i := by
  have hbelow : ∀ j ∈ s.checkedOffsets i.shape.conv i.shape.vlen i.shape.masking,
      j < sourceBytes i.shape.conv i.shape.vlen := fun j hj => ((mem_checkedOffsets ..).mp hj).1
  have hfault := memoryFault_congr (stackBase op) (sourceBytes i.shape.conv i.shape.vlen)
    fun j hj => (h j (hbelow j hj)).2
  have hbytes := readBytes_congr (s' := s.withMemory m acc) (sourceBytes i.shape.conv i.shape.vlen)
    fun j hj => (h j (hbelow j hj)).1
  simp only [operand_mem hsrc, withMemory_effectiveAddress, withMemory_checkedOffsets, withMemory_pc, hea, hfault, hbytes]

/-- Settles O40: address check and read of the operand see the bytes below NB alone; nothing else reads memory. -/
theorem onlyTheOperandsBytesAreRead : Obligations.OnlyTheOperandsBytesAreRead := by
  intro i s t op m acc hsrc h ht
  exact exec_commutes (·.withMemory m acc) rfl (operand_withMemory hsrc rfl h) (fun val => result_withMemory ..)
    (fun _ => rfl) (fun _ => rfl) ht

end Sys2Proof
end

section
/-! Rules R106 to R108: the value of an intrinsic is what the forms that can implement it write. -/

namespace Sys2Proof

open Machine

/-! ## The EVEX forms (rule R106) -/

/-- The mask argument of the intrinsic an EVEX form implements. -/
def maskArgument (s : State) : Masking → KMask
  | .none => 0
  | .merging k => s.kreg k
  | .zeroing k => s.kreg k

/-- The three shapes of prototype are the merge with no writemask, with merging and with zeroing. -/
theorem evexMerge_eq_intrinsicValue (c : Conversion) (vl : VLen) (m : Masking) (s : State) (old S : Vec) :
    evexMerge c vl (s.maskBit m) (isZeroing m) old (zx c vl S) =
      intrinsicValue (maskingKind m) c vl old (maskArgument s m) S := by
  cases m with
  | none => exact evexMerge_unmasked ..
  | merging k => rfl
  | zeroing k => rfl

/-- An enabled form with a register source completes with the result of its shape. -/
theorem exec_reg {i : Instr} {s : State} {r : VReg} (hsrc : i.shape.src = .reg r)
    (hen : i.shape.requires s.cfg.features = true) :
    ∃ t, exec i s = .next t ∧ t.vreg i.shape.dest = i.shape.result s (s.vreg i.shape.dest) (s.vreg r) :=
  ⟨_, exec_completes hen (operand_reg hsrc s), complete_vreg_self ..⟩

/-- Settles O49: an EVEX form writes the merge, which is the intrinsic's value. -/
theorem intrinsicsAreTheEvexForms : Obligations.IntrinsicsAreTheEvexForms := by
  intro i s c vl m d r hshape hen
  obtain ⟨t, ht, hval⟩ := exec_reg (r := r) (by rw [hshape]; rfl) hen
  rw [hshape] at hval
  refine ⟨t, ht, hval.trans ((evexMerge_eq_intrinsicValue c vl m s (s.vreg d) (s.vreg r)).trans ?_)⟩
  cases m <;> rfl

/-! ## The 54 lines (rules R107, R108) -/

/-- Settles O50: the list is short, and both columns are evaluated. -/
theorem tenIntrinsicLinesDisagree : Obligations.TenIntrinsicLinesDisagree := by
  unfold Obligations.TenIntrinsicLinesDisagree
  decide

/-- A writemask that belongs to a shape of prototype. -/
def maskingFor : IntrinsicKind → Masking
  | .plain => .none
  | .merging => .merging 1
  | .zeroing => .zeroing 1

/-- An instruction with the printed mnemonic of a line: EVEX where a V is printed, legacy where not. -/
def printedForm (l : IntrinsicLine) : Instr :=
  if l.hasV then mkEvex l.conv l.vl (maskingFor l.kind) 0 (.reg 0) else mkLegacy l.conv false 0 (.reg 0)

theorem mnemonic_mkLegacy (c : Conversion) (rex : Bool) (d : VReg) (src : Src) :
    (mkLegacy c rex d src).mnemonic = "PMOVZX" ++ c.suffix := by rw [Instr.mnemonic, mkLegacy_shape]

theorem mnemonic_mkEvex (c : Conversion) (vl : VLen) (m : Masking) (d : VReg) (src : Src) :
    (mkEvex c vl m d src).mnemonic = "VPMOVZX" ++ c.suffix := by rw [Instr.mnemonic, mkEvex_shape]

theorem printedForm_mnemonic (l : IntrinsicLine) : (printedForm l).mnemonic = l.mnemonic := by
  cases hV : l.hasV with
  | false => simp [printedForm, IntrinsicLine.mnemonic, hV, mnemonic_mkLegacy]
  | true => simp [printedForm, IntrinsicLine.mnemonic, hV, mnemonic_mkEvex]

theorem printedForm_implements : ∀ l ∈ intrinsicLines, l.implementedBy (printedForm l) = true := by decide

/-- Legacy and VEX forms can implement unmasked lines alone (rule R107). -/
theorem kind_eq_plain_of_encodings {l : IntrinsicLine} {e : Encoding} (he : e ≠ .evex)
    (h : l.encodings.contains e = true) : l.kind = .plain := by
  cases hk : l.kind with
  | plain => rfl
  | merging => exact absurd (by simpa [IntrinsicLine.encodings, hk] using h) he
  | zeroing => exact absurd (by simpa [IntrinsicLine.encodings, hk] using h) he

/-- An instruction that can implement a line has the line's conversion and length, and a writemask of its shape. -/
theorem implementedBy_fields {l : IntrinsicLine} {i : Instr} (h : l.implementedBy i = true) :
    i.shape.conv = l.conv ∧ i.shape.vlen = l.vl ∧ maskingKind i.shape.masking = l.kind := by
  unfold IntrinsicLine.implementedBy at h
  split at h
  next c rex d src hs =>
    simp only [Bool.and_eq_true, beq_iff_eq] at h
    obtain ⟨⟨henc, hc⟩, hvl⟩ := h
    rw [hs]
    exact ⟨hc, hvl.symm, (kind_eq_plain_of_encodings (by decide) henc).symm⟩
  next c wide d src hs =>
    simp only [Bool.and_eq_true, beq_iff_eq] at h
    obtain ⟨⟨henc, hc⟩, hvl⟩ := h
    rw [hs]
    exact ⟨hc, hvl.symm, (kind_eq_plain_of_encodings (by decide) henc).symm⟩
  next c vl m d src hs =>
    simp only [Bool.and_eq_true, beq_iff_eq] at h
    obtain ⟨⟨⟨-, hc⟩, hvl⟩, hkind⟩ := h
    rw [hs]
    exact ⟨hc, hvl.symm, hkind.symm⟩

/-- Below bit VL every form writes the value of the intrinsic of its conversion, length and writemask. -/
theorem result_low_bits (sh : Shape) (s : State) (old S : Vec) :
    (sh.result s old S).setWidth sh.vlen.bits =
      (intrinsicValue (maskingKind sh.masking) sh.conv sh.vlen old (maskArgument s sh.masking) S).setWidth sh.vlen.bits := by
  cases sh with
  | legacy c rex d src =>
    refine BitVec.eq_of_getLsbD_eq fun b (hb : b < 128) => ?_
    simp only [BitVec.getLsbD_setWidth]
    rw [Shape.result, legacyMerge_getLsbD, if_pos hb]
    rfl
  | vex c wide d src => rw [Shape.result, vexMerge_zx]; rfl
  | evex c vl m d src => rw [Shape.result, evexMerge_eq_intrinsicValue]; rfl

/-- Settles O51: every form writes its intrinsic's value below VL; the line only says which forms those are. -/
theorem eachIntrinsicLineIsWhatItsFormsCompute : Obligations.EachIntrinsicLineIsWhatItsFormsCompute := by
  intro l hl
  refine ⟨⟨printedForm l, printedForm_implements l hl, printedForm_mnemonic l⟩, fun i s r himp hsrc hen => ?_⟩
  obtain ⟨hconv, hvl, hkind⟩ := implementedBy_fields himp
  obtain ⟨t, ht, hval⟩ := exec_reg hsrc hen
  have hlow := result_low_bits i.shape s (s.vreg i.shape.dest) (s.vreg r)
  rw [← hval, hconv, hvl, hkind] at hlow
  refine ⟨t, ht, hlow.trans ?_⟩
  cases i.shape.masking <;> rfl

end Sys2Proof
end

section
/-! Rules R16, R23, R28, R120 and R138: register views, exception numbers, and where the features come from. -/

namespace Sys2Proof

open Machine

/-- Settles O22: both tables are written out. -/
theorem exceptionVectorsAndErrorCodes : Obligations.ExceptionVectorsAndErrorCodes :=
  ⟨rfl, rfl, rfl, fun _ => rfl, rfl, rfl, rfl⟩

/-- Settles O41: the low bits of low bits are the low bits. -/
theorem registerNamesAreViewsOfOneRegister : Obligations.RegisterNamesAreViewsOfOneRegister := by
  intro s i
  refine ⟨rfl, (BitVec.setWidth_eq_extractLsb' (by decide)).symm, ?_⟩
  rw [State.xmm, State.ymm, BitVec.setWidth_extractLsb'_of_le (by decide)]

/-! ## Features from control bits (rules R23, R28, R138) -/

/-- No extension is present and enabled. -/
def noFeatures : Features := ⟨false, false, false, false, false, false⟩

/-- After RESET CR4 is 0, so no state is enabled, whatever the CPUID words are (rule R28). -/
theorem powerUp_features (a b : BitVec 32) : (ControlBits.powerUp a b).features = noFeatures := by
  have hlegacy : (ControlBits.powerUp a b).legacyEnabled = false := by
    simp [ControlBits.powerUp, ControlBits.legacyEnabled]
  have hvex : (ControlBits.powerUp a b).vexEnabled = false := by simp [ControlBits.powerUp, ControlBits.vexEnabled]
  have hevex : (ControlBits.powerUp a b).evexEnabled = false := by simp [ControlBits.evexEnabled, hvex]
  simp only [ControlBits.features, hlegacy, hvex, hevex, Bool.and_false, noFeatures]

/-- Every form needs a feature (rule R123). -/
theorem requires_noFeatures (sh : Shape) : sh.requires noFeatures = false := by
  cases sh with
  | legacy c rex d src => rfl
  | vex c wide d src => cases wide <;> rfl
  | evex c vl m d src => cases c <;> cases vl <;> rfl

/-- Settles O47: power-up leaves no feature, and every form needs one. -/
theorem powerUpEnablesNoForm : Obligations.PowerUpEnablesNoForm := fun a b i => by
  rw [powerUp_features, requires_noFeatures]

/-- Boot step (2) clears CR0.EM, sets CR4.OSFXSR and leaves CR0.TS. -/
theorem enableLegacy_bits (c : ControlBits) :
    c.enableLegacy.legacyEnabled = true ∧ c.enableLegacy.notTaskSwitched = c.notTaskSwitched := by
  simp [ControlBits.enableLegacy, ControlBits.legacyEnabled, ControlBits.notTaskSwitched]

/-- Boot step (3) for the VEX forms sets the three bits they need. -/
theorem enableVex_bits (c : ControlBits) : c.enableVex.vexEnabled = true := by
  simp [ControlBits.enableVex, ControlBits.vexEnabled]

/-- Boot step (3) for the EVEX forms sets the six bits they need. -/
theorem enableEvex_bits (c : ControlBits) : c.enableEvex.evexEnabled = true := by
  simp [ControlBits.enableEvex, ControlBits.enableVex, ControlBits.evexEnabled, ControlBits.vexEnabled]

/-- Settles O48: the steps set the enabling bits and write no CPUID word. -/
theorem bootStepsEnableTheForms : Obligations.BootStepsEnableTheForms := by
  intro c
  obtain ⟨hlegacy, hts⟩ := enableLegacy_bits c
  have hvex := enableVex_bits c
  have hevex := enableEvex_bits c
  refine ⟨hts, rfl, ?_⟩
  simp only [ControlBits.features, hlegacy, hvex, hevex, Bool.and_true]
  exact ⟨rfl, rfl, rfl, rfl, rfl, rfl⟩

end Sys2Proof
end
